-- ==== Sys2Proof/Word.lean ====
section
/-! DEFINITION. The word types of PZP-PCT: the 32-bit register word and the 8-bit sample (00_scope.md R6, R7). -/

namespace Sys2Proof

/-- A register: "A register is 32 bits wide" (R7). -/
abbrev Word := BitVec 32

/-- A sample or memory byte: "`u8` is an unsigned 8-bit value 0..255" (R7). -/
abbrev Byte := BitVec 8

/-- Four 32-bit words indexed 0..3: the seeds CHK_SEED0..3 (R41), the accumulators A0..A3 (R49), and the
multipliers M[0..3] (R141). -/
structure Quad where
  q0 : Word
  q1 : Word
  q2 : Word
  q3 : Word
deriving DecidableEq, Repr

end Sys2Proof
end

