-- ==== Sys2Proof/Config.lean ====
section
/-! DEFINITION. The implementation parameters (00_scope.md R6) as plain data, so that every statement over all states
holds for every choice of them, and the free values (constants with no body) from which a step takes whatever the spec
leaves unspecified. -/

namespace Sys2Proof

/-- A contiguous range of byte addresses `[base, base + len)` (20_memory.md R63). -/
structure Region where
  base : Nat
  len : Nat
deriving DecidableEq, Repr

/-- The parameters of R6 and the platform predicates of R80 (U20) and R69 (U11). No step changes them. -/
structure Config where
  /-- ADDR_W, 1..32 (D3). -/
  addrW : Nat
  /-- MAX_CHANNELS, 7..255 (D12). -/
  maxChannels : Nat
  /-- MAX_TOTAL_BYTES, at least 1 (D13). -/
  maxTotalBytes : Nat
  /-- CHK_SEED_RESET[0..3] (D9). -/
  seedReset : Quad
  /-- REG_BASE, the bus address of the register window, 256-byte aligned (D2), in the numbering of the engine's memory
  addresses (DESIGN CHOICE, log 22). -/
  regBase : Nat
  /-- PLATFORM_COHERENT (D26): a property of the host's caches, read by no rule of the block (log 14). -/
  platformCoherent : Bool
  /-- The addresses whose engine read fails (R80, U20): any set of addresses of a finite space is such a list. -/
  readFailing : List Region
  /-- The addresses whose engine write fails (R80, U20). -/
  writeFailing : List Region
  /-- Memory with side effects (device registers, FIFOs), where U11 gives a command no meaning (R69). -/
  sideEffects : List Region
deriving DecidableEq, Repr

/-- The ranges of R6. The upper bound on MAX_TOTAL_BYTES is DEDUCED from R44: the 32-bit MAXTOTAL returns it (log 3). -/
def Config.legal (c : Config) : Bool :=
  1 ≤ c.addrW && c.addrW ≤ 32 && 7 ≤ c.maxChannels && c.maxChannels ≤ 255 &&
    1 ≤ c.maxTotalBytes && c.maxTotalBytes < 2 ^ 32 && c.regBase % 256 == 0

/-- CHK_SEED_RESET[k] of the machine that `State.reset` describes: OPEN in R6, so it has no value here
(log 18). -/
opaque Config.chkSeedReset : Fin 4 → Word

/-- PLATFORM_COHERENT of the machine that `State.reset` describes: OPEN in R6 (log 18). -/
opaque Config.coherentAtReset : Bool

/-- The parameters that `State.reset` carries: R6's defaults where it gives one; the seeds and PLATFORM_COHERENT have no
value; REG_BASE, the failing addresses and the side-effect ranges are DESIGN CHOICE (log 2). -/
def Config.standard : Config where
  addrW := 32
  maxChannels := 255
  maxTotalBytes := 99999960
  seedReset := ⟨Config.chkSeedReset 0, Config.chkSeedReset 1, Config.chkSeedReset 2, Config.chkSeedReset 3⟩
  regBase := 2 ^ 32
  platformCoherent := Config.coherentAtReset
  readFailing := []
  writeFailing := []
  sideEffects := []

/-- The n-th unspecified byte (R70, R230, R263; U9, U14, U15). -/
opaque Config.freeByte : Nat → Byte

/-- The n-th unspecified register value (CHK_RESULT after a race, R70; the hidden accumulators, R53 and U16). -/
opaque Config.freeWord : Nat → Word

/-- The n-th unspecified yes-or-no (CHK_MISMATCH after a race, R70; whether an access that R66 leaves to the
implementation is made). -/
opaque Config.freeBool : Nat → Bool

/-- The n-th unspecified choice among several candidates (ERR_ADDR, R229, U13). -/
opaque Config.freeNat : Nat → Nat

end Sys2Proof
end

