-- ==== Sys2Proof/Syntax.lean ====
section
/-! DEFINITION. The seven commands of PZP-PCT (30_encoding.md R93): one constructor per row of spec/opcode_table.json.
The operand fields are those the row leaves open: DELTA for ENCODE, DELTA and FATAL for DECODE (R94, R95). Every other
operand is a register (R99). -/

namespace Sys2Proof

inductive Instr where
  /-- SPLIT, OP = 0x1 (R162). -/
  | split
  /-- MERGE, OP = 0x2 (R163). -/
  | merge
  /-- DFWD, OP = 0x3 (R182). -/
  | dfwd
  /-- DINV, OP = 0x4 (R183). -/
  | dinv
  /-- CSUM, OP = 0x5 (R147). -/
  | csum
  /-- ENCODE, OP = 0x6, with its DELTA bit (R200, R94). -/
  | encode (delta : Bool)
  /-- DECODE, OP = 0x7, with its DELTA and FATAL bits (R203, R94, R95). -/
  | decode (delta fatal : Bool)
deriving DecidableEq, Repr

end Sys2Proof
end

