-- ==== Sys2Proof/Machine/State.lean ====
section
/-! DEFINITION. The state of PZP-PCT (10_state.md R20): the register file, the engine, the hidden accumulators, the reset
input, the memory it shares with the host, and the model's own fields (what the host does next, what it last saw on the
bus, the counter of free values). Plain data throughout. -/

namespace Sys2Proof.Machine

/-- STATUS.ERR_CODE (60_exceptions.md R220). "The block never produces codes 8 to 15." -/
inductive ErrCode where
  | noError
  | illegalCmd
  | badGeometry
  | sizeLimit
  | addrRange
  | overlap
  | busError
  | chkMismatch
deriving DecidableEq, Repr

/-- The stored fields of STATUS (R24). BUSY is not stored: it "is 1 exactly when the engine state is BUSY" (R25). -/
structure Status where
  done : Bool
  err : Bool
  chkMismatch : Bool
  wbusy : Bool
  errCode : ErrCode
deriving DecidableEq, Repr

/-- The parameter registers (R33 to R39, R41), all 32 bits stored; also the shape of what the engine latches (R48). -/
structure Operands where
  src : Word
  dst : Word
  width : Word
  height : Word
  channels : Word
  length : Word
  chkExpect : Word
  seeds : Quad
deriving DecidableEq, Repr

/-- The engine's sequencing state (R47): `op` with the values it latched (R48). `raced` is the model's own (log 6): a host
write has touched a region of the running command (20_memory.md R70). -/
inductive Eng where
  | idle
  | busy (op : Instr) (latched : Operands) (raced : Bool)
deriving DecidableEq, Repr

/-- The registers of the window (R21 to R44). -/
inductive Reg where
  | id | ctrl | status | cmd | src | dst | width | height | channels | length | chkExpect | chkResult
  | chkSeed0 | chkSeed1 | chkSeed2 | chkSeed3 | errAddr | maxch | maxtotal
deriving DecidableEq, Repr

/-- The width of a host access to the window (R68). -/
inductive AccessSize where
  | byte | half | word
deriving DecidableEq, Repr

/-- What happens next outside the engine's own body: one event a step, in the order performed (R71 to R73, log 13). -/
inductive Input where
  /-- The engine takes its step (R129). -/
  | engine
  /-- The reset input takes this level: asserted or released (R260, log 11). -/
  | resetPin (asserted : Bool)
  /-- A host read of the register window (R90). -/
  | regRead (size : AccessSize) (offset : BitVec 8)
  /-- A host write to the register window (R90). -/
  | regWrite (size : AccessSize) (offset : BitVec 8) (value : Word)
  /-- A host read of the shared memory (R60, R70). -/
  | memRead (addr : Nat)
  /-- A host write to the shared memory (R60, R70). -/
  | memWrite (addr : Nat) (value : Byte)
  /-- `POLL reg, mask, value` (30_encoding.md R100): read until `(read & mask) = value` (log 19). -/
  | poll (r : Reg) (mask value : Word)
  /-- The host waits for the interrupt output to be high (R51, R266). -/
  | waitIrq
deriving DecidableEq, Repr

/-- What the host last saw on its bus. -/
inductive Response where
  | nothing
  /-- A write was taken by the bus (log 16). -/
  | ok
  | word (w : Word)
  | byte (b : Byte)
  /-- The access-error response of R68. -/
  | accessError
deriving DecidableEq, Repr

/-- The bytes of the shared memory (R60): (address, byte) pairs, addresses strictly rising, no pair holding `0`, which
is what an unlisted address reads as (log 4). -/
abbrev Memory := List Host.Cell

structure State where
  /-- The implementation parameters (R6); no step changes them. -/
  cfg : Config
  /-- CTRL.IRQ_EN (R22). -/
  irqEn : Bool
  /-- STATUS but for BUSY (R24). -/
  status : Status
  /-- The CMD readback (R32). -/
  cmd : Word
  /-- SRC, DST, WIDTH, HEIGHT, CHANNELS, LENGTH, CHK_EXPECT, CHK_SEED0..3. -/
  params : Operands
  /-- CHK_RESULT (R40). -/
  chkResult : Word
  /-- ERR_ADDR (R42). -/
  errAddr : Word
  /-- The hidden accumulators A0..A3 (R49). -/
  acc : Quad
  /-- The engine (R47). -/
  eng : Eng
  /-- The shared memory (R60). -/
  mem : Memory
  /-- The level of the reset input: asserted (R260). -/
  resetHeld : Bool
  /-- MODEL (log 6): the events to come, first first. -/
  inputs : List Input
  /-- MODEL (log 6): the last bus response to the host. -/
  resp : Response
  /-- MODEL (log 6): how many free values have been drawn. -/
  draws : Nat
deriving DecidableEq, Repr

/-- Why the machine stops. -/
inductive Fault where
  /-- An access outside `[0, 2^ADDR_W)`, an address that does not exist (R60): raised by a host memory access, and by a
  meaning run in a state whose command never passed validation (no reachable state, R127). Safe: the model stops where
  the platform would answer in a way the spec does not give. -/
  | outsideAddressSpace
deriving DecidableEq, Repr

/-- Why the model gives no meaning. -/
inductive Refusal where
  /-- An instruction still without a meaning, raised by `exec` only. Safe: nothing is claimed of it. -/
  | notModelled (mnemonic : String)
  /-- A region, or a host memory access, on memory with side effects or on the block's own register window: "a model
  gives such a command no meaning" (93_implementation_defined.md U11; R61, R69). Raised by every meaning and by the host
  memory accesses. Safe: nothing is claimed of it. -/
  | sideEffectMemory
deriving DecidableEq, Repr

/-- STATUS after reset: 0 (R24, R53). -/
def Status.atReset : Status := ⟨false, false, false, false, .noError⟩

/-- The parameter registers after reset: 0, and CHK_SEEDk = CHK_SEED_RESET[k] (R53). -/
def Operands.atReset (c : Config) : Operands := ⟨0, 0, 0, 0, 0, 0, 0, c.seedReset⟩

/-- The machine right after reset (R53, R260, R261): nothing listed in memory, no event pending, the reset input released
(log 11). The hidden accumulators are unspecified in R53; `0` here is DESIGN CHOICE (log 5). -/
def State.reset : State where
  cfg := Config.standard
  irqEn := false
  status := Status.atReset
  cmd := 0
  params := Operands.atReset Config.standard
  chkResult := 0
  errAddr := 0
  acc := ⟨0, 0, 0, 0⟩
  eng := .idle
  mem := []
  resetHeld := false
  inputs := []
  resp := .nothing
  draws := 0

end Sys2Proof.Machine
end

