-- ==== Sys2Proof/Machine/Operands.lean ====
section
/-! DEFINITION. What a command works on: the derived sizes (00_scope.md R11), its regions (20_memory.md R63), which of
them it writes (60_exceptions.md R230), and the engine accesses its body makes (R66). Also the predicates over regions
that validation and the bus use. -/

namespace Sys2Proof

/-- The address lies in the region. -/
def Region.contains (r : Region) (a : Nat) : Bool := r.base ≤ a && a < r.base + r.len

/-- The two regions share an address. -/
def Region.meets (r q : Region) : Bool :=
  0 < r.len && 0 < q.len && r.base < q.base + q.len && q.base < r.base + r.len

/-- The addresses of a region, in increasing order. -/
def Region.addresses (r : Region) : List Nat := (List.range r.len).map (r.base + ·)

/-- "A region is in range when `len = 0` or `base + len ≤ 2^ADDR_W`, computed exactly" (R127). -/
def Region.inRange (c : Config) (r : Region) : Bool := r.len == 0 || r.base + r.len ≤ 2 ^ c.addrW

/-- The register window, 256 bytes at REG_BASE (R61). -/
def Config.window (c : Config) : Region := ⟨c.regBase, 256⟩

/-- Some byte of the region is not ordinary memory (R61, R69, U11). -/
def Config.touchesSideEffects (c : Config) (r : Region) : Bool := (c.window :: c.sideEffects).any r.meets

/-- A read of this address by the engine fails (R80). -/
def Config.readFails (c : Config) (a : Nat) : Bool := c.readFailing.any (·.contains a)

/-- A write to this address by the engine fails (R80). -/
def Config.writeFails (c : Config) (a : Nat) : Bool := c.writeFailing.any (·.contains a)

namespace Machine

/-- C of R11. -/
def Operands.C (o : Operands) : Nat := o.channels.toNat

/-- P of R11: samples per plane, W · H, exact. -/
def Operands.P (o : Operands) : Nat := o.width.toNat * o.height.toNat

/-- N of R11: bytes of an interleaved image and of a plane set, C · P, exact. -/
def Operands.N (o : Operands) : Nat := o.C * o.P

/-- The N-byte region at SRC. -/
def Operands.srcRegion (o : Operands) : Region := ⟨o.src.toNat, o.N⟩

/-- The N-byte region at DST. -/
def Operands.dstRegion (o : Operands) : Region := ⟨o.dst.toNat, o.N⟩

/-- The region CSUM digests, `[SRC, SRC + LENGTH)`. -/
def Operands.bufRegion (o : Operands) : Region := ⟨o.src.toNat, o.length.toNat⟩

/-- The operands a body uses: those latched at acceptance while BUSY (R48), else the visible registers (log 21). -/
def State.operands (s : State) : Operands :=
  match s.eng with
  | .busy _ latched _ => latched
  | .idle => s.params

/-- STATUS.BUSY (R25). -/
def State.isBusy (s : State) : Bool :=
  match s.eng with
  | .busy _ _ _ => true
  | .idle => false

/-- A host write has touched a region of the running command (R70). -/
def State.raced (s : State) : Bool :=
  match s.eng with
  | .busy _ _ raced => raced
  | .idle => false

end Machine

open Machine

/-- "Geometry command: SPLIT, MERGE, DFWD, DINV, ENCODE or DECODE" (R12). -/
def Instr.isGeometry : Instr → Bool
  | .split | .merge | .dfwd | .dinv | .encode _ | .decode _ _ => true
  | .csum => false

/-- "for commands that compute a digest" (R70): CSUM, ENCODE and DECODE. -/
def Instr.digests : Instr → Bool
  | .csum | .encode _ | .decode _ _ => true
  | .split | .merge | .dfwd | .dinv => false

/-- "SPLIT, MERGE, ENCODE and DECODE have a source and a destination region" (R128). -/
def Instr.hasDestination : Instr → Bool
  | .split | .merge | .encode _ | .decode _ _ => true
  | .dfwd | .dinv | .csum => false

/-- The regions of a command (R63). -/
def Instr.regions (i : Instr) (o : Operands) : List Region :=
  match i with
  | .split | .merge | .encode _ | .decode _ _ => [o.srcRegion, o.dstRegion]
  | .dfwd | .dinv => [o.srcRegion]
  | .csum => [o.bufRegion]

/-- The destination and in-place regions (R230): "DST's for SPLIT, MERGE, ENCODE; SRC's for DFWD, DINV; SRC's if
DELTA = 1 and DST's for DECODE". -/
def Instr.writtenRegions (i : Instr) (o : Operands) : List Region :=
  match i with
  | .split | .merge | .encode _ => [o.dstRegion]
  | .dfwd | .dinv => [o.srcRegion]
  | .csum => []
  | .decode delta _ => if delta then [o.srcRegion, o.dstRegion] else [o.dstRegion]

/-- Some region of the list holds the address. -/
def Region.anyContains (rs : List Region) (a : Nat) : Bool := rs.any (·.contains a)

namespace Machine

/-- The engine accesses of a body: those its rule makes, and those R66 lets an implementation make or leave out. -/
structure Accesses where
  reads : List Nat
  writes : List Nat
  mayRead : List Nat
  mayWrite : List Nat
deriving DecidableEq, Repr

/-- Sample 0 of each plane of the plane set at SRC, `SRC + c·P` (R182, R184). -/
def Operands.seedAddresses (o : Operands) : List Nat :=
  if o.P = 0 then [] else (List.range o.C).map fun c => o.src.toNat + c * o.P

/-- The samples the delta filters rewrite, `SRC + c·P + i` with `1 ≤ i < P` (R182, R183). -/
def Operands.filteredAddresses (o : Operands) : List Nat :=
  (List.range o.C).flatMap fun c => (List.range (o.P - 1)).map fun i => o.src.toNat + c * o.P + (i + 1)

/-- Every source byte is read and every destination byte written (R162, R163). -/
def Operands.copyAccesses (o : Operands) : Accesses :=
  ⟨o.srcRegion.addresses, o.dstRegion.addresses, [], []⟩

/-- Every sample is read and all but each plane's sample 0 written (R182, R183); sample 0 "is never written with a
different value", so writing it back is left open (log 8). -/
def Operands.filterAccesses (o : Operands) : Accesses :=
  ⟨o.srcRegion.addresses, o.filteredAddresses, [], o.seedAddresses⟩

/-- Every byte of the buffer is read (R147). -/
def Operands.digestAccesses (o : Operands) : Accesses := ⟨o.bufRegion.addresses, [], [], []⟩

/-- The image is read and the plane set written (R200); whether the plane set is also read back from memory for the
digest (R63, R66) or digested as it passes is left open (log 8). -/
def Operands.encodeAccesses (o : Operands) : Accesses :=
  ⟨o.srcRegion.addresses, o.dstRegion.addresses, o.dstRegion.addresses, []⟩

/-- DECODE's checksum phase reads the plane set (R203). -/
def Operands.decodeReads (o : Operands) : Accesses := ⟨o.srcRegion.addresses, [], [], []⟩

/-- DECODE's writes after its checksum phase (R203): the plane set if DELTA = 1, then the image. -/
def Operands.decodeWrites (delta : Bool) (o : Operands) : Accesses :=
  ⟨[], (if delta then o.srcRegion.addresses else []) ++ o.dstRegion.addresses, [], []⟩

/-- Every access a command makes or may make, both phases of DECODE together. -/
def accessesOf (i : Instr) (o : Operands) : Accesses :=
  match i with
  | .split | .merge => o.copyAccesses
  | .dfwd | .dinv => o.filterAccesses
  | .csum => o.digestAccesses
  | .encode _ => o.encodeAccesses
  | .decode delta _ => ⟨o.srcRegion.addresses, (o.decodeWrites delta).writes, [], []⟩

/-- The accesses the rule makes that the platform fails (R80). -/
def Accesses.failing (c : Config) (a : Accesses) : List Nat :=
  a.reads.filter c.readFails ++ a.writes.filter c.writeFails

/-- The accesses left open that the platform would fail. -/
def Accesses.mayFail (c : Config) (a : Accesses) : List Nat :=
  a.mayRead.filter c.readFails ++ a.mayWrite.filter c.writeFails

end Machine

end Sys2Proof
end

