-- ==== Sys2Proof/Machine/Flags.lean ====
section
/-! DEFINITION. The STATUS and CTRL words as the host reads them (10_state.md R22, R24), the write-one-to-clear rule
(R31) and the interrupt output (R51). -/

namespace Sys2Proof.Machine

/-- The code of an error in STATUS.ERR_CODE (R220). -/
def ErrCode.code : ErrCode → BitVec 4
  | .noError => 0
  | .illegalCmd => 1
  | .badGeometry => 2
  | .sizeLimit => 3
  | .addrRange => 4
  | .overlap => 5
  | .busError => 6
  | .chkMismatch => 7

/-- STATUS as read (R24): reserved bits 0, ERR_CODE in 11:8, WBUSY, CHK_MISMATCH, ERR, DONE, BUSY in 4:0. -/
def State.statusWord (s : State) : Word :=
  0#20 ++ s.status.errCode.code ++ 0#3 ++ BitVec.ofBool s.status.wbusy ++ BitVec.ofBool s.status.chkMismatch ++
    BitVec.ofBool s.status.err ++ BitVec.ofBool s.status.done ++ BitVec.ofBool s.isBusy

/-- CTRL as read (R22): IRQ_EN in bit 0; SRST and the reserved bits read 0. -/
def State.ctrlWord (s : State) : Word := (BitVec.ofBool s.irqEn).setWidth 32

/-- "A write to STATUS clears each W1C bit (1 to 4) whose written bit is 1 and changes nothing else" (R31). -/
def Status.clear (st : Status) (v : Word) : Status :=
  { st with
    done := st.done && !v.getLsbD 1
    err := st.err && !v.getLsbD 2
    chkMismatch := st.chkMismatch && !v.getLsbD 3
    wbusy := st.wbusy && !v.getLsbD 4 }

/-- The interrupt output: "`irq = CTRL.IRQ_EN AND (STATUS.DONE OR STATUS.ERR)`. It is not a stored bit" (R51). -/
def State.irq (s : State) : Bool := s.irqEn && (s.status.done || s.status.err)

end Sys2Proof.Machine
end

