-- ==== Sys2Proof/Machine/Ops.lean ====
section
/-! DEFINITION. The named operations on the state: memory by byte and by range (20_memory.md R60), free values, how a
command ends (40_command_common.md R130; 60_exceptions.md R221) and how the host acknowledges the end (R236), what a bus
error, a race and a reset leave behind (R229, R230, R70, R262, R263). -/

namespace Sys2Proof.Machine

/-! ### Memory -/

/-- What an address with no entry reads as: `0` (DESIGN CHOICE, log 4). -/
def Memory.unlisted : Byte := 0#8

/-- `MemRead(a, 1)` (R60). -/
def Memory.read : Memory → Nat → Byte
  | [], _ => Memory.unlisted
  | (k, b) :: rest, a => if a = k then b else if a < k then Memory.unlisted else Memory.read rest a

/-- A cell in front of a memory, left out when it holds what an unlisted address reads as. -/
def Memory.cons (a : Nat) (v : Byte) (m : Memory) : Memory := if v = Memory.unlisted then m else (a, v) :: m

/-- `MemWrite(a, 1, v)` (R60), keeping the canonical form. -/
def Memory.write : Memory → Nat → Byte → Memory
  | [], a, v => Memory.cons a v []
  | (k, b) :: rest, a, v =>
    if a < k then Memory.cons a v ((k, b) :: rest)
    else if a = k then Memory.cons a v rest
    else (k, b) :: Memory.write rest a v

/-- The canonical form, above a lower bound: addresses strictly rising from `lo`, no entry equal to the unlisted byte. -/
def Memory.wfFrom : Nat → Memory → Bool
  | _, [] => true
  | lo, (k, b) :: rest => lo ≤ k && b != Memory.unlisted && Memory.wfFrom (k + 1) rest

/-- The canonical form. -/
def Memory.wf (m : Memory) : Bool := Memory.wfFrom 0 m

/-- Every listed address is below the bound. -/
def Memory.below (bound : Nat) (m : Memory) : Bool := m.all fun cell => cell.1 < bound

/-- The `n` bytes from `base` up. -/
def Memory.readRange (m : Memory) (base n : Nat) : List Byte := (List.range n).map fun k => m.read (base + k)

/-- The bytes written from `base` up. -/
def Memory.writeRange : Memory → Nat → List Byte → Memory
  | m, _, [] => m
  | m, base, b :: bs => Memory.writeRange (m.write base b) (base + 1) bs

/-- The bytes of a region (R63). -/
def State.load (s : State) (r : Region) : List Byte := s.mem.readRange r.base r.len

/-- Bytes stored from `base` up. -/
def State.store (s : State) (base : Nat) (bs : List Byte) : State := { s with mem := s.mem.writeRange base bs }

/-! ### Free values -/

/-- The next `n` unspecified bytes. -/
def freeBytes (draws n : Nat) : List Byte := (List.range n).map fun k => Config.freeByte (draws + k)

/-- Every byte of the region becomes unspecified, "each any `u8`" (R230, R263). -/
def State.scrambleRegion (s : State) (r : Region) : State :=
  { s with mem := s.mem.writeRange r.base (freeBytes s.draws r.len), draws := s.draws + r.len }

/-- Every byte of the regions becomes unspecified. -/
def State.scramble (s : State) : List Region → State
  | [] => s
  | r :: rs => (s.scrambleRegion r).scramble rs

/-- Four unspecified words. -/
def freeQuad (draws : Nat) : Quad :=
  ⟨Config.freeWord draws, Config.freeWord (draws + 1), Config.freeWord (draws + 2), Config.freeWord (draws + 3)⟩

/-- The hidden accumulators become unspecified (R53, U16, log 17). -/
def State.drawAcc (s : State) : State := { s with acc := freeQuad s.draws, draws := s.draws + 4 }

/-- CHK_RESULT and CHK_MISMATCH become unspecified (R70), and with them the hidden accumulators. -/
def State.drawDigest (s : State) : State :=
  { s with
    acc := freeQuad s.draws
    chkResult := Config.freeWord (s.draws + 4)
    status := { s.status with chkMismatch := Config.freeBool (s.draws + 5) }
    draws := s.draws + 6 }

/-- One of the candidates, which one unspecified. -/
def pick (n : Nat) : List Nat → Nat
  | [] => 0
  | [a] => a
  | a :: b :: rest => (a :: b :: rest).getD (n % (a :: b :: rest).length) a

/-! ### The end of a command -/

/-- `complete()` (R130): "`eng <- IDLE`, STATUS.BUSY <- 0, STATUS.DONE <- 1". -/
def State.complete (s : State) : State := { s with eng := .idle, status := { s.status with done := true } }

/-- `raise Error(code, info)` (R221, R131, R132): the shared entry of every error. No state is saved and no control
transferred (R235): STATUS and ERR_ADDR are the whole record. -/
def State.raiseError (s : State) (e : ErrCode) (info : Word) : State :=
  { s with eng := .idle, status := { s.status with err := true, errCode := e }, errAddr := info }

/-- The return from that entry: the host acknowledges by a write to STATUS (R236, R31). -/
def State.acknowledge (s : State) (v : Word) : State := { s with status := s.status.clear v }

/-! ### The engine's bus -/

/-- The address reported when an access fails: any of those at which an access of the list does or may fail, which one
unspecified (R229, U13). -/
def State.failedAddress (s : State) (a : Accesses) : Nat :=
  pick (Config.freeNat s.draws) (a.failing s.cfg ++ a.mayFail s.cfg)

/-- The accesses of a phase, made: the address of the failed access that ends the command if there is one (R228), and
the state with the free values used. When only accesses that R66 leaves open would fail, whether they are made is free;
when several failed, which address is reported is free (R229). -/
def State.tryAccesses (s : State) (a : Accesses) : Option Nat × State :=
  if a.failing s.cfg ++ a.mayFail s.cfg = [] then (none, s)
  else if a.failing s.cfg = [] ∧ Config.freeBool s.draws = false then (none, { s with draws := s.draws + 1 })
  else (some (s.failedAddress a), { s with draws := s.draws + 1 })

/-- BUS_ERROR at the address (R228, R229), the listed regions left unspecified (R230, log 12). -/
def State.busError (s : State) (addr : Nat) (written : List Region) : State :=
  (s.scramble written).raiseError .busError (BitVec.ofNat 32 addr)

/-- A checksum phase that did not finish (R230: CHK_RESULT unchanged), unless raced (R70). -/
def State.abandonDigest (s : State) : State := if s.raced then s.drawDigest else s.drawAcc

/-- The regions a raced command leaves unspecified (R70, log 10); nothing for one that is not raced. -/
def State.settle (s : State) (written : List Region) : State := if s.raced then s.scramble written else s

/-- The frame of every body: a region on memory with side effects has no meaning (U11), one outside the address space
does not exist (R60; never after validation, R127; log 15). -/
def State.runCommand (s : State) (i : Instr) (body : State → State) : Host.Outcome State Fault Refusal :=
  if (i.regions s.operands).any s.cfg.touchesSideEffects then .refused .sideEffectMemory
  else if (i.regions s.operands).all (Region.inRange s.cfg) then .next (body s)
  else .fault .outsideAddressSpace

/-- A body that reads the N bytes at SRC and stores a function of them at `base`: SPLIT, MERGE, DFWD, DINV. -/
def State.transfer (s : State) (i : Instr) (base : Nat) (f : List Byte → List Byte) : State :=
  match s.tryAccesses (accessesOf i s.operands) with
  | (some addr, t) => t.busError addr (i.writtenRegions s.operands)
  | (none, t) => ((t.store base (f (s.load s.operands.srcRegion))).settle (i.writtenRegions s.operands)).complete

/-! ### Reset -/

/-- The reset state (R260, R262, R53). A command in progress is abandoned: its written regions become unspecified
(R263). Memory is otherwise unchanged, and the hidden accumulators are unspecified. -/
def State.resetBlock (s : State) : State :=
  let t := (match s.eng with
    | .busy op latched _ => s.scramble (op.writtenRegions latched)
    | .idle => s).drawAcc
  { t with
    irqEn := false
    status := Status.atReset
    cmd := 0
    params := Operands.atReset t.cfg
    chkResult := 0
    errAddr := 0
    eng := .idle }

/-- The reset input takes a level (R260): its assertion puts the block in the reset state, its release changes nothing
else (log 11). -/
def State.setResetPin (s : State) (asserted : Bool) : State :=
  { (if asserted then s.resetBlock else s) with resetHeld := asserted }

end Sys2Proof.Machine
end

