-- ==== Sys2Proof/Machine/Checksum.lean ====
section
/-! DEFINITION. The digest function (41_checksum.md R140 to R146) and CSUM (R147). -/

namespace Sys2Proof.Machine

/-- "M = [31, 37, 41, 43]" (R141). -/
def multipliers : Quad := ⟨31, 37, 41, 43⟩

/-- `zext_32` (R7). -/
def zext32 (b : Byte) : Word := b.setWidth 32

/-- `(A XOR zext_32(b)) *32 M` (R142). -/
def absorb (a m : Word) (b : Byte) : Word := (a ^^^ zext32 b) * m

/-- One 4-byte group updates all four accumulators, A3 included (R142, 90_conflicts.md C1). -/
def absorbGroup (A : Quad) (b0 b1 b2 b3 : Byte) : Quad :=
  ⟨absorb A.q0 multipliers.q0 b0, absorb A.q1 multipliers.q1 b1, absorb A.q2 multipliers.q2 b2,
    absorb A.q3 multipliers.q3 b3⟩

/-- A buffer into the accumulators: whole groups, then a tail of 1 to 3 bytes that updates only A0..A(t-1)
(R142, R143, R145). -/
def accumulate : Quad → List Byte → Quad
  | A, [] => A
  | A, [b0] => { A with q0 := absorb A.q0 multipliers.q0 b0 }
  | A, [b0, b1] => { A with q0 := absorb A.q0 multipliers.q0 b0, q1 := absorb A.q1 multipliers.q1 b1 }
  | A, [b0, b1, b2] =>
    { A with
      q0 := absorb A.q0 multipliers.q0 b0
      q1 := absorb A.q1 multipliers.q1 b1
      q2 := absorb A.q2 multipliers.q2 b2 }
  | A, b0 :: b1 :: b2 :: b3 :: rest => accumulate (absorbGroup A b0 b1 b2 b3) rest

/-- `(A0 XOR (A1 >> 3)) +32 (A2 XOR (A3 << 5))` (R144). -/
def finalMix (A : Quad) : Word := (A.q0 ^^^ (A.q1 >>> 3)) + (A.q2 ^^^ (A.q3 <<< 5))

/-- `digest(b, s)` (R145). -/
def digest (bytes : List Byte) (seeds : Quad) : Word := finalMix (accumulate seeds bytes)

/-- The update of the streaming form: byte `i` enters accumulator `i mod 4` (R146). -/
def absorbAt (A : Quad) (i : Nat) (b : Byte) : Quad :=
  match i % 4 with
  | 0 => { A with q0 := absorb A.q0 multipliers.q0 b }
  | 1 => { A with q1 := absorb A.q1 multipliers.q1 b }
  | 2 => { A with q2 := absorb A.q2 multipliers.q2 b }
  | _ => { A with q3 := absorb A.q3 multipliers.q3 b }

/-- The streaming form from byte index `i` on (R146). -/
def streamFrom : Quad → Nat → List Byte → Quad
  | A, _, [] => A
  | A, i, b :: bs => streamFrom (absorbAt A i b) (i + 1) bs

/-- The digest in its streaming form (R146). -/
def digestStream (bytes : List Byte) (seeds : Quad) : Word := finalMix (streamFrom seeds 0 bytes)

/-- A finished checksum phase (R140, R40): the accumulators start from the seeds and CHK_RESULT takes the digest, both
unspecified if the command was raced (R70). -/
def State.checksumPhase (s : State) (bytes : List Byte) : State :=
  if s.raced then s.drawDigest
  else { s with acc := accumulate s.operands.seeds bytes, chkResult := digest bytes s.operands.seeds }

/-- The body of CSUM (R147). -/
def State.csumBody (s : State) : State :=
  match s.tryAccesses s.operands.digestAccesses with
  | (some addr, t) => t.abandonDigest.busError addr []
  | (none, t) => (t.checksumPhase (s.load s.operands.bufRegion)).complete

/-- CSUM (R147). -/
def execCsum (s : State) : Host.Outcome State Fault Refusal := s.runCommand .csum State.csumBody

end Sys2Proof.Machine
end

