-- ==== Sys2Proof/Machine/Delta.lean ====
section
/-! DEFINITION. The reversible delta filter (43_delta.md R180, R181) and the commands DFWD and DINV (R182, R183). -/

namespace Sys2Proof.Machine

/-- Differences from the previous original sample (R180). -/
def differences : Byte → List Byte → List Byte
  | _, [] => []
  | prev, x :: xs => (x - prev) :: differences x xs

/-- `fwd(x)` on one plane (R180): sample 0 verbatim, then differences of originals. -/
def fwdPlane : List Byte → List Byte
  | [] => []
  | x :: xs => x :: differences x xs

/-- Running sums from the previous restored sample (R181). -/
def runningSums : Byte → List Byte → List Byte
  | _, [] => []
  | prev, y :: ys => (y + prev) :: runningSums (y + prev) ys

/-- `inv(y)` on one plane (R181): sample 0 verbatim, then each added to the restored one before it. -/
def invPlane : List Byte → List Byte
  | [] => []
  | y :: ys => y :: runningSums y ys

/-- A function of one plane on each of the C planes of P bytes of a plane set (R64, R185). -/
def mapPlanes (f : List Byte → List Byte) (P : Nat) : Nat → List Byte → List Byte
  | 0, _ => []
  | c + 1, S => f (S.take P) ++ mapPlanes f P c (S.drop P)

/-- The forward filter of a plane set. -/
def fwdBytes (C P : Nat) (S : List Byte) : List Byte := mapPlanes fwdPlane P C S

/-- The inverse filter of a plane set. -/
def invBytes (C P : Nat) (S : List Byte) : List Byte := mapPlanes invPlane P C S

/-- The body of DFWD (R182): the plane set at SRC is rewritten in place. Storing back each plane's sample 0, which the
filter does not change, changes no byte; whether the engine makes that access is left open (`filterAccesses`). -/
def State.dfwdBody (s : State) : State :=
  s.transfer .dfwd s.operands.src.toNat (fwdBytes s.operands.C s.operands.P)

/-- The body of DINV (R183), in place likewise. -/
def State.dinvBody (s : State) : State :=
  s.transfer .dinv s.operands.src.toNat (invBytes s.operands.C s.operands.P)

/-- DFWD (R182). -/
def execDfwd (s : State) : Host.Outcome State Fault Refusal := s.runCommand .dfwd State.dfwdBody

/-- DINV (R183). -/
def execDinv (s : State) : Host.Outcome State Fault Refusal := s.runCommand .dinv State.dinvBody

end Sys2Proof.Machine
end

