-- ==== Sys2Proof/Machine/Planarizer.lean ====
section
/-! DEFINITION. The split and merge functions (42_planarizer.md R160, R161) and the commands SPLIT and MERGE (R162,
R163). -/

namespace Sys2Proof.Machine

/-- `split(I, C, P)`: position `k = c·P + i` of the plane set holds `I[i·C + c]` (R160). -/
def splitBytes (C P : Nat) (I : List Byte) : List Byte :=
  (List.range (C * P)).map fun k => I.getD (k % P * C + k / P) 0

/-- `merge(S, C, P)`: position `k = i·C + c` of the image holds `S[c·P + i]` (R161). -/
def mergeBytes (C P : Nat) (S : List Byte) : List Byte :=
  (List.range (C * P)).map fun k => S.getD (k % C * P + k / C) 0

/-- The body of SPLIT (R162). -/
def State.splitBody (s : State) : State :=
  s.transfer .split s.operands.dst.toNat (splitBytes s.operands.C s.operands.P)

/-- The body of MERGE (R163). -/
def State.mergeBody (s : State) : State :=
  s.transfer .merge s.operands.dst.toNat (mergeBytes s.operands.C s.operands.P)

/-- SPLIT (R162). -/
def execSplit (s : State) : Host.Outcome State Fault Refusal := s.runCommand .split State.splitBody

/-- MERGE (R163). -/
def execMerge (s : State) : Host.Outcome State Fault Refusal := s.runCommand .merge State.mergeBody

end Sys2Proof.Machine
end

