-- ==== Sys2Proof/Machine/Fused.lean ====
section
/-! DEFINITION. The fused sequences ENCODE (44_fused.md R200) and DECODE (R203). -/

namespace Sys2Proof.Machine

/-- The plane set ENCODE leaves: split, then forward-filtered if DELTA = 1 (R200). -/
def encodedPlanes (delta : Bool) (C P : Nat) (I : List Byte) : List Byte :=
  if delta then fwdBytes C P (splitBytes C P I) else splitBytes C P I

/-- The planes DECODE merges: inverse-filtered if DELTA = 1 (R203). -/
def restoredPlanes (delta : Bool) (C P : Nat) (S : List Byte) : List Byte :=
  if delta then invBytes C P S else S

/-- The body of ENCODE (R200): split, filter, store, digest. -/
def State.encodeBody (delta : Bool) (s : State) : State :=
  let o := s.operands
  let planes := encodedPlanes delta o.C o.P (s.load o.srcRegion)
  match s.tryAccesses o.encodeAccesses with
  | (some addr, t) => t.abandonDigest.busError addr [o.dstRegion]
  | (none, t) => (((t.store o.dst.toNat planes).checksumPhase planes).settle [o.dstRegion]).complete

/-- ENCODE (R200). -/
def execEncode (delta : Bool) (s : State) : Host.Outcome State Fault Refusal :=
  s.runCommand (.encode delta) (State.encodeBody delta)

/-- The comparison of R205 after a checksum phase: "on inequality it sets STATUS.CHK_MISMATCH". In a raced command the
phase has left CHK_MISMATCH unspecified (R70), and the comparison is that bit. -/
def State.mismatch (s : State) : Bool :=
  if s.raced then s.status.chkMismatch else s.chkResult != s.operands.chkExpect

/-- The comparison recorded in STATUS (R205). -/
def State.compareDigest (s : State) : State :=
  { s with status := { s.status with chkMismatch := s.status.chkMismatch || s.mismatch } }

/-- DECODE's writes (R203): the restored planes in place if DELTA = 1, then the merged image. A bus error here comes
after the checksum phase: CHK_RESULT (R230) and CHK_MISMATCH (R28, R205, log 9) stay as it left them. -/
def State.decodeStore (delta : Bool) (planes : List Byte) (s : State) : State :=
  let o := s.operands
  let restored := restoredPlanes delta o.C o.P planes
  let written := (Instr.decode delta false).writtenRegions o
  match s.tryAccesses (o.decodeWrites delta) with
  | (some addr, t) => t.busError addr written
  | (none, t) =>
    (((if delta then t.store o.src.toNat restored else t).store o.dst.toNat (mergeBytes o.C o.P restored)).settle
      written).complete

/-- The body of DECODE (R203): digest and compare, end there on a fatal mismatch (R207), else store. A read that fails ends
it before any write is made (R204, R227), and ERR_ADDR is then any failing address of the command, its writes included
(R229, U13; log 23). -/
def State.decodeBody (delta fatal : Bool) (s : State) : State :=
  let o := s.operands
  let planes := s.load o.srcRegion
  let written := (Instr.decode delta fatal).writtenRegions o
  match s.tryAccesses o.decodeReads with
  | (some _, t) =>
    (t.abandonDigest.settle written).busError (s.failedAddress (accessesOf (.decode delta fatal) o)) []
  | (none, t) =>
    let u := (t.checksumPhase planes).compareDigest
    if fatal && u.mismatch then (u.settle written).raiseError .chkMismatch 0 else u.decodeStore delta planes

/-- DECODE (R203). -/
def execDecode (delta fatal : Bool) (s : State) : Host.Outcome State Fault Refusal :=
  s.runCommand (.decode delta fatal) (State.decodeBody delta fatal)

end Sys2Proof.Machine
end

