-- ==== Sys2Proof/Machine/Dispatch.lean ====
section
/-! DEFINITION. One arm per command: the engine's body of each (40_command_common.md R129). -/

namespace Sys2Proof.Machine

def exec (i : Instr) (s : State) : Host.Outcome State Fault Refusal :=
  match i with
  | .split => Sys2Proof.Machine.execSplit s
  | .merge => Sys2Proof.Machine.execMerge s
  | .dfwd => Sys2Proof.Machine.execDfwd s
  | .dinv => Sys2Proof.Machine.execDinv s
  | .csum => Sys2Proof.Machine.execCsum s
  | .encode delta => Sys2Proof.Machine.execEncode delta s
  | .decode delta fatal => Sys2Proof.Machine.execDecode delta fatal s

end Sys2Proof.Machine
end

