-- ==== Sys2Proof/WellFormed.lean ====
section
/-! DEFINITION. The fields of a command word (30_encoding.md R92) and which combinations of them are legal (R96).
`CmdFields.wf` is the check; a command `Instr` is well formed when its fields pass it. -/

namespace Sys2Proof

/-- The four fields of the CMD format (R92), as they stand in a word, legal or not. -/
structure CmdFields where
  /-- bits 31:6 -/
  reserved : BitVec 26
  /-- bit 5 -/
  fatal : Bool
  /-- bit 4 -/
  delta : Bool
  /-- bits 3:0 -/
  op : BitVec 4
deriving DecidableEq, Repr

/-- "any of bits [31:6] is 1" makes a word illegal (R96). -/
def CmdFields.reservedClear (f : CmdFields) : Bool := f.reserved == 0#26

/-- "OP is 0x0 or 0x8 to 0xF" makes a word illegal (R96). -/
def CmdFields.opDefined (f : CmdFields) : Bool := 1 ≤ f.op.toNat && f.op.toNat ≤ 7

/-- "DELTA = 1 and OP ∉ {0x6, 0x7}" makes a word illegal (R96). -/
def CmdFields.deltaAllowed (f : CmdFields) : Bool := !f.delta || f.op == 6#4 || f.op == 7#4

/-- "FATAL = 1 and OP ≠ 0x7" makes a word illegal (R96). -/
def CmdFields.fatalAllowed (f : CmdFields) : Bool := !f.fatal || f.op == 7#4

/-- No condition of R96 holds. -/
def CmdFields.wf (f : CmdFields) : Bool :=
  f.reservedClear && f.opDefined && f.deltaAllowed && f.fatalAllowed

/-- The fields a command is encoded with (R92, R93). -/
def Instr.fields : Instr → CmdFields
  | .split => ⟨0, false, false, 1⟩
  | .merge => ⟨0, false, false, 2⟩
  | .dfwd => ⟨0, false, false, 3⟩
  | .dinv => ⟨0, false, false, 4⟩
  | .csum => ⟨0, false, false, 5⟩
  | .encode delta => ⟨0, false, delta, 6⟩
  | .decode delta fatal => ⟨0, fatal, delta, 7⟩

/-- A command is well formed when its fields are legal. The constructors of `Instr` admit no illegal combination, so
this holds of every command (`Laws.instr_wf`); illegal words are ill-formed `CmdFields`. -/
def Instr.wf (i : Instr) : Bool := i.fields.wf

end Sys2Proof
end

