-- ==== Sys2Proof/Decode.lean ====
section
/-! DEFINITION. Decoding of command words (30_encoding.md R98), total and rejecting by name, and the encoder after it
(R92, R93). A command word is a 32-bit register value written to CMD (R90), so the decoder reads a word. -/

namespace Sys2Proof

/-- Why a word is no command, in the order R98 checks. Each is the error ILLEGAL_CMD to the machine (R222). -/
inductive DecodeReject where
  | reservedBits
  | reservedOp
  | deltaNotAllowed
  | fatalNotAllowed
deriving DecidableEq, Repr

/-- Bits `lo + n - 1 .. lo` of a word (R7). -/
def bitField (w : Word) (lo n : Nat) : BitVec n := w.extractLsb' lo n

/-- The fields of a word (R92). -/
def fieldsOf (w : Word) : CmdFields :=
  ⟨bitField w 6 26, w.getLsbD 5, w.getLsbD 4, bitField w 0 4⟩

/-- R98, with the rejecting condition named. -/
def decodeFields (f : CmdFields) : Except DecodeReject Instr :=
  if f.reserved ≠ 0#26 then .error .reservedBits
  else
    match f.op.toNat with
    | 1 => if f.delta then .error .deltaNotAllowed else if f.fatal then .error .fatalNotAllowed else .ok .split
    | 2 => if f.delta then .error .deltaNotAllowed else if f.fatal then .error .fatalNotAllowed else .ok .merge
    | 3 => if f.delta then .error .deltaNotAllowed else if f.fatal then .error .fatalNotAllowed else .ok .dfwd
    | 4 => if f.delta then .error .deltaNotAllowed else if f.fatal then .error .fatalNotAllowed else .ok .dinv
    | 5 => if f.delta then .error .deltaNotAllowed else if f.fatal then .error .fatalNotAllowed else .ok .csum
    | 6 => if f.fatal then .error .fatalNotAllowed else .ok (.encode f.delta)
    | 7 => .ok (.decode f.delta f.fatal)
    | _ => .error .reservedOp

/-- The command of a word, or the reason it has none. -/
def decodeOrReject (w : Word) : Except DecodeReject Instr := decodeFields (fieldsOf w)

/-- `decode(cmd)` of R98: "`none` means ILLEGAL_CMD". -/
def decode (w : Word) : Option Instr :=
  match decodeOrReject w with
  | .ok i => some i
  | .error _ => none

/-- The decoder on an instruction given as the opcode table numbers its bits: one 32-bit word (R91). A number with a bit
set at or above 32 is no command word. -/
def decodeTableWord (_nbits w : Nat) : Option Instr :=
  if w < 2 ^ 32 then decode (BitVec.ofNat 32 w) else none

/-- A word with the given fields (R92). -/
def packFields (f : CmdFields) : Word :=
  f.reserved ++ BitVec.ofBool f.fatal ++ BitVec.ofBool f.delta ++ f.op

/-- The command word of a command (R92, R93). -/
def encode (i : Instr) : Word := packFields i.fields

end Sys2Proof
end

