-- ==== Sys2Proof/Machine/Issue.lean ====
section
/-! DEFINITION. Command issue and validation (40_command_common.md R120 to R128, R132). -/

namespace Sys2Proof.Machine

/-- "the geometry is legal when `W ≥ 1` and `H ≥ 1` and `1 ≤ C ≤ MAX_CHANNELS`" (R125). -/
def geometryLegal (c : Config) (o : Operands) : Bool :=
  1 ≤ o.width.toNat && 1 ≤ o.height.toNat && 1 ≤ o.C && o.C ≤ c.maxChannels

/-- "N = C·W·H, computed exactly, must satisfy `N ≤ MAX_TOTAL_BYTES`" (R126). -/
def sizeLegal (c : Config) (o : Operands) : Bool := o.N ≤ c.maxTotalBytes

/-- "legal only when the two are disjoint: `SRC + N ≤ DST` or `DST + N ≤ SRC`" (R128). -/
def regionsDisjoint (o : Operands) : Bool :=
  o.src.toNat + o.N ≤ o.dst.toNat || o.dst.toNat + o.N ≤ o.src.toNat

/-- Checks 2 to 5 of R123, in that order: the first that fails, or none. -/
def checkCommand (c : Config) (o : Operands) (i : Instr) : Option ErrCode :=
  if i.isGeometry && !geometryLegal c o then some .badGeometry
  else if i.isGeometry && !sizeLegal c o then some .sizeLimit
  else if !(i.regions o).all (Region.inRange c) then some .addrRange
  else if i.hasDestination && !regionsDisjoint o then some .overlap
  else none

/-- R123: decode first (ILLEGAL_CMD), then the checks of the command. -/
def validate (c : Config) (o : Operands) (w : Word) : Except ErrCode Instr :=
  match decode w with
  | none => .error .illegalCmd
  | some i =>
    match checkCommand c o i with
    | some e => .error e
    | none => .ok i

/-- What every issue does before validation (R121, R122): the readback is set, and DONE, ERR, CHK_MISMATCH, ERR_CODE and
ERR_ADDR are cleared. -/
def State.beginIssue (s : State) (w : Word) : State :=
  { s with
    cmd := w
    status := { s.status with done := false, err := false, chkMismatch := false, errCode := .noError }
    errAddr := 0 }

/-- Acceptance (R124): BUSY, with the operands latched (R48). No memory is accessed. -/
def State.accept (s : State) (i : Instr) : State := { s with eng := .busy i s.params false }

/-- A command issue (R120 to R124; a failed check is R132). -/
def State.issue (s : State) (w : Word) : State :=
  match validate s.cfg s.params w with
  | .error e => (s.beginIssue w).raiseError e 0
  | .ok i => (s.beginIssue w).accept i

end Sys2Proof.Machine
end

