-- ==== Sys2Proof/Machine/HostPort.lean ====
section
/-! DEFINITION. The host's side: the register map (10_state.md section 2), reads and writes of it (R54, R55, R68), the
host's accesses to the shared memory (20_memory.md R60, R70), and the notation of host scripts (30_encoding.md R100,
R101). -/

namespace Sys2Proof.Machine

/-- The offset of a register in the window (10_state.md section 2). -/
def Reg.offset : Reg → BitVec 8
  | .id => 0x00 | .ctrl => 0x04 | .status => 0x08 | .cmd => 0x0C | .src => 0x10 | .dst => 0x14
  | .width => 0x18 | .height => 0x1C | .channels => 0x20 | .length => 0x24 | .chkExpect => 0x28
  | .chkResult => 0x2C | .chkSeed0 => 0x30 | .chkSeed1 => 0x34 | .chkSeed2 => 0x38 | .chkSeed3 => 0x3C
  | .errAddr => 0x40 | .maxch => 0x44 | .maxtotal => 0x48

/-- The register at a word-aligned offset; none at a reserved one (R45). -/
def Reg.ofOffset (off : BitVec 8) : Option Reg :=
  [Reg.id, .ctrl, .status, .cmd, .src, .dst, .width, .height, .channels, .length, .chkExpect, .chkResult, .chkSeed0,
    .chkSeed1, .chkSeed2, .chkSeed3, .errAddr, .maxch, .maxtotal].find? fun r => r.offset == off

/-- ID_VALUE (R21). -/
def idValue : Word := 0x505A5001

/-- The value a word read of a register returns; a read has no side effect (R54). -/
def State.readReg (s : State) : Reg → Word
  | .id => idValue
  | .ctrl => s.ctrlWord
  | .status => s.statusWord
  | .cmd => s.cmd
  | .src => s.params.src
  | .dst => s.params.dst
  | .width => s.params.width
  | .height => s.params.height
  | .channels => s.params.channels
  | .length => s.params.length
  | .chkExpect => s.params.chkExpect
  | .chkResult => s.chkResult
  | .chkSeed0 => s.params.seeds.q0
  | .chkSeed1 => s.params.seeds.q1
  | .chkSeed2 => s.params.seeds.q2
  | .chkSeed3 => s.params.seeds.q3
  | .errAddr => s.errAddr
  | .maxch => BitVec.ofNat 32 s.cfg.maxChannels
  | .maxtotal => BitVec.ofNat 32 s.cfg.maxTotalBytes

/-- A write dropped because BUSY = 1 (R55, R29). -/
def State.dropWrite (s : State) : State := { s with status := { s.status with wbusy := true } }

/-- A write to a parameter register (R55): taken in full while IDLE, dropped while BUSY. -/
def State.writeParam (s : State) (p : Operands) : State := if s.isBusy then s.dropWrite else { s with params := p }

/-- A write to CTRL (R22): SRST performs the soft reset, and "the reset wins"; otherwise bit 0 is IRQ_EN. -/
def State.writeCtrl (s : State) (v : Word) : State :=
  if v.getLsbD 1 then s.resetBlock else { s with irqEn := v.getLsbD 0 }

/-- A word write to a register (R55, R31, R32). Read-only registers ignore it. -/
def State.writeReg (s : State) (r : Reg) (v : Word) : State :=
  match r with
  | .ctrl => s.writeCtrl v
  | .status => s.acknowledge v
  | .cmd => if s.isBusy then s.dropWrite else s.issue v
  | .src => s.writeParam { s.params with src := v }
  | .dst => s.writeParam { s.params with dst := v }
  | .width => s.writeParam { s.params with width := v }
  | .height => s.writeParam { s.params with height := v }
  | .channels => s.writeParam { s.params with channels := v }
  | .length => s.writeParam { s.params with length := v }
  | .chkExpect => s.writeParam { s.params with chkExpect := v }
  | .chkSeed0 => s.writeParam { s.params with seeds := { s.params.seeds with q0 := v } }
  | .chkSeed1 => s.writeParam { s.params with seeds := { s.params.seeds with q1 := v } }
  | .chkSeed2 => s.writeParam { s.params with seeds := { s.params.seeds with q2 := v } }
  | .chkSeed3 => s.writeParam { s.params with seeds := { s.params.seeds with q3 := v } }
  | .id | .chkResult | .errAddr | .maxch | .maxtotal => s

/-- A register write as the block takes it: while the reset input is held the block stays in its reset state (R260), so
only the soft reset, which puts it there again (R262), is performed (log 11). -/
def State.takeWrite (s : State) (r : Reg) (v : Word) : State :=
  if s.resetHeld && !(r == .ctrl && v.getLsbD 1) then s else s.writeReg r v

/-- "32-bit accesses at an offset that is a multiple of 4" (R68). -/
def windowAccessLegal (size : AccessSize) (off : BitVec 8) : Bool := size == .word && off.toNat % 4 == 0

/-- The bus answers the host. -/
def State.respond (s : State) (r : Response) : State := { s with resp := r }

/-- A host read of the window (R90, R68); a reserved offset reads 0 (R45). -/
def State.hostRegRead (s : State) (size : AccessSize) (off : BitVec 8) : State :=
  if windowAccessLegal size off then
    match Reg.ofOffset off with
    | some r => s.respond (.word (s.readReg r))
    | none => s.respond (.word 0)
  else s.respond .accessError

/-- A host write to the window (R90, R68); a reserved offset ignores it (R45). -/
def State.hostRegWrite (s : State) (size : AccessSize) (off : BitVec 8) (v : Word) : State :=
  if windowAccessLegal size off then
    match Reg.ofOffset off with
    | some r => (s.takeWrite r v).respond .ok
    | none => s.respond .ok
  else s.respond .accessError

/-- The address lies in a region of the running command. -/
def State.inRunningRegion (s : State) (a : Nat) : Bool :=
  match s.eng with
  | .busy op latched _ => Region.anyContains (op.regions latched) a
  | .idle => false

/-- The running command has been raced (R70, log 10). -/
def State.markRaced (s : State) : State :=
  match s.eng with
  | .busy op latched _ => { s with eng := .busy op latched true }
  | .idle => s

/-- A host read of memory: "a host read of a byte in any of that command's regions returns an unspecified value" (R70). -/
def State.hostRead (s : State) (a : Nat) : State :=
  if s.inRunningRegion a then { s with resp := .byte (Config.freeByte s.draws), draws := s.draws + 1 }
  else s.respond (.byte (s.mem.read a))

/-- A host write to memory; in a region of the running command it is a race (R70). -/
def State.hostWrite (s : State) (a : Nat) (v : Byte) : State :=
  let t := { s with mem := s.mem.write a v, resp := .ok }
  if s.inRunningRegion a then t.markRaced else t

/-- A host access is to ordinary memory in the address space, or stops by name (R60, U11, log 15). The host's addresses
are taken to be the engine's own byte addresses: R60 leaves how they map to the platform (DESIGN CHOICE, log 22). -/
def State.hostMemory (s : State) (a : Nat) (t : State) : Host.Outcome State Fault Refusal :=
  if s.cfg.touchesSideEffects ⟨a, 1⟩ then .refused .sideEffectMemory
  else if a < 2 ^ s.cfg.addrW then .next t
  else .fault .outsideAddressSpace

/-- The host's wait: satisfied, or tried again after the engine has had a step (R100, R273). -/
def State.waitUntil (s : State) (satisfied : Bool) (again : Input) : State :=
  if satisfied then s else { s with inputs := .engine :: again :: s.inputs }

/-- `POLL` (R100). -/
def State.hostPoll (s : State) (r : Reg) (mask value : Word) : State :=
  (s.respond (.word (s.readReg r))).waitUntil (s.readReg r &&& mask == value) (.poll r mask value)

/-! ### Host scripts (R100, R101) -/

/-- `WR <reg>, <value>`. -/
def wr (r : Reg) (v : Word) : Input := .regWrite .word r.offset v

/-- `RD <reg>`. -/
def rd (r : Reg) : Input := .regRead .word r.offset

/-- `CMD <MNEMONIC>[.D][.F]`. -/
def cmdOf (i : Instr) : Input := wr .cmd (encode i)

/-- `WAIT` = `POLL STATUS, 0x1, 0x0`. -/
def wait : Input := .poll .status 1 0

/-- `RUN` = `CMD` then `WAIT`. -/
def run (i : Instr) : List Input := [cmdOf i, wait]

/-- `ACK` = `WR STATUS, 0x1E`. -/
def ack : Input := wr .status 0x1E

/-- `SEEDS a, b, c, d`. -/
def seeds (a b c d : Word) : List Input := [wr .chkSeed0 a, wr .chkSeed1 b, wr .chkSeed2 c, wr .chkSeed3 d]

/-- `GEOM w, h, c`. -/
def geom (w h c : Word) : List Input := [wr .width w, wr .height h, wr .channels c]

/-- `SRST` = `WR CTRL, 0x2`. -/
def srst : Input := wr .ctrl 2

end Sys2Proof.Machine
end

