-- ==== Sys2Proof/Machine/Step.lean ====
section
/-! DEFINITION. One step of the system: the next event of the host or of the engine (10_state.md R20, R47). -/

namespace Sys2Proof.Machine

/-- The engine's turn: the whole body of the running command in one atomic step (R129); nothing while IDLE. -/
def engineTurn (s : State) : Host.Outcome State Fault Refusal :=
  match s.eng with
  | .busy op _ _ => exec op s
  | .idle => .next s

/-- One event, already taken off the inputs. -/
def handle (e : Input) (s : State) : Host.Outcome State Fault Refusal :=
  match e with
  | .engine => engineTurn s
  | .resetPin asserted => .next (s.setResetPin asserted)
  | .regRead size off => .next (s.hostRegRead size off)
  | .regWrite size off v => .next (s.hostRegWrite size off v)
  | .memRead a => s.hostMemory a (s.hostRead a)
  | .memWrite a v => s.hostMemory a (s.hostWrite a v)
  | .poll r mask value => .next (s.hostPoll r mask value)
  | .waitIrq => .next (s.waitUntil s.irq .waitIrq)

/-- One step: the first pending event, or the engine's turn when none is pending (R273: the engine takes its step
eventually). -/
def step (s : State) : Host.Outcome State Fault Refusal :=
  match s.inputs with
  | [] => engineTurn s
  | e :: rest => handle e { s with inputs := rest }

/-- The state with a command word where the next step runs it: accepted by the engine (R124) with the registers as they
stand, the reset input released, and the engine's turn next. A word that is no command can only be issued, and the next
step does that (R222).
Validation is not repeated here: `issue` is the host's way in (log 1). -/
def State.withFetchWord (s : State) (nbits w : Nat) : State :=
  match decodeTableWord nbits w with
  | some i =>
    { (s.beginIssue (BitVec.ofNat 32 w)).accept i with
      resetHeld := false
      inputs := match s.inputs with
        | [] => []
        | e :: rest => .engine :: e :: rest }
  | none => { s with eng := .idle, resetHeld := false, inputs := wr .cmd (BitVec.ofNat 32 w) :: s.inputs }

end Sys2Proof.Machine
end

