-- ==== Sys2Proof/Safety.lean ====
section
/-! DEFINITION. What claims speak of: when a command runs to its own end (`State.Ready`), which bytes it may change
(`State.mayChange`), when bytes are unspecified (`State.FreshBytes`), the reset state (`State.AtReset`), and the invariant
of the machine (`State.Inv`). -/

namespace Sys2Proof.Machine

/-- Every region of the command is ordinary memory (20_memory.md R69). -/
def State.Ordinary (i : Instr) (s : State) : Prop :=
  ∀ r ∈ i.regions s.operands, s.cfg.touchesSideEffects r = false

/-- The command passes checks 2 to 5 of R123 with the operands in force. -/
def State.Valid (i : Instr) (s : State) : Prop := checkCommand s.cfg s.operands i = none

/-- No engine access that the command makes, or that R66 lets it make, fails (20_memory.md R80). -/
def State.NoAccessFails (i : Instr) (s : State) : Prop :=
  (accessesOf i s.operands).failing s.cfg = [] ∧ (accessesOf i s.operands).mayFail s.cfg = []

/-- The conditions under which a command runs with nothing left unspecified: accepted (R123), on ordinary memory (R69),
not raced (R70), no access failing (R80). -/
structure State.Ready (i : Instr) (s : State) : Prop where
  valid : s.Valid i
  ordinary : s.Ordinary i
  notRaced : s.raced = false
  noFail : s.NoAccessFails i

/-- The address lies in a destination or in-place region of the command (60_exceptions.md R230). -/
def State.mayChange (i : Instr) (s : State) (a : Nat) : Bool := Region.anyContains (i.writtenRegions s.operands) a

/-- From `s` to `t` every byte of the regions has become a free value of its own: drawn on the way, and not the draw of
another byte of them ("each any `u8`", 60_exceptions.md R230; U9, U15). -/
def State.FreshBytes (s t : State) (regions : List Region) : Prop :=
  ∃ draw : Nat → Nat, ∀ a, Region.anyContains regions a = true →
    s.draws ≤ draw a ∧ draw a < t.draws ∧ t.mem.read a = Config.freeByte (draw a) ∧
      ∀ b, Region.anyContains regions b = true → draw b = draw a → b = a

/-- From `s` to `t` the end report is that of a completion (40_command_common.md R130). -/
def State.ReportsDone (s t : State) : Prop :=
  t.status.done = true ∧ t.status.err = s.status.err ∧ t.status.errCode = s.status.errCode ∧ t.errAddr = s.errAddr

/-- From `s` to `t` the end report is that of an error with this code and address (60_exceptions.md R221). -/
def State.ReportsError (s t : State) (e : ErrCode) (addr : Nat) : Prop :=
  t.status.done = s.status.done ∧ t.status.err = true ∧ t.status.errCode = e ∧ t.errAddr.toNat = addr

/-- The reset value of a register (10_state.md section 2). -/
def Reg.resetValue (c : Config) : Reg → Word
  | .id => 0x505A5001
  | .chkSeed0 => c.seedReset.q0
  | .chkSeed1 => c.seedReset.q1
  | .chkSeed2 => c.seedReset.q2
  | .chkSeed3 => c.seedReset.q3
  | .maxch => BitVec.ofNat 32 c.maxChannels
  | .maxtotal => BitVec.ofNat 32 c.maxTotalBytes
  | .ctrl | .status | .cmd | .src | .dst | .width | .height | .channels | .length | .chkExpect | .chkResult
  | .errAddr => 0

/-- The reset state of the block (70_reset_and_hazards.md R260, 10_state.md R53): "every register holds the reset value
..., the engine is IDLE and the interrupt output is low". -/
structure State.AtReset (s : State) : Prop where
  registers : ∀ r : Reg, s.readReg r = r.resetValue s.cfg
  idle : s.eng = .idle
  irqLow : s.irq = false

/-- The end report of the running command is clear (R122, R130). -/
structure State.ReportClear (s : State) : Prop where
  done : s.status.done = false
  err : s.status.err = false
  chkMismatch : s.status.chkMismatch = false
  errCode : s.status.errCode = .noError
  errAddr : s.errAddr = 0

/-- The running command is the one the CMD readback holds (R32), passed validation (R124), and its latched operands are
the visible registers (R48). -/
structure State.RunningAsIssued (s : State) (i : Instr) (latched : Operands) : Prop where
  readback : decode s.cmd = some i
  latch : latched = s.params
  valid : checkCommand s.cfg latched i = none

/-- The invariant of the machine. -/
structure State.Inv (s : State) : Prop where
  /-- The parameters are in the ranges of R6. -/
  cfg : s.cfg.legal = true
  /-- The memory is in canonical form. -/
  memWf : s.mem.wf = true
  /-- Memory holds only addresses of the address space (R60). -/
  memInSpace : s.mem.below (2 ^ s.cfg.addrW) = true
  /-- R48, R124. -/
  running : ∀ i o r, s.eng = .busy i o r → s.RunningAsIssued i o
  /-- R122: nothing is reported while a command runs. -/
  quiet : s.isBusy = true → s.ReportClear
  /-- "DONE and ERR are never both set by one command" (R27). -/
  oneEnd : s.status.done = true → s.status.err = false
  /-- ERR comes with a code (R30). -/
  errHasCode : s.status.err = true → s.status.errCode ≠ .noError
  /-- ERR_ADDR is 0 but after a BUS_ERROR (R42). -/
  errAddrMeans : s.errAddr ≠ 0 → s.status.errCode = .busError
  /-- ERR_ADDR is an address of the address space (R229). -/
  errAddrInSpace : s.errAddr.toNat < 2 ^ s.cfg.addrW
  /-- While the reset input is held the block is in its reset state (R260). -/
  held : s.resetHeld = true → s.AtReset

/-- The registers whose writes are dropped while BUSY (R55). -/
def Reg.lockedWhileBusy : List Reg :=
  [.cmd, .src, .dst, .width, .height, .channels, .length, .chkExpect, .chkSeed0, .chkSeed1, .chkSeed2, .chkSeed3]

/-- The read-only registers (10_state.md section 2). -/
def Reg.readOnly : List Reg := [.id, .chkResult, .errAddr, .maxch, .maxtotal]

/-- The event the next step handles. -/
def State.nextEvent (s : State) : Input :=
  match s.inputs with
  | [] => .engine
  | e :: _ => e

/-- The event is a host access to memory. -/
def Input.isMemoryAccess : Input → Bool
  | .memRead _ => true
  | .memWrite _ _ => true
  | .engine | .resetPin _ | .regRead _ _ | .regWrite _ _ _ | .poll _ _ _ | .waitIrq => false

/-- The event is a word write of `v` to register `r` of the window. -/
def Input.writes (e : Input) (r : Reg) (v : Word) : Prop := e = .regWrite .word r.offset v

/-- The event resets the block: the reset input asserted, or a CTRL write with SRST set (R260, R262). -/
def Input.resets (e : Input) : Prop := e = .resetPin true ∨ ∃ v, e.writes .ctrl v ∧ v.getLsbD 1 = true

end Sys2Proof.Machine
end

