-- ==== Sys2Proof/Certificates/Slice0/Obligations.lean ====
section
/-! DEFINITION. The statements about the machine, each from the spec's numbered rules. A statement about a command's own
end assumes `State.Ready` and the canonical form of memory (kept by every step: `EveryStepKeepsInvariant`); other
statements say where a command stops, traps or is raced. A statement about a register write taken by the block assumes
the reset input released; `ResetInputHoldsTheResetState` says what is so while it is held. -/

open Sys2Proof Sys2Proof.Machine

/-! ### Encoding -/

/-- R98: the decoder is this table: "The legal words are exactly ... (eleven words)", each with its command. -/
def Obligations.LegalWordsAreExactlyEleven : Prop :=
  ∀ (w : Word) (i : Instr), decode w = some i ↔
    (w, i) ∈ ([(0x1, .split), (0x2, .merge), (0x3, .dfwd), (0x4, .dinv), (0x5, .csum), (0x6, .encode false),
      (0x16, .encode true), (0x7, .decode false false), (0x17, .decode true false), (0x27, .decode false true),
      (0x37, .decode true true)] : List (Word × Instr))

/-- R96, R222: which words are illegal, in terms of the word's number, and what an issue of one does. -/
def Obligations.IllegalWordsEndInIllegalCmd : Prop :=
  (∀ w : Word, decode w = none ↔
    (w.toNat % 16 = 0 ∨ 8 ≤ w.toNat % 16) ∨ w.toNat / 64 ≠ 0 ∨
      (w.getLsbD 4 = true ∧ w.toNat % 16 ≠ 6 ∧ w.toNat % 16 ≠ 7) ∨ (w.getLsbD 5 = true ∧ w.toNat % 16 ≠ 7)) ∧
  ∀ (s : State) (w : Word) (rest : List Input), s.resetHeld = false → s.eng = .idle →
    s.inputs = wr .cmd w :: rest → decode w = none → ∃ a, step s = .next { s with
      inputs := rest
      resp := a
      cmd := w
      errAddr := 0
      status := { s.status with done := false, err := true, chkMismatch := false, errCode := .illegalCmd } }

/-- Decoding and encoding agree in both directions: no bit of a word is dropped. -/
def Obligations.DecodeInvertsEncode : Prop :=
  ∀ (w : Word) (i : Instr), decode w = some i ↔ encode i = w

/-- R93, T-EN-01: words written out from the table. -/
def Obligations.WrittenOutWordsDecode : Prop :=
  decode 0x00000001#32 = some .split ∧ decode 0x00000002#32 = some .merge ∧ decode 0x00000003#32 = some .dfwd ∧
  decode 0x00000004#32 = some .dinv ∧ decode 0x00000005#32 = some .csum ∧
  decode 0x00000016#32 = some (.encode true) ∧ decode 0x00000027#32 = some (.decode false true)

/-! ### The step -/

/-- A step runs the command the engine holds, with nothing around it: a placed word (`withFetchWord`), and an accepted
command at the engine's turn (R129). -/
def Obligations.StepRunsTheDecodedCommand : Prop :=
  (∀ (s : State) (nbits w : Nat) (i : Instr), w < 2 ^ 32 → decode (BitVec.ofNat 32 w) = some i →
    step (s.withFetchWord nbits w) =
      exec i { (s.beginIssue (BitVec.ofNat 32 w)).accept i with resetHeld := false, inputs := s.inputs }) ∧
  ∀ (s : State) (i : Instr) (o : Operands) (raced : Bool), s.eng = .busy i o raced →
    (s.inputs = [] → step s = exec i s) ∧
    ∀ rest, s.inputs = .engine :: rest → step s = exec i { s with inputs := rest }

/-- R90, R124, R129: a CMD write of a word that decodes and passes validation, then the engine's turn, is `exec` of the
decoded command on the accepted state. -/
def Obligations.IssuedCommandRunsOnEngineTurn : Prop :=
  ∀ (s : State) (w : Word) (i : Instr) (rest : List Input), s.resetHeld = false → s.eng = .idle →
    s.inputs = wr .cmd w :: .engine :: rest → decode w = some i → checkCommand s.cfg s.params i = none →
    ∃ a, Host.Core.run core 2 s = exec i { (s.beginIssue w).accept i with inputs := rest, resp := a }

/-- R101, R129: `RUN` of a command that passes validation on ordinary memory ends, with exactly one of DONE and ERR set and
the poll's answer showing BUSY = 0. That it takes four steps is the model's choice, not R273's: a whole body in one
engine turn, and an unsatisfied `WAIT` that gives the engine a turn first (log 13, log 19). -/
def Obligations.RunPseudoOperationEnds : Prop :=
  ∀ (s : State) (i : Instr) (rest : List Input), s.Inv → s.resetHeld = false → s.eng = .idle →
    s.inputs = run i ++ rest → s.Valid i → s.Ordinary i →
    ∃ t, Host.Core.run core 4 s = .next t ∧ t.inputs = rest ∧ t.eng = .idle ∧ t.status.err = !t.status.done ∧
      t.resp = .word t.statusWord

/-! ### Reset -/

/-- T-RG-01: the reset state's registers. The parameter values it carries are R6's defaults; the seeds are parameters. -/
def Obligations.ResetStateRegisters : Prop :=
  (∀ r : Reg, State.reset.readReg r = r.resetValue State.reset.cfg) ∧ State.reset.eng = .idle ∧
  State.reset.irq = false ∧ State.reset.readReg .maxch = 255 ∧ State.reset.readReg .maxtotal = 0x05F5E0D8

/-- R262: a soft reset, IDLE or BUSY, gives every register its reset value, exactly as a hardware reset does. -/
def Obligations.SoftAndHardwareResetAgree : Prop :=
  ∀ (s : State) (e : Input) (rest : List Input), e.resets → s.inputs = e :: rest →
    ∃ t, step s = .next t ∧ (∀ r : Reg, t.readReg r = r.resetValue s.cfg) ∧ t.eng = .idle ∧ t.irq = false ∧
      t.cfg = s.cfg ∧ t.inputs = rest

/-- R263: a reset changes no memory while IDLE; while BUSY each byte of the written regions becomes a free value of its own,
drawn in this step, and every other byte is unchanged; CHK_RESULT is 0 and there is no end report. -/
def Obligations.ResetAbandonsTheCommand : Prop :=
  ∀ (s : State) (e : Input) (rest : List Input), s.mem.wf = true → e.resets → s.inputs = e :: rest →
    ∃ t, step s = .next t ∧ t.chkResult = 0 ∧ t.status.done = false ∧ t.status.err = false ∧
      (s.eng = .idle → t.mem = s.mem) ∧
      ∀ op o raced, s.eng = .busy op o raced → s.FreshBytes t (op.writtenRegions o) ∧
        ∀ a, Region.anyContains (op.writtenRegions o) a = false → t.mem.read a = s.mem.read a

/-! ### Registers -/

/-- R54: a register read changes nothing but what the host sees. -/
def Obligations.RegisterReadsHaveNoSideEffect : Prop :=
  ∀ (s : State) (size : AccessSize) (off : BitVec 8) (rest : List Input), s.inputs = .regRead size off :: rest →
    ∃ answer, step s = .next { s with inputs := rest, resp := answer } ∧
      ∀ r : Reg, size = .word → off = r.offset → answer = .word (s.readReg r)

/-- R55: what a register write does, by the engine's state; a write to a reserved offset does nothing. The bus answer to
the write is left open. -/
def Obligations.RegisterWritesByEngineState : Prop :=
  (∀ (s : State) (off : BitVec 8) (v : Word) (rest : List Input), 0x4C ≤ off.toNat → off.toNat % 4 = 0 →
    s.inputs = .regWrite .word off v :: rest → ∃ a, step s = .next { s with inputs := rest, resp := a }) ∧
  ∀ (s : State) (r : Reg) (v : Word) (rest : List Input), s.inputs = wr r v :: rest →
    (r ∈ Reg.readOnly → ∃ a, step s = .next { s with inputs := rest, resp := a }) ∧
    (r = .ctrl → v.getLsbD 1 = true → ∃ t, step s = .next t ∧ t.AtReset) ∧
    (s.resetHeld = false →
      (s.isBusy = true → r ∈ Reg.lockedWhileBusy → ∃ a,
        step s = .next { s with inputs := rest, resp := a, status := { s.status with wbusy := true } }) ∧
      (r = .ctrl → v.getLsbD 1 = false → ∃ a,
        step s = .next { s with inputs := rest, resp := a, irqEn := v.getLsbD 0 }) ∧
      (r = .status → ∃ a st, step s = .next { s with inputs := rest, resp := a, status := st } ∧
        st.errCode = s.status.errCode ∧ st.done = (s.status.done && !v.getLsbD 1) ∧
        st.err = (s.status.err && !v.getLsbD 2)) ∧
      (s.isBusy = false → r ∈ Reg.lockedWhileBusy → r ≠ .cmd →
        ∃ a p, step s = .next { s with inputs := rest, resp := a, params := p } ∧
          State.readReg { s with params := p } r = v ∧
          ∀ q : Reg, q ≠ r → State.readReg { s with params := p } q = s.readReg q))

/-- R45: reserved offsets read 0 and ignore writes, IDLE or BUSY, without WBUSY; reserved bits of CTRL and STATUS read 0
and ignore writes. The bus answer to an ignored write is left open. -/
def Obligations.ReservedOffsetsAndBits : Prop :=
  (∀ (s : State) (off : BitVec 8) (rest : List Input), 0x4C ≤ off.toNat → off.toNat % 4 = 0 →
    (s.inputs = .regRead .word off :: rest → step s = .next { s with inputs := rest, resp := .word 0 }) ∧
    ∀ v, s.inputs = .regWrite .word off v :: rest → ∃ a, step s = .next { s with inputs := rest, resp := a }) ∧
  (∀ (s : State) (k : Nat), ((5 ≤ k ∧ k ≤ 7) ∨ 12 ≤ k → (s.readReg .status).getLsbD k = false) ∧
    (1 ≤ k → (s.readReg .ctrl).getLsbD k = false)) ∧
  ∀ (s : State) (v w : Word),
    ((∀ k, 1 ≤ k → k ≤ 4 → v.getLsbD k = w.getLsbD k) → s.writeReg .status v = s.writeReg .status w) ∧
    ((∀ k, k ≤ 1 → v.getLsbD k = w.getLsbD k) → s.writeReg .ctrl v = s.writeReg .ctrl w)

/-- R68: a host access to the window that is not a word at a multiple of 4 has no effect but the access-error answer. -/
def Obligations.IrregularWindowAccessHasNoEffect : Prop :=
  ∀ (s : State) (size : AccessSize) (off : BitVec 8) (rest : List Input), size ≠ .word ∨ off.toNat % 4 ≠ 0 →
    (s.inputs = .regRead size off :: rest → step s = .next { s with inputs := rest, resp := .accessError }) ∧
    ∀ v, s.inputs = .regWrite size off v :: rest → step s = .next { s with inputs := rest, resp := .accessError }

/-- R31: bit by bit, a STATUS write clears the W1C bits written as 1 and changes nothing else; the interrupt output falls
when neither DONE nor ERR is left. -/
def Obligations.StatusWriteClearsWrittenBits : Prop :=
  ∀ (s : State) (v : Word) (rest : List Input), s.resetHeld = false → s.inputs = wr .status v :: rest →
    ∃ t, step s = .next t ∧ t = { s with inputs := rest, resp := t.resp, status := t.status } ∧
      (∀ k, (t.readReg .status).getLsbD k =
        ((s.readReg .status).getLsbD k && !(1 ≤ k && k ≤ 4 && v.getLsbD k))) ∧
      ((s.status.done = true → v.getLsbD 1 = true) → (s.status.err = true → v.getLsbD 2 = true) → t.irq = false)

/-- R24, R220: STATUS as a number, and its error codes: 0 to 7 only. -/
def Obligations.StatusWordLayout : Prop :=
  ∀ s : State,
    (s.readReg .status).toNat = s.isBusy.toNat + 2 * s.status.done.toNat + 4 * s.status.err.toNat +
      8 * s.status.chkMismatch.toNat + 16 * s.status.wbusy.toNat + 256 * s.status.errCode.code.toNat ∧
    s.status.errCode.code.toNat ≤ 7

/-- R21, R43, R44: the identification and parameter registers read the parameters in every state and ignore writes. -/
def Obligations.IdentificationRegisters : Prop :=
  ∀ s : State, s.cfg.legal = true →
    s.readReg .id = 0x505A5001 ∧ (s.readReg .maxch).toNat = s.cfg.maxChannels ∧
    (s.readReg .maxtotal).toNat = s.cfg.maxTotalBytes ∧
    ∀ (r : Reg) (v : Word) (rest : List Input), r = .id ∨ r = .maxch ∨ r = .maxtotal → s.inputs = wr r v :: rest →
      ∃ t, step s = .next t ∧ ∀ q : Reg, t.readReg q = s.readReg q

/-- R51, R234, R135: while a command runs the output is low; its end, at the engine's turn or at once by a failed check,
makes it IRQ_EN; enabling IRQ_EN while DONE or ERR stands raises it at once; clearing IRQ_EN, clearing DONE and ERR, an
accepted issue and a reset lower it; and nothing but these three raises it. -/
def Obligations.InterruptFollowsCommandEnds : Prop :=
  ∀ s : State, s.Inv →
    (s.isBusy = true → s.irq = false) ∧
    (∀ t, s.isBusy = true → s.nextEvent = .engine → step s = .next t → t.irq = s.irqEn) ∧
    (∀ w e, s.resetHeld = false → s.isBusy = false → s.nextEvent = wr .cmd w →
      validate s.cfg s.params w = .error e → ∃ t, step s = .next t ∧ t.irq = s.irqEn) ∧
    (∀ v, s.resetHeld = false → s.nextEvent = wr .ctrl v → v.getLsbD 0 = true → v.getLsbD 1 = false →
      ∃ t, step s = .next t ∧ t.irq = (s.status.done || s.status.err)) ∧
    (∀ t, step s = .next t → s.irq = false → t.irq = true →
      (s.isBusy = true ∧ s.nextEvent = .engine) ∨
        (s.isBusy = false ∧ ∃ w e, s.nextEvent = wr .cmd w ∧ validate s.cfg s.params w = .error e) ∨
        ∃ v, s.nextEvent = wr .ctrl v ∧ v.getLsbD 0 = true ∧ v.getLsbD 1 = false) ∧
    ∀ t, step s = .next t →
      ((∃ v, s.nextEvent = wr .ctrl v ∧ v.getLsbD 0 = false) ∨
        (∃ v, s.nextEvent = wr .status v ∧ v.getLsbD 1 = true ∧ v.getLsbD 2 = true) ∨
        (s.isBusy = false ∧ t.isBusy = true) ∨ s.nextEvent.resets) → t.irq = false

/-! ### Issue -/

/-- R121, R122: every issue sets the readback and clears the report, and changes no other register. -/
def Obligations.IssueSetsReadbackAndClearsReport : Prop :=
  ∀ (s : State) (w : Word) (rest : List Input), s.resetHeld = false → s.eng = .idle →
    s.inputs = wr .cmd w :: rest →
    ∃ t, step s = .next t ∧ t.cmd = w ∧ t.status.done = false ∧ t.status.chkMismatch = false ∧ t.errAddr = 0 ∧
      t.status.wbusy = s.status.wbusy ∧ t = { s with
        inputs := rest, resp := t.resp, cmd := w, errAddr := 0, status := t.status, eng := t.eng } ∧
      (t.isBusy = true → t.status.err = false ∧ t.status.errCode = .noError)

/-- R123 to R128, R132, R222 to R226: the first failed check, in their order and in their own arithmetic, is reported in
the issue step with nothing else changed; if none fails the engine is BUSY with the command and its latched operands. -/
def Obligations.FirstFailedCheckIsReported : Prop :=
  ∀ (s : State) (w : Word) (rest : List Input), s.resetHeld = false → s.eng = .idle →
    s.inputs = wr .cmd w :: rest →
    let cleared : Status := ⟨false, false, false, s.status.wbusy, .noError⟩
    let reported (e : ErrCode) : Prop := ∃ a, step s = .next { s with
      inputs := rest, resp := a, cmd := w, errAddr := 0, status := { cleared with err := true, errCode := e } }
    let W := s.params.width.toNat
    let H := s.params.height.toNat
    let C := s.params.channels.toNat
    let N := C * W * H
    let SRC := s.params.src.toNat
    let DST := s.params.dst.toNat
    let LENGTH := s.params.length.toNat
    let top := 2 ^ s.cfg.addrW
    (decode w = none → reported .illegalCmd) ∧
    ∀ i, decode w = some i →
      let two := i = .split ∨ i = .merge ∨ (∃ d, i = .encode d) ∨ (∃ d f, i = .decode d f)
      let badGeometry := i ≠ .csum ∧ (W = 0 ∨ H = 0 ∨ C = 0 ∨ s.cfg.maxChannels < C)
      let tooBig := i ≠ .csum ∧ s.cfg.maxTotalBytes < N
      let outOfRange := (i = .csum ∧ 0 < LENGTH ∧ top < SRC + LENGTH) ∨ (i ≠ .csum ∧ top < SRC + N) ∨
        (two ∧ top < DST + N)
      let overlapping := two ∧ ¬(SRC + N ≤ DST ∨ DST + N ≤ SRC)
      (badGeometry → reported .badGeometry) ∧
      (¬badGeometry → tooBig → reported .sizeLimit) ∧
      (¬badGeometry → ¬tooBig → outOfRange → reported .addrRange) ∧
      (¬badGeometry → ¬tooBig → ¬outOfRange → overlapping → reported .overlap) ∧
      (¬badGeometry → ¬tooBig → ¬outOfRange → ¬overlapping → ∃ a, step s = .next { s with
        inputs := rest, resp := a, cmd := w, errAddr := 0, status := cleared, eng := .busy i s.params false })

/-! ### What the commands do

In a run `exec` is reached only while BUSY, on the latched operands (R48, R129); on an IDLE state it takes the visible
registers, which is the model's own choice (log 21). -/

/-- R160: SPLIT completes, plane c's sample i is the image's sample c of pixel i, and nothing else changes. -/
def Obligations.SplitDeinterleavesImage : Prop :=
  ∀ s : State, s.mem.wf = true → s.Ready .split →
    let o := s.operands
    ∃ t, exec .split s = .next t ∧
      (∀ c < o.C, ∀ i < o.P,
        t.mem.read (o.dst.toNat + (c * o.P + i)) = s.mem.read (o.src.toNat + (i * o.C + c))) ∧
      (∀ a, ¬(o.dst.toNat ≤ a ∧ a < o.dst.toNat + o.N) → t.mem.read a = s.mem.read a) ∧
      t = { s with mem := t.mem, eng := .idle, status := { s.status with done := true } }

/-- R161: MERGE completes with the symmetric assignment, and nothing else changes. -/
def Obligations.MergeInterleavesPlanes : Prop :=
  ∀ s : State, s.mem.wf = true → s.Ready .merge →
    let o := s.operands
    ∃ t, exec .merge s = .next t ∧
      (∀ c < o.C, ∀ i < o.P,
        t.mem.read (o.dst.toNat + (i * o.C + c)) = s.mem.read (o.src.toNat + (c * o.P + i))) ∧
      (∀ a, ¬(o.dst.toNat ≤ a ∧ a < o.dst.toNat + o.N) → t.mem.read a = s.mem.read a) ∧
      t = { s with mem := t.mem, eng := .idle, status := { s.status with done := true } }

/-- R180: DFWD completes, each plane's sample 0 is kept and each later sample becomes its difference from the original
one before it in the same plane; nothing else changes. -/
def Obligations.DfwdStoresDifferences : Prop :=
  ∀ s : State, s.mem.wf = true → s.Ready .dfwd →
    let o := s.operands
    let x (c i : Nat) : Byte := s.mem.read (o.src.toNat + (c * o.P + i))
    ∃ t, exec .dfwd s = .next t ∧
      (∀ c < o.C, ∀ i < o.P,
        t.mem.read (o.src.toNat + (c * o.P + i)) = if i = 0 then x c 0 else x c i - x c (i - 1)) ∧
      (∀ a, ¬(o.src.toNat ≤ a ∧ a < o.src.toNat + o.N) → t.mem.read a = s.mem.read a) ∧
      t = { s with mem := t.mem, eng := .idle, status := { s.status with done := true } }

/-- R181: DINV completes, each plane's sample 0 is kept and each later sample has the restored one before it added, which
is the sum of the plane's samples so far modulo 256; nothing else changes. -/
def Obligations.DinvRestoresSamples : Prop :=
  ∀ s : State, s.mem.wf = true → s.Ready .dinv →
    let o := s.operands
    let y (c i : Nat) : Byte := s.mem.read (o.src.toNat + (c * o.P + i))
    ∃ t, exec .dinv s = .next t ∧
      (∀ c < o.C, ∀ i < o.P,
        t.mem.read (o.src.toNat + (c * o.P + i)) =
          (if i = 0 then y c 0 else y c i + t.mem.read (o.src.toNat + (c * o.P + (i - 1)))) ∧
        (t.mem.read (o.src.toNat + (c * o.P + i))).toNat =
          ((List.range (i + 1)).map fun j => (y c j).toNat).sum % 256) ∧
      (∀ a, ¬(o.src.toNat ≤ a ∧ a < o.src.toNat + o.N) → t.mem.read a = s.mem.read a) ∧
      t = { s with mem := t.mem, eng := .idle, status := { s.status with done := true } }

/-- R147: CSUM completes with CHK_RESULT the digest of the buffer under the seeds; it writes no memory and no other
register but the hidden accumulators. -/
def Obligations.CsumWritesDigest : Prop :=
  ∀ s : State, s.Ready .csum →
    let o := s.operands
    ∃ A, exec .csum s = .next { s with
      chkResult := digest (s.mem.readRange o.src.toNat o.length.toNat) o.seeds
      acc := A
      eng := .idle
      status := { s.status with done := true } }

/-- R200, R201: ENCODE completes with the (filtered) planes at DST and CHK_RESULT the digest of exactly those bytes;
nothing else changes but the hidden accumulators. -/
def Obligations.EncodeLeavesDigestedPlanes : Prop :=
  ∀ (delta : Bool) (s : State), s.mem.wf = true → s.Ready (.encode delta) →
    let o := s.operands
    let x (c i : Nat) : Byte := s.mem.read (o.src.toNat + (i * o.C + c))
    ∃ t, exec (.encode delta) s = .next t ∧
      (∀ c < o.C, ∀ i < o.P, t.mem.read (o.dst.toNat + (c * o.P + i)) =
        if delta = true ∧ 0 < i then x c i - x c (i - 1) else x c i) ∧
      t.chkResult = digest (t.mem.readRange o.dst.toNat o.N) o.seeds ∧
      (∀ a, ¬(o.dst.toNat ≤ a ∧ a < o.dst.toNat + o.N) → t.mem.read a = s.mem.read a) ∧
      t = { s with
        mem := t.mem, chkResult := t.chkResult, acc := t.acc, eng := .idle
        status := { s.status with done := true } }

/-- R203, R205, R206: DECODE whose digest matches, or with FATAL = 0, completes: CHK_RESULT is the digest of the bytes at
SRC as given, CHK_MISMATCH records an inequality, the planes at SRC are restored in place if DELTA = 1, and DST holds
them interleaved; nothing else changes but the hidden accumulators. -/
def Obligations.DecodeRestoresImage : Prop :=
  ∀ (delta fatal : Bool) (s : State), s.mem.wf = true → s.Ready (.decode delta fatal) →
    let o := s.operands
    let d := digest (s.mem.readRange o.src.toNat o.N) o.seeds
    let y (c i : Nat) : Byte := s.mem.read (o.src.toNat + (c * o.P + i))
    (fatal = true → d = o.chkExpect) →
    ∃ t, exec (.decode delta fatal) s = .next t ∧
      (∀ c < o.C, ∀ i < o.P,
        (t.mem.read (o.src.toNat + (c * o.P + i))).toNat =
          (if delta then ((List.range (i + 1)).map fun j => (y c j).toNat).sum % 256 else (y c i).toNat) ∧
        t.mem.read (o.dst.toNat + (i * o.C + c)) = t.mem.read (o.src.toNat + (c * o.P + i))) ∧
      (∀ a, ¬(o.dst.toNat ≤ a ∧ a < o.dst.toNat + o.N) →
        ¬(delta = true ∧ o.src.toNat ≤ a ∧ a < o.src.toNat + o.N) → t.mem.read a = s.mem.read a) ∧
      t = { s with
        mem := t.mem, chkResult := d, acc := t.acc, eng := .idle
        status := { s.status with done := true, chkMismatch := s.status.chkMismatch || d != o.chkExpect } }

/-- R207, R227, R231: a fatal mismatch ends DECODE with CHK_MISMATCH set, CHK_RESULT the digest, ERR_ADDR 0 and no byte of
memory written, whether or not a later write would fail. -/
def Obligations.DecodeFatalMismatchWritesNothing : Prop :=
  ∀ (delta : Bool) (s : State), s.Valid (.decode delta true) → s.Ordinary (.decode delta true) → s.raced = false →
    s.operands.decodeReads.failing s.cfg = [] →
    let o := s.operands
    let d := digest (s.mem.readRange o.src.toNat o.N) o.seeds
    d ≠ o.chkExpect →
    ∃ A, exec (.decode delta true) s = .next { s with
      chkResult := d
      acc := A
      errAddr := 0
      eng := .idle
      status := { s.status with err := true, errCode := .chkMismatch, chkMismatch := true } }

/-! ### Laws of the transforms -/

/-- R164: split and merge are inverse on byte sequences, and MERGE of what SPLIT left gives the image back. -/
def Obligations.SplitAndMergeAreInverse : Prop :=
  (∀ (C P : Nat) (I : List Byte), 1 ≤ C → 1 ≤ P → I.length = C * P →
    mergeBytes C P (splitBytes C P I) = I ∧ splitBytes C P (mergeBytes C P I) = I) ∧
  ∀ (s t u : State) (z : Word), s.mem.wf = true → s.Ready .split → exec .split s = .next t →
    u.mem = t.mem → u.operands = { s.operands with src := s.operands.dst, dst := z } → u.Ready .merge →
    ∃ v, exec .merge u = .next v ∧
      ∀ k < s.operands.N, v.mem.read (z.toNat + k) = s.mem.read (s.operands.src.toNat + k)

/-- R186: the filters are inverse on every plane, wrap-around included, and DFWD then DINV restores all of memory. -/
def Obligations.DeltaFiltersAreInverse : Prop :=
  (∀ x : List Byte, invPlane (fwdPlane x) = x ∧ fwdPlane (invPlane x) = x) ∧
  ∀ s t u : State, s.mem.wf = true → s.Ready .dfwd → exec .dfwd s = .next t →
    u.mem = t.mem → u.operands = s.operands → u.Ready .dinv →
    ∃ v, exec .dinv u = .next v ∧ v.mem = s.mem

/-- R146: the digest in groups and tail equals the streaming form; of no bytes it is the final mix of the seeds. -/
def Obligations.DigestEqualsStreamingForm : Prop :=
  (∀ (bytes : List Byte) (seeds : Quad), digest bytes seeds = digestStream bytes seeds) ∧
  ∀ seeds : Quad, digest [] seeds = finalMix seeds

/-- R148: because every multiplier is odd, two buffers that differ in exactly one byte leave different accumulators. -/
def Obligations.SingleByteChangeReachesAccumulators : Prop :=
  ∀ (before after : List Byte) (x y : Byte) (seeds : Quad), x ≠ y →
    accumulate seeds (before ++ x :: after) ≠ accumulate seeds (before ++ y :: after)

/-- R167: SPLIT and MERGE depend on WIDTH and HEIGHT only through their product. -/
def Obligations.NoRowStructure : Prop :=
  ∀ (i : Instr) (s u : State) (w h : Word), i = .split ∨ i = .merge → s.mem.wf = true → s.Ready i → u.Ready i →
    u.mem = s.mem → u.operands = { s.operands with width := w, height := h } →
    w.toNat * h.toNat = s.operands.width.toNat * s.operands.height.toNat →
    ∃ t v, exec i s = .next t ∧ exec i u = .next v ∧ v.mem = t.mem

/-! ### The whole machine -/

/-- Every step keeps the invariant: canonical memory within the address space, legal parameters, the running command as
issued and validated with its latch equal to the registers, the end report as R27, R30 and R42 say, the reset state while
the reset input is held (R260). -/
def Obligations.EveryStepKeepsInvariant : Prop :=
  ∀ s t : State, s.Inv → step s = .next t → t.Inv

/-- The invariant holds right after reset. -/
def Obligations.ResetSatisfiesInvariant : Prop := State.reset.Inv

/-- R66: whatever its end, a command changes no byte outside its destination and in-place regions, and no parameter
register, CMD readback, IRQ_EN or WBUSY. -/
def Obligations.CommandsWriteOnlyTheirRegions : Prop :=
  ∀ (i : Instr) (s t : State), s.mem.wf = true → exec i s = .next t →
    (∀ a, s.mayChange i a = false → t.mem.read a = s.mem.read a) ∧
    t.params = s.params ∧ t.cmd = s.cmd ∧ t.irqEn = s.irqEn ∧ t.status.wbusy = s.status.wbusy ∧ t.cfg = s.cfg ∧
    t.resetHeld = s.resetHeld ∧ t.inputs = s.inputs ∧ t.resp = s.resp

/-- R66, R70, R73: a command's result does not depend on memory outside its regions, so host accesses there are
unaffected and affect nothing. -/
def Obligations.CommandsReadOnlyTheirRegions : Prop :=
  ∀ (i : Instr) (s t : State) (m : Memory), s.mem.wf = true → m.wf = true →
    (∀ a, Region.anyContains (i.regions s.operands) a = true → m.read a = s.mem.read a) → exec i s = .next t →
    ∃ m', exec i { s with mem := m } = .next { t with mem := m' } ∧
      ∀ a, m'.read a = if Region.anyContains (i.regions s.operands) a then t.mem.read a else m.read a

/-- R8, R127: in a state with the invariant no step faults, but for a host access to memory. -/
def Obligations.NoFaultWithInvariant : Prop :=
  ∀ s : State, s.Inv → s.nextEvent.isMemoryAccess = false → ∀ r, step s ≠ .fault r

/-- R47: the engine becomes BUSY only by an IDLE write to CMD that decodes and passes validation, and IDLE only at its
own turn or by a reset. -/
def Obligations.EngineStartsAndStopsOnlyAsSaid : Prop :=
  ∀ s t : State, step s = .next t →
    (s.isBusy = false → t.isBusy = true → ∃ w i, s.nextEvent.writes .cmd w ∧ decode w = some i ∧
      checkCommand s.cfg s.params i = none ∧ t.eng = .busy i s.params false) ∧
    (s.isBusy = true → t.isBusy = false → s.nextEvent = .engine ∨ s.nextEvent.resets) ∧
    ∀ i o r j p q, s.eng = .busy i o r → t.eng = .busy j p q → j = i ∧ p = o

/-- R40: CHK_RESULT changes only at the turn of a command that computes a digest, or by a reset, which clears it. -/
def Obligations.ChkResultChangesOnlyByDigests : Prop :=
  ∀ s t : State, step s = .next t → t.chkResult ≠ s.chkResult →
    (s.nextEvent = .engine ∧ ∃ i o r, s.eng = .busy i o r ∧ i.digests = true) ∨
      (s.nextEvent.resets ∧ t.chkResult = 0)

/-- R265: nothing but the host (a register write or a reset) writes the parameter registers. -/
def Obligations.OnlyTheHostWritesParameters : Prop :=
  ∀ s t : State, step s = .next t → t.params ≠ s.params →
    s.nextEvent.resets ∨ (s.isBusy = false ∧ ∃ r v, s.nextEvent.writes r v ∧ r ∈ Reg.lockedWhileBusy ∧ r ≠ .cmd)

/-- R29: WBUSY is set by dropped writes, by nothing else, and cleared only by a write of 1 to bit 4 or by a reset. -/
def Obligations.WbusyIsSticky : Prop :=
  ∀ s t : State, step s = .next t →
    (s.isBusy = true → s.resetHeld = false → (∃ r v, s.nextEvent.writes r v ∧ r ∈ Reg.lockedWhileBusy) →
      t.status.wbusy = true) ∧
    (s.status.wbusy = false → t.status.wbusy = true →
      s.isBusy = true ∧ ∃ r v, s.nextEvent.writes r v ∧ r ∈ Reg.lockedWhileBusy) ∧
    (s.status.wbusy = true → t.status.wbusy = false →
      s.nextEvent.resets ∨ ∃ v, s.nextEvent.writes .status v ∧ v.getLsbD 4 = true)

/-- R27, R135: at its turn the engine ends the running command, with exactly one of DONE and ERR. -/
def Obligations.CommandsEndWithOneReport : Prop :=
  ∀ s t : State, s.Inv → s.isBusy = true → s.nextEvent = .engine → step s = .next t →
    t.eng = .idle ∧ t.status.err = !t.status.done

/-! ### Failing accesses, races, and memory that is not ordinary -/

/-- R228 to R230: when an access its rule makes fails, a command other than DECODE ends in BUS_ERROR with ERR_ADDR one of
the failing addresses; CHK_RESULT and every byte outside its written regions are unchanged, and every byte inside is a
free value of its own, also one whose own write failed (log 12). -/
def Obligations.FailedAccessEndsInBusError : Prop :=
  ∀ (i : Instr) (s : State), (∀ d f, i ≠ .decode d f) → s.mem.wf = true → s.Valid i → s.Ordinary i →
    s.raced = false → s.cfg.legal = true → (accessesOf i s.operands).failing s.cfg ≠ [] →
    ∃ t, exec i s = .next t ∧ t.eng = .idle ∧ t.status = { s.status with err := true, errCode := .busError } ∧
      t.errAddr.toNat ∈ (accessesOf i s.operands).failing s.cfg ++ (accessesOf i s.operands).mayFail s.cfg ∧
      t.chkResult = s.chkResult ∧ s.FreshBytes t (i.writtenRegions s.operands) ∧
      ∀ a, s.mayChange i a = false → t.mem.read a = s.mem.read a

/-- R203, R227, R230: a failed read in DECODE's checksum phase ends it in BUS_ERROR before any comparison: CHK_RESULT,
CHK_MISMATCH and all of memory are unchanged. ERR_ADDR is any failing address of the command, a later write's included
(R229). -/
def Obligations.DecodeReadFailurePreemptsComparison : Prop :=
  ∀ (delta fatal : Bool) (s : State), s.Valid (.decode delta fatal) → s.Ordinary (.decode delta fatal) →
    s.raced = false → s.cfg.legal = true → s.operands.decodeReads.failing s.cfg ≠ [] →
    ∃ t, exec (.decode delta fatal) s = .next t ∧ t.eng = .idle ∧ t.mem = s.mem ∧ t.chkResult = s.chkResult ∧
      t.status = { s.status with err := true, errCode := .busError } ∧
      t.errAddr.toNat ∈ (accessesOf (.decode delta fatal) s.operands).failing s.cfg

/-- R230, R28, R205: a failed write after DECODE's checksum phase ends it in BUS_ERROR with CHK_RESULT the digest and the
mismatch reported, R221's clause on CHK_MISMATCH notwithstanding (log 9); every byte of its written regions is a free
value of its own, also one whose own write failed (log 12). -/
def Obligations.DecodeWriteFailureKeepsDigest : Prop :=
  ∀ (delta fatal : Bool) (s : State), s.mem.wf = true → s.Valid (.decode delta fatal) →
    s.Ordinary (.decode delta fatal) → s.raced = false → s.cfg.legal = true →
    s.operands.decodeReads.failing s.cfg = [] → (s.operands.decodeWrites delta).failing s.cfg ≠ [] →
    let d := digest (s.mem.readRange s.operands.src.toNat s.operands.N) s.operands.seeds
    (fatal = true → d = s.operands.chkExpect) →
    ∃ t, exec (.decode delta fatal) s = .next t ∧ t.eng = .idle ∧
      t.status = { s.status with
        err := true, errCode := .busError
        chkMismatch := s.status.chkMismatch || d != s.operands.chkExpect } ∧
      t.chkResult = d ∧ t.errAddr.toNat ∈ (s.operands.decodeWrites delta).failing s.cfg ∧
      s.FreshBytes t ((Instr.decode delta fatal).writtenRegions s.operands) ∧
      ∀ a, s.mayChange (.decode delta fatal) a = false → t.mem.read a = s.mem.read a

/-- R70, R130: a raced command still ends, with DONE = 1 but for a FATAL DECODE, whose comparison is free; only its written
regions, CHK_RESULT, CHK_MISMATCH, the hidden accumulators and the end report can differ from before; each byte of its
written regions is a free value of its own, and so are CHK_RESULT and CHK_MISMATCH of a command that computes a digest.
That the race reaches the whole command, a FATAL DECODE's comparison and written regions and CHK_MISMATCH of CSUM and
ENCODE included, is the model's reading (log 10). -/
def Obligations.RacedCommandEndsWithFreeValues : Prop :=
  ∀ (i : Instr) (s : State), s.mem.wf = true → s.Valid i → s.Ordinary i → s.raced = true → s.NoAccessFails i →
    ∃ t, exec i s = .next t ∧
      t = { s with
        mem := t.mem, chkResult := t.chkResult, acc := t.acc, draws := t.draws, errAddr := t.errAddr, eng := .idle
        status := { t.status with wbusy := s.status.wbusy } } ∧
      (∀ a, s.mayChange i a = false → t.mem.read a = s.mem.read a) ∧
      s.FreshBytes t (i.writtenRegions s.operands) ∧
      (i.digests = true → ∃ n m, s.draws ≤ n ∧ n < t.draws ∧ t.chkResult = Config.freeWord n ∧
        s.draws ≤ m ∧ m < t.draws ∧ t.status.chkMismatch = Config.freeBool m) ∧
      (i.digests = false → t.chkResult = s.chkResult ∧ t.status.chkMismatch = s.status.chkMismatch) ∧
      ((∀ d, i ≠ .decode d true) → s.ReportsDone t) ∧
      ∀ d, i = .decode d true →
        if t.status.chkMismatch = true then s.ReportsError t .chkMismatch 0 else s.ReportsDone t

/-- U11, R61, R69; R60: where a meaning stops. -/
def Obligations.CommandsStopOffOrdinaryMemory : Prop :=
  ∀ (i : Instr) (s : State),
    ((∃ r ∈ i.regions s.operands, s.cfg.touchesSideEffects r = true) → exec i s = .refused .sideEffectMemory) ∧
    (s.Ordinary i → (∃ r ∈ i.regions s.operands, 0 < r.len ∧ 2 ^ s.cfg.addrW < r.base + r.len) →
      exec i s = .fault .outsideAddressSpace)

/-- R60, R71, R70: a host access to ordinary memory outside the running command's regions reads the byte there and writes
that byte alone; in those regions a read is a free value and a write races the command. The host's addresses are taken to
be the engine's (log 22); that a byte written inside a running region holds the value at once and races the whole command
is the model's reading (log 10); the bus answer to a write is left open. -/
def Obligations.HostMemoryAccess : Prop :=
  ∀ (s : State) (a : Nat) (v : Byte) (rest : List Input), s.mem.wf = true → a < 2 ^ s.cfg.addrW →
    s.cfg.touchesSideEffects ⟨a, 1⟩ = false →
    (s.inRunningRegion a = false → s.inputs = .memRead a :: rest →
      step s = .next { s with inputs := rest, resp := .byte (s.mem.read a) }) ∧
    (s.inRunningRegion a = true → s.inputs = .memRead a :: rest →
      ∃ n, step s = .next { s with inputs := rest, resp := .byte (Config.freeByte n), draws := s.draws + 1 }) ∧
    (s.inputs = .memWrite a v :: rest → ∃ t, step s = .next t ∧
      (∀ b, t.mem.read b = if b = a then v else s.mem.read b) ∧
      t = { s with inputs := rest, resp := t.resp, mem := t.mem, eng := t.eng } ∧
      (s.inRunningRegion a = false → t.eng = s.eng) ∧ (s.inRunningRegion a = true → t.raced = true))

/-! ### The fused commands as sequences, and the round trip -/

/-- R202: ENCODE equals, in memory and CHK_RESULT, SPLIT; then DFWD at DST if DELTA = 1; then CSUM over the N bytes at
DST with the same seeds. ENCODE and SPLIT run in any state whose operands are the registers, BUSY as in a run (R48) or
IDLE; the later commands run on IDLE states, where the operands are the registers by the model's choice (log 21). -/
def Obligations.EncodeEqualsSequence : Prop :=
  ∀ (delta : Bool) (s : State), s.mem.wf = true → s.cfg.legal = true → s.operands = s.params →
    s.Ready (.encode delta) →
    let onPlanes (u : State) : State :=
      { u with params := { u.params with src := s.params.dst, length := BitVec.ofNat 32 s.params.N } }
    ∃ e t u v, exec (.encode delta) s = .next e ∧ exec .split s = .next t ∧
      (if delta then exec .dfwd (onPlanes t) = .next u else u = t) ∧ exec .csum (onPlanes u) = .next v ∧
      v.mem = e.mem ∧ v.chkResult = e.chkResult

/-- R208: DECODE that ends without error equals, in memory and registers, CSUM over the N bytes at SRC; the comparison;
then DINV at SRC if DELTA = 1; then MERGE. DECODE runs in any state whose operands are the registers, BUSY as in a run
(R48) or IDLE; the sequence's commands run on IDLE states, where the operands are the registers by the model's choice
(log 21). -/
def Obligations.DecodeEqualsSequence : Prop :=
  ∀ (delta fatal : Bool) (s : State), s.mem.wf = true → s.cfg.legal = true → s.operands = s.params →
    s.Ready (.decode delta fatal) → ∃ e t, exec (.decode delta fatal) s = .next e ∧
      exec .csum { s with
        eng := .idle, params := { s.params with length := BitVec.ofNat 32 s.params.N } } = .next t ∧
      (e.status.err = false → ∃ u v,
        (if delta then exec .dinv t = .next u else u = t) ∧ exec .merge u = .next v ∧
        e = { v with
          params := s.params
          status := { v.status with chkMismatch := v.status.chkMismatch || v.chkResult != s.params.chkExpect } })

/-- R209: DECODE of what ENCODE left, with the digest it reported, completes without a mismatch and gives the image. -/
def Obligations.EncodeDecodeRoundTrip : Prop :=
  ∀ (delta fatal : Bool) (s u : State) (d : Word), s.mem.wf = true → u.mem.wf = true →
    s.Ready (.encode delta) → u.Ready (.decode delta fatal) →
    ∃ t, exec (.encode delta) s = .next t ∧
      ((∀ k < s.operands.N, u.mem.read (s.operands.dst.toNat + k) = t.mem.read (s.operands.dst.toNat + k)) →
        u.operands = { s.operands with src := s.operands.dst, dst := d, chkExpect := t.chkResult,
                                       length := u.operands.length } →
        ∃ v, exec (.decode delta fatal) u = .next v ∧ v.status.done = true ∧
          v.status.chkMismatch = u.status.chkMismatch ∧
          ∀ k < s.operands.N, v.mem.read (d.toNat + k) = s.mem.read (s.operands.src.toNat + k))

/-! ### The reset input as a level, accesses left open, and races with a failing access -/

/-- R260: from its assertion on, in any state, the reset input puts the block in its reset state; in that state no register
write changes it while the input is held, and no event but a register write changes it at all, the release of the input
included. -/
def Obligations.ResetInputHoldsTheResetState : Prop :=
  (∀ (s : State) (rest : List Input), s.inputs = .resetPin true :: rest →
    ∃ t, step s = .next t ∧ t.AtReset ∧ t.resetHeld = true ∧ t.cfg = s.cfg ∧ t.inputs = rest) ∧
  (∀ (s : State) (size : AccessSize) (off : BitVec 8) (v : Word) (rest : List Input), s.resetHeld = true → s.AtReset →
    s.inputs = .regWrite size off v :: rest →
    ∃ t, step s = .next t ∧ t.AtReset ∧ t.resetHeld = true ∧ t.mem = s.mem ∧ t.cfg = s.cfg ∧ t.inputs = rest) ∧
  (∀ (s : State) (rest : List Input), s.inputs = .resetPin false :: rest →
    step s = .next { s with resetHeld := false, inputs := rest }) ∧
  ∀ s t : State, s.AtReset → (∀ size off v, s.nextEvent ≠ .regWrite size off v) → step s = .next t →
    t.AtReset ∧ t.resetHeld = ((s.resetHeld || s.nextEvent == .resetPin true) && s.nextEvent != .resetPin false)

/-- R66, R187: when only accesses that R66 leaves to the implementation would fail (DFWD's and DINV's write of sample 0,
ENCODE's read of DST), whether they are made is a free yes-or-no: the command ends as on a platform where nothing fails,
up to that one draw, or in BUS_ERROR at such an address. Both are the model's choice (log 8). -/
def Obligations.OpenAccessesMayFail : Prop :=
  ∀ (i : Instr) (s : State), s.mem.wf = true → s.cfg.legal = true → s.Valid i → s.Ordinary i → s.raced = false →
    (accessesOf i s.operands).failing s.cfg = [] → (accessesOf i s.operands).mayFail s.cfg ≠ [] →
    let sound : Config := { s.cfg with readFailing := [], writeFailing := [] }
    ∃ n c, s.draws ≤ n ∧ exec i { s with cfg := sound } = .next c ∧
      (Config.freeBool n = false → exec i s = .next { c with cfg := s.cfg, draws := n + 1 }) ∧
      (Config.freeBool n = true → ∃ t, exec i s = .next t ∧ t.eng = .idle ∧
        t.status = { s.status with err := true, errCode := .busError } ∧
        t.errAddr.toNat ∈ (accessesOf i s.operands).mayFail s.cfg ∧ t.chkResult = s.chkResult ∧
        s.FreshBytes t (i.writtenRegions s.operands) ∧ ∀ a, s.mayChange i a = false → t.mem.read a = s.mem.read a)

/-- R70, R228: a raced command one of whose accesses fails ends in BUS_ERROR at a failing address, with the same values free
as in `RacedCommandEndsWithFreeValues`; a FATAL DECODE whose reads succeed may end in its free comparison before its writes.
Where only accesses that R66 leaves open would fail, a free yes-or-no decides (log 8). That all of this is free, DECODE's
regions and CHK_RESULT after a failed read included, is the model's reading of R70 beside R230 (log 10). -/
def Obligations.RacedCommandWithFailingAccess : Prop :=
  ∀ (i : Instr) (s : State), s.mem.wf = true → s.cfg.legal = true → s.Valid i → s.Ordinary i → s.raced = true →
    let failing := (accessesOf i s.operands).failing s.cfg
    let mayFail := (accessesOf i s.operands).mayFail s.cfg
    failing ++ mayFail ≠ [] →
    ∃ t, exec i s = .next t ∧
      t = { s with
        mem := t.mem, chkResult := t.chkResult, acc := t.acc, draws := t.draws, errAddr := t.errAddr, eng := .idle
        status := { t.status with wbusy := s.status.wbusy } } ∧
      (∀ a, s.mayChange i a = false → t.mem.read a = s.mem.read a) ∧
      s.FreshBytes t (i.writtenRegions s.operands) ∧
      (i.digests = true → ∃ n m, s.draws ≤ n ∧ n < t.draws ∧ t.chkResult = Config.freeWord n ∧
        s.draws ≤ m ∧ m < t.draws ∧ t.status.chkMismatch = Config.freeBool m) ∧
      (i.digests = false → t.chkResult = s.chkResult ∧ t.status.chkMismatch = s.status.chkMismatch) ∧
      let busError : Prop := ∃ a ∈ failing ++ mayFail, s.ReportsError t .busError a
      (failing ≠ [] → (∀ d, i ≠ .decode d true) → busError) ∧
      (failing = [] → ∃ k, s.draws ≤ k ∧ k < t.draws ∧
        if Config.freeBool k = true then busError else s.ReportsDone t) ∧
      ∀ d, i = .decode d true →
        if s.operands.decodeReads.failing s.cfg = [] ∧ t.status.chkMismatch = true then s.ReportsError t .chkMismatch 0
        else busError
end

