-- ==== Sys2Proof/Laws/Memory.lean ====
section
/-! SUPPORT. The laws of memory: every operation keeps the canonical form, a read after a write gives the value written at
the address written and the old value elsewhere, byte by byte and range by range. -/

namespace Sys2Proof.Machine.Memory

theorem wfFrom_cons {lo k : Nat} {b : Byte} {m : Memory} :
    wfFrom lo ((k, b) :: m) = true ↔ lo ≤ k ∧ b ≠ unlisted ∧ wfFrom (k + 1) m = true := by
  simp [wfFrom, and_assoc]

theorem wfFrom_mono {lo lo' : Nat} (h : lo' ≤ lo) : ∀ {m : Memory}, wfFrom lo m = true → wfFrom lo' m = true
  | [], _ => rfl
  | (_, _) :: _, hm => by
    rw [wfFrom_cons] at hm ⊢
    exact ⟨h.trans hm.1, hm.2⟩

theorem read_eq_unlisted_of_lt {lo a : Nat} (ha : a < lo) :
    ∀ {m : Memory}, wfFrom lo m = true → m.read a = unlisted
  | [], _ => rfl
  | (k, b) :: m, hm => by
    rw [wfFrom_cons] at hm
    rw [read, if_neg (by omega), if_pos (by omega)]

theorem wfFrom_consCell {lo a : Nat} {v : Byte} {m : Memory} (ha : lo ≤ a) (hm : wfFrom (a + 1) m = true) :
    wfFrom lo (cons a v m) = true := by
  rw [cons]
  split
  · exact wfFrom_mono (by omega) hm
  · rw [wfFrom_cons]
    exact ⟨ha, ‹_›, hm⟩

theorem read_consCell {a b : Nat} {v : Byte} {m : Memory} (hm : wfFrom (a + 1) m = true) :
    (cons a v m).read b = if b = a then v else m.read b := by
  rw [cons]
  split
  · split
    · subst_vars
      exact read_eq_unlisted_of_lt (by omega) hm
    · rfl
  · rw [read]
    split
    · rfl
    · split
      · exact (read_eq_unlisted_of_lt (by omega) hm).symm
      · rfl

theorem wfFrom_write {a : Nat} {v : Byte} : ∀ {m : Memory} {lo : Nat}, lo ≤ a → wfFrom lo m = true →
    wfFrom lo (m.write a v) = true
  | [], _, ha, _ => wfFrom_consCell ha rfl
  | (k, b) :: m, lo, ha, hm => by
    have h := wfFrom_cons.mp hm
    rw [write]
    split
    · exact wfFrom_consCell ha (wfFrom_cons.mpr ⟨by omega, h.2⟩)
    · split
      · exact wfFrom_consCell ha (by subst_vars; exact h.2.2)
      · exact wfFrom_cons.mpr ⟨h.1, h.2.1, wfFrom_write (by omega) h.2.2⟩

theorem read_write_from {a b : Nat} {v : Byte} : ∀ {m : Memory} {lo : Nat}, wfFrom lo m = true →
    (m.write a v).read b = if b = a then v else m.read b
  | [], _, _ => read_consCell rfl
  | (k, c) :: m, lo, hm => by
    have h := wfFrom_cons.mp hm
    rw [write]
    split
    · exact read_consCell (wfFrom_cons.mpr ⟨by omega, h.2⟩)
    · split
      · subst_vars
        rw [read_consCell h.2.2, read]
        split
        · rfl
        · split
          · exact read_eq_unlisted_of_lt (by omega) h.2.2
          · rfl
      · rw [read, read, read_write_from h.2.2]
        split
        · rw [if_neg (by omega)]
        · split
          · rw [if_neg (by omega)]
          · rfl

/-- A write keeps the canonical form. -/
@[simp] theorem wf_write {m : Memory} (a : Nat) (v : Byte) (hm : m.wf = true) : (m.write a v).wf = true :=
  wfFrom_write (Nat.zero_le _) hm

/-- A read after a write: the value written at the address written, the old value elsewhere. -/
theorem read_write {m : Memory} (hm : m.wf = true) (a b : Nat) (v : Byte) :
    (m.write a v).read b = if b = a then v else m.read b :=
  read_write_from hm

theorem below_write {bound a : Nat} {v : Byte} (ha : a < bound) : ∀ {m : Memory}, m.below bound = true →
    (m.write a v).below bound = true := by
  have hc : ∀ {m : Memory}, m.below bound = true → (cons a v m).below bound = true := by
    intro m hm
    rw [cons]
    split
    · exact hm
    · simpa [below, ha] using hm
  intro m
  induction m with
  | nil => exact fun _ => hc rfl
  | cons cell m ih =>
    obtain ⟨k, b⟩ := cell
    intro hm
    have h : k < bound ∧ Memory.below bound m = true := by simpa [below] using hm
    rw [write]
    split
    · exact hc hm
    · split
      · exact hc h.2
      · have h2 := ih h.2
        rw [below, List.all_cons, Bool.and_eq_true]
        exact ⟨decide_eq_true h.1, h2⟩

/-- Writing a range keeps the canonical form. -/
@[simp] theorem wf_writeRange : ∀ (bs : List Byte) {m : Memory} (base : Nat), m.wf = true →
    (m.writeRange base bs).wf = true
  | [], _, _, hm => hm
  | _ :: bs, _, base, hm => wf_writeRange bs (base + 1) (wf_write _ _ hm)

/-- A byte after a range is written: its own element inside the range, the old byte outside. -/
theorem read_writeRange : ∀ (bs : List Byte) {m : Memory} (base a : Nat), m.wf = true →
    (m.writeRange base bs).read a = if base ≤ a ∧ a < base + bs.length then bs.getD (a - base) 0 else m.read a
  | [], m, base, a, _ => by
    rw [writeRange, if_neg (by simp only [List.length_nil]; omega)]
  | b :: bs, m, base, a, hm => by
    rw [writeRange, read_writeRange bs (base + 1) a (wf_write _ _ hm), read_write hm]
    simp only [List.length_cons]
    rcases Nat.lt_trichotomy a base with h | h | h
    · rw [if_neg (by omega), if_neg (by omega), if_neg (by omega)]
    · subst h
      rw [if_neg (by omega), if_pos rfl, if_pos (by omega), Nat.sub_self]
      rfl
    · obtain ⟨j, rfl⟩ : ∃ j, a = base + 1 + j := ⟨a - (base + 1), by omega⟩
      rw [show base + 1 + j - base = j + 1 by omega, Nat.add_sub_cancel_left, List.getD_cons_succ]
      by_cases h' : j < bs.length
      · rw [if_pos (by omega), if_pos (by omega)]
      · rw [if_neg (by omega), if_neg (by omega), if_neg (by omega)]

theorem below_writeRange {bound : Nat} : ∀ (bs : List Byte) {m : Memory} (base : Nat), base + bs.length ≤ bound →
    m.below bound = true → (m.writeRange base bs).below bound = true
  | [], _, _, _, hm => hm
  | b :: bs, m, base, hb, hm => by
    simp only [List.length_cons] at hb
    exact below_writeRange bs (base + 1) (by omega) (below_write (by omega) hm)

@[simp] theorem length_readRange (m : Memory) (base n : Nat) : (m.readRange base n).length = n := by
  simp [readRange]

/-- The k-th byte of a range is the byte at base + k. -/
theorem getD_readRange (m : Memory) {base n k : Nat} (hk : k < n) :
    (m.readRange base n).getD k 0 = m.read (base + k) := by
  simp [readRange, List.getD_eq_getElem?_getD, hk]

/-- Two ranges with the same bytes are the same list. -/
theorem readRange_congr {m m' : Memory} {base base' n : Nat}
    (h : ∀ k < n, m.read (base + k) = m'.read (base' + k)) : m.readRange base n = m'.readRange base' n := by
  simp only [readRange]
  exact List.map_congr_left fun k hk => h k (List.mem_range.mp hk)

/-- Reading back a range just written gives what was written. -/
theorem readRange_writeRange (bs : List Byte) {m : Memory} (base : Nat) (hm : m.wf = true) :
    (m.writeRange base bs).readRange base bs.length = bs := by
  apply List.ext_getElem
  · simp
  · intro k h1 h2
    simp [readRange, read_writeRange _ _ _ hm, h2]

/-- Canonical memories that read alike everywhere are equal. -/
theorem ext_from : ∀ {m m' : Memory} {lo : Nat}, wfFrom lo m = true → wfFrom lo m' = true →
    (∀ a, m.read a = m'.read a) → m = m'
  | [], [], _, _, _, _ => rfl
  | [], (k, b) :: m', _, _, h', h => by
    have := h k
    rw [read, read, if_pos rfl] at this
    exact absurd this.symm (wfFrom_cons.mp h').2.1
  | (k, b) :: m, [], _, h', _, h => by
    have := h k
    rw [read, read, if_pos rfl] at this
    exact absurd this (wfFrom_cons.mp h').2.1
  | (k, b) :: m, (k', b') :: m', lo, hm, hm', h => by
    have w := wfFrom_cons.mp hm
    have w' := wfFrom_cons.mp hm'
    have hk : k = k' := by
      rcases Nat.lt_trichotomy k k' with hlt | heq | hgt
      · have := h k
        rw [read, if_pos rfl, read, if_neg (by omega), if_pos hlt] at this
        exact absurd this w.2.1
      · exact heq
      · have := h k'
        rw [read, if_neg (by omega), if_pos hgt, read, if_pos rfl] at this
        exact absurd this.symm w'.2.1
    subst hk
    have hb : b = b' := by
      have := h k
      rwa [read, if_pos rfl, read, if_pos rfl] at this
    subst hb
    have : m = m' := ext_from w.2.2 w'.2.2 fun a => by
      have := h a
      rw [read, read] at this
      by_cases hak : a = k
      · rw [hak, read_eq_unlisted_of_lt (by omega) w.2.2, read_eq_unlisted_of_lt (by omega) w'.2.2]
      · rw [if_neg hak, if_neg hak] at this
        by_cases hlt : a < k
        · rw [read_eq_unlisted_of_lt (by omega) w.2.2, read_eq_unlisted_of_lt (by omega) w'.2.2]
        · rwa [if_neg hlt, if_neg hlt] at this
    rw [this]

/-- Equal memories are equal data: canonical memories that read alike everywhere are the same list. -/
theorem ext {m m' : Memory} (hm : m.wf = true) (hm' : m'.wf = true) (h : ∀ a, m.read a = m'.read a) : m = m' :=
  ext_from hm hm' h

theorem wf_reset : State.reset.mem.wf = true := rfl

end Sys2Proof.Machine.Memory
end

