-- ==== Sys2Proof/Laws/State.lean ====
section
/-! SUPPORT. One lemma per field per update of the state, each true by `rfl`, so that no later proof unfolds an update. -/

namespace Sys2Proof.Machine

/-! ### `State.store` -/

@[simp] theorem State.store_cfg (s : State) (base : Nat) (bs : List Byte) : (s.store base bs).cfg = s.cfg := rfl
@[simp] theorem State.store_irqEn (s : State) (base : Nat) (bs : List Byte) : (s.store base bs).irqEn = s.irqEn := rfl
@[simp] theorem State.store_status (s : State) (base : Nat) (bs : List Byte) : (s.store base bs).status = s.status := rfl
@[simp] theorem State.store_cmd (s : State) (base : Nat) (bs : List Byte) : (s.store base bs).cmd = s.cmd := rfl
@[simp] theorem State.store_params (s : State) (base : Nat) (bs : List Byte) : (s.store base bs).params = s.params := rfl
@[simp] theorem State.store_chkResult (s : State) (base : Nat) (bs : List Byte) : (s.store base bs).chkResult = s.chkResult := rfl
@[simp] theorem State.store_errAddr (s : State) (base : Nat) (bs : List Byte) : (s.store base bs).errAddr = s.errAddr := rfl
@[simp] theorem State.store_acc (s : State) (base : Nat) (bs : List Byte) : (s.store base bs).acc = s.acc := rfl
@[simp] theorem State.store_eng (s : State) (base : Nat) (bs : List Byte) : (s.store base bs).eng = s.eng := rfl
@[simp] theorem State.store_mem (s : State) (base : Nat) (bs : List Byte) : (s.store base bs).mem = s.mem.writeRange base bs := rfl
@[simp] theorem State.store_resetHeld (s : State) (base : Nat) (bs : List Byte) : (s.store base bs).resetHeld = s.resetHeld := rfl
@[simp] theorem State.store_inputs (s : State) (base : Nat) (bs : List Byte) : (s.store base bs).inputs = s.inputs := rfl
@[simp] theorem State.store_resp (s : State) (base : Nat) (bs : List Byte) : (s.store base bs).resp = s.resp := rfl
@[simp] theorem State.store_draws (s : State) (base : Nat) (bs : List Byte) : (s.store base bs).draws = s.draws := rfl

/-! ### `State.scrambleRegion` -/

@[simp] theorem State.scrambleRegion_cfg (s : State) (r : Region) : (s.scrambleRegion r).cfg = s.cfg := rfl
@[simp] theorem State.scrambleRegion_irqEn (s : State) (r : Region) : (s.scrambleRegion r).irqEn = s.irqEn := rfl
@[simp] theorem State.scrambleRegion_status (s : State) (r : Region) : (s.scrambleRegion r).status = s.status := rfl
@[simp] theorem State.scrambleRegion_cmd (s : State) (r : Region) : (s.scrambleRegion r).cmd = s.cmd := rfl
@[simp] theorem State.scrambleRegion_params (s : State) (r : Region) : (s.scrambleRegion r).params = s.params := rfl
@[simp] theorem State.scrambleRegion_chkResult (s : State) (r : Region) : (s.scrambleRegion r).chkResult = s.chkResult := rfl
@[simp] theorem State.scrambleRegion_errAddr (s : State) (r : Region) : (s.scrambleRegion r).errAddr = s.errAddr := rfl
@[simp] theorem State.scrambleRegion_acc (s : State) (r : Region) : (s.scrambleRegion r).acc = s.acc := rfl
@[simp] theorem State.scrambleRegion_eng (s : State) (r : Region) : (s.scrambleRegion r).eng = s.eng := rfl
@[simp] theorem State.scrambleRegion_mem (s : State) (r : Region) : (s.scrambleRegion r).mem = s.mem.writeRange r.base (freeBytes s.draws r.len) := rfl
@[simp] theorem State.scrambleRegion_resetHeld (s : State) (r : Region) : (s.scrambleRegion r).resetHeld = s.resetHeld := rfl
@[simp] theorem State.scrambleRegion_inputs (s : State) (r : Region) : (s.scrambleRegion r).inputs = s.inputs := rfl
@[simp] theorem State.scrambleRegion_resp (s : State) (r : Region) : (s.scrambleRegion r).resp = s.resp := rfl
@[simp] theorem State.scrambleRegion_draws (s : State) (r : Region) : (s.scrambleRegion r).draws = s.draws + r.len := rfl

/-! ### `State.drawAcc` -/

@[simp] theorem State.drawAcc_cfg (s : State) : s.drawAcc.cfg = s.cfg := rfl
@[simp] theorem State.drawAcc_irqEn (s : State) : s.drawAcc.irqEn = s.irqEn := rfl
@[simp] theorem State.drawAcc_status (s : State) : s.drawAcc.status = s.status := rfl
@[simp] theorem State.drawAcc_cmd (s : State) : s.drawAcc.cmd = s.cmd := rfl
@[simp] theorem State.drawAcc_params (s : State) : s.drawAcc.params = s.params := rfl
@[simp] theorem State.drawAcc_chkResult (s : State) : s.drawAcc.chkResult = s.chkResult := rfl
@[simp] theorem State.drawAcc_errAddr (s : State) : s.drawAcc.errAddr = s.errAddr := rfl
@[simp] theorem State.drawAcc_acc (s : State) : s.drawAcc.acc = freeQuad s.draws := rfl
@[simp] theorem State.drawAcc_eng (s : State) : s.drawAcc.eng = s.eng := rfl
@[simp] theorem State.drawAcc_mem (s : State) : s.drawAcc.mem = s.mem := rfl
@[simp] theorem State.drawAcc_resetHeld (s : State) : s.drawAcc.resetHeld = s.resetHeld := rfl
@[simp] theorem State.drawAcc_inputs (s : State) : s.drawAcc.inputs = s.inputs := rfl
@[simp] theorem State.drawAcc_resp (s : State) : s.drawAcc.resp = s.resp := rfl
@[simp] theorem State.drawAcc_draws (s : State) : s.drawAcc.draws = s.draws + 4 := rfl

/-! ### `State.drawDigest` -/

@[simp] theorem State.drawDigest_cfg (s : State) : s.drawDigest.cfg = s.cfg := rfl
@[simp] theorem State.drawDigest_irqEn (s : State) : s.drawDigest.irqEn = s.irqEn := rfl
@[simp] theorem State.drawDigest_status (s : State) : s.drawDigest.status = { s.status with chkMismatch := Config.freeBool (s.draws + 5) } := rfl
@[simp] theorem State.drawDigest_cmd (s : State) : s.drawDigest.cmd = s.cmd := rfl
@[simp] theorem State.drawDigest_params (s : State) : s.drawDigest.params = s.params := rfl
@[simp] theorem State.drawDigest_chkResult (s : State) : s.drawDigest.chkResult = Config.freeWord (s.draws + 4) := rfl
@[simp] theorem State.drawDigest_errAddr (s : State) : s.drawDigest.errAddr = s.errAddr := rfl
@[simp] theorem State.drawDigest_acc (s : State) : s.drawDigest.acc = freeQuad s.draws := rfl
@[simp] theorem State.drawDigest_eng (s : State) : s.drawDigest.eng = s.eng := rfl
@[simp] theorem State.drawDigest_mem (s : State) : s.drawDigest.mem = s.mem := rfl
@[simp] theorem State.drawDigest_resetHeld (s : State) : s.drawDigest.resetHeld = s.resetHeld := rfl
@[simp] theorem State.drawDigest_inputs (s : State) : s.drawDigest.inputs = s.inputs := rfl
@[simp] theorem State.drawDigest_resp (s : State) : s.drawDigest.resp = s.resp := rfl
@[simp] theorem State.drawDigest_draws (s : State) : s.drawDigest.draws = s.draws + 6 := rfl

/-! ### `State.complete` -/

@[simp] theorem State.complete_cfg (s : State) : s.complete.cfg = s.cfg := rfl
@[simp] theorem State.complete_irqEn (s : State) : s.complete.irqEn = s.irqEn := rfl
@[simp] theorem State.complete_status (s : State) : s.complete.status = { s.status with done := true } := rfl
@[simp] theorem State.complete_cmd (s : State) : s.complete.cmd = s.cmd := rfl
@[simp] theorem State.complete_params (s : State) : s.complete.params = s.params := rfl
@[simp] theorem State.complete_chkResult (s : State) : s.complete.chkResult = s.chkResult := rfl
@[simp] theorem State.complete_errAddr (s : State) : s.complete.errAddr = s.errAddr := rfl
@[simp] theorem State.complete_acc (s : State) : s.complete.acc = s.acc := rfl
@[simp] theorem State.complete_eng (s : State) : s.complete.eng = .idle := rfl
@[simp] theorem State.complete_mem (s : State) : s.complete.mem = s.mem := rfl
@[simp] theorem State.complete_resetHeld (s : State) : s.complete.resetHeld = s.resetHeld := rfl
@[simp] theorem State.complete_inputs (s : State) : s.complete.inputs = s.inputs := rfl
@[simp] theorem State.complete_resp (s : State) : s.complete.resp = s.resp := rfl
@[simp] theorem State.complete_draws (s : State) : s.complete.draws = s.draws := rfl

/-! ### `State.raiseError` -/

@[simp] theorem State.raiseError_cfg (s : State) (e : ErrCode) (info : Word) : (s.raiseError e info).cfg = s.cfg := rfl
@[simp] theorem State.raiseError_irqEn (s : State) (e : ErrCode) (info : Word) : (s.raiseError e info).irqEn = s.irqEn := rfl
@[simp] theorem State.raiseError_status (s : State) (e : ErrCode) (info : Word) : (s.raiseError e info).status = { s.status with err := true, errCode := e } := rfl
@[simp] theorem State.raiseError_cmd (s : State) (e : ErrCode) (info : Word) : (s.raiseError e info).cmd = s.cmd := rfl
@[simp] theorem State.raiseError_params (s : State) (e : ErrCode) (info : Word) : (s.raiseError e info).params = s.params := rfl
@[simp] theorem State.raiseError_chkResult (s : State) (e : ErrCode) (info : Word) : (s.raiseError e info).chkResult = s.chkResult := rfl
@[simp] theorem State.raiseError_errAddr (s : State) (e : ErrCode) (info : Word) : (s.raiseError e info).errAddr = info := rfl
@[simp] theorem State.raiseError_acc (s : State) (e : ErrCode) (info : Word) : (s.raiseError e info).acc = s.acc := rfl
@[simp] theorem State.raiseError_eng (s : State) (e : ErrCode) (info : Word) : (s.raiseError e info).eng = .idle := rfl
@[simp] theorem State.raiseError_mem (s : State) (e : ErrCode) (info : Word) : (s.raiseError e info).mem = s.mem := rfl
@[simp] theorem State.raiseError_resetHeld (s : State) (e : ErrCode) (info : Word) : (s.raiseError e info).resetHeld = s.resetHeld := rfl
@[simp] theorem State.raiseError_inputs (s : State) (e : ErrCode) (info : Word) : (s.raiseError e info).inputs = s.inputs := rfl
@[simp] theorem State.raiseError_resp (s : State) (e : ErrCode) (info : Word) : (s.raiseError e info).resp = s.resp := rfl
@[simp] theorem State.raiseError_draws (s : State) (e : ErrCode) (info : Word) : (s.raiseError e info).draws = s.draws := rfl

/-! ### `State.acknowledge` -/

@[simp] theorem State.acknowledge_cfg (s : State) (v : Word) : (s.acknowledge v).cfg = s.cfg := rfl
@[simp] theorem State.acknowledge_irqEn (s : State) (v : Word) : (s.acknowledge v).irqEn = s.irqEn := rfl
@[simp] theorem State.acknowledge_status (s : State) (v : Word) : (s.acknowledge v).status = s.status.clear v := rfl
@[simp] theorem State.acknowledge_cmd (s : State) (v : Word) : (s.acknowledge v).cmd = s.cmd := rfl
@[simp] theorem State.acknowledge_params (s : State) (v : Word) : (s.acknowledge v).params = s.params := rfl
@[simp] theorem State.acknowledge_chkResult (s : State) (v : Word) : (s.acknowledge v).chkResult = s.chkResult := rfl
@[simp] theorem State.acknowledge_errAddr (s : State) (v : Word) : (s.acknowledge v).errAddr = s.errAddr := rfl
@[simp] theorem State.acknowledge_acc (s : State) (v : Word) : (s.acknowledge v).acc = s.acc := rfl
@[simp] theorem State.acknowledge_eng (s : State) (v : Word) : (s.acknowledge v).eng = s.eng := rfl
@[simp] theorem State.acknowledge_mem (s : State) (v : Word) : (s.acknowledge v).mem = s.mem := rfl
@[simp] theorem State.acknowledge_resetHeld (s : State) (v : Word) : (s.acknowledge v).resetHeld = s.resetHeld := rfl
@[simp] theorem State.acknowledge_inputs (s : State) (v : Word) : (s.acknowledge v).inputs = s.inputs := rfl
@[simp] theorem State.acknowledge_resp (s : State) (v : Word) : (s.acknowledge v).resp = s.resp := rfl
@[simp] theorem State.acknowledge_draws (s : State) (v : Word) : (s.acknowledge v).draws = s.draws := rfl

/-! ### `State.beginIssue` -/

@[simp] theorem State.beginIssue_cfg (s : State) (w : Word) : (s.beginIssue w).cfg = s.cfg := rfl
@[simp] theorem State.beginIssue_irqEn (s : State) (w : Word) : (s.beginIssue w).irqEn = s.irqEn := rfl
@[simp] theorem State.beginIssue_status (s : State) (w : Word) : (s.beginIssue w).status = { s.status with done := false, err := false, chkMismatch := false, errCode := .noError } := rfl
@[simp] theorem State.beginIssue_cmd (s : State) (w : Word) : (s.beginIssue w).cmd = w := rfl
@[simp] theorem State.beginIssue_params (s : State) (w : Word) : (s.beginIssue w).params = s.params := rfl
@[simp] theorem State.beginIssue_chkResult (s : State) (w : Word) : (s.beginIssue w).chkResult = s.chkResult := rfl
@[simp] theorem State.beginIssue_errAddr (s : State) (w : Word) : (s.beginIssue w).errAddr = 0 := rfl
@[simp] theorem State.beginIssue_acc (s : State) (w : Word) : (s.beginIssue w).acc = s.acc := rfl
@[simp] theorem State.beginIssue_eng (s : State) (w : Word) : (s.beginIssue w).eng = s.eng := rfl
@[simp] theorem State.beginIssue_mem (s : State) (w : Word) : (s.beginIssue w).mem = s.mem := rfl
@[simp] theorem State.beginIssue_resetHeld (s : State) (w : Word) : (s.beginIssue w).resetHeld = s.resetHeld := rfl
@[simp] theorem State.beginIssue_inputs (s : State) (w : Word) : (s.beginIssue w).inputs = s.inputs := rfl
@[simp] theorem State.beginIssue_resp (s : State) (w : Word) : (s.beginIssue w).resp = s.resp := rfl
@[simp] theorem State.beginIssue_draws (s : State) (w : Word) : (s.beginIssue w).draws = s.draws := rfl

/-! ### `State.accept` -/

@[simp] theorem State.accept_cfg (s : State) (i : Instr) : (s.accept i).cfg = s.cfg := rfl
@[simp] theorem State.accept_irqEn (s : State) (i : Instr) : (s.accept i).irqEn = s.irqEn := rfl
@[simp] theorem State.accept_status (s : State) (i : Instr) : (s.accept i).status = s.status := rfl
@[simp] theorem State.accept_cmd (s : State) (i : Instr) : (s.accept i).cmd = s.cmd := rfl
@[simp] theorem State.accept_params (s : State) (i : Instr) : (s.accept i).params = s.params := rfl
@[simp] theorem State.accept_chkResult (s : State) (i : Instr) : (s.accept i).chkResult = s.chkResult := rfl
@[simp] theorem State.accept_errAddr (s : State) (i : Instr) : (s.accept i).errAddr = s.errAddr := rfl
@[simp] theorem State.accept_acc (s : State) (i : Instr) : (s.accept i).acc = s.acc := rfl
@[simp] theorem State.accept_eng (s : State) (i : Instr) : (s.accept i).eng = .busy i s.params false := rfl
@[simp] theorem State.accept_mem (s : State) (i : Instr) : (s.accept i).mem = s.mem := rfl
@[simp] theorem State.accept_resetHeld (s : State) (i : Instr) : (s.accept i).resetHeld = s.resetHeld := rfl
@[simp] theorem State.accept_inputs (s : State) (i : Instr) : (s.accept i).inputs = s.inputs := rfl
@[simp] theorem State.accept_resp (s : State) (i : Instr) : (s.accept i).resp = s.resp := rfl
@[simp] theorem State.accept_draws (s : State) (i : Instr) : (s.accept i).draws = s.draws := rfl

/-! ### `State.dropWrite` -/

@[simp] theorem State.dropWrite_cfg (s : State) : s.dropWrite.cfg = s.cfg := rfl
@[simp] theorem State.dropWrite_irqEn (s : State) : s.dropWrite.irqEn = s.irqEn := rfl
@[simp] theorem State.dropWrite_status (s : State) : s.dropWrite.status = { s.status with wbusy := true } := rfl
@[simp] theorem State.dropWrite_cmd (s : State) : s.dropWrite.cmd = s.cmd := rfl
@[simp] theorem State.dropWrite_params (s : State) : s.dropWrite.params = s.params := rfl
@[simp] theorem State.dropWrite_chkResult (s : State) : s.dropWrite.chkResult = s.chkResult := rfl
@[simp] theorem State.dropWrite_errAddr (s : State) : s.dropWrite.errAddr = s.errAddr := rfl
@[simp] theorem State.dropWrite_acc (s : State) : s.dropWrite.acc = s.acc := rfl
@[simp] theorem State.dropWrite_eng (s : State) : s.dropWrite.eng = s.eng := rfl
@[simp] theorem State.dropWrite_mem (s : State) : s.dropWrite.mem = s.mem := rfl
@[simp] theorem State.dropWrite_resetHeld (s : State) : s.dropWrite.resetHeld = s.resetHeld := rfl
@[simp] theorem State.dropWrite_inputs (s : State) : s.dropWrite.inputs = s.inputs := rfl
@[simp] theorem State.dropWrite_resp (s : State) : s.dropWrite.resp = s.resp := rfl
@[simp] theorem State.dropWrite_draws (s : State) : s.dropWrite.draws = s.draws := rfl

/-! ### `State.respond` -/

@[simp] theorem State.respond_cfg (s : State) (r : Response) : (s.respond r).cfg = s.cfg := rfl
@[simp] theorem State.respond_irqEn (s : State) (r : Response) : (s.respond r).irqEn = s.irqEn := rfl
@[simp] theorem State.respond_status (s : State) (r : Response) : (s.respond r).status = s.status := rfl
@[simp] theorem State.respond_cmd (s : State) (r : Response) : (s.respond r).cmd = s.cmd := rfl
@[simp] theorem State.respond_params (s : State) (r : Response) : (s.respond r).params = s.params := rfl
@[simp] theorem State.respond_chkResult (s : State) (r : Response) : (s.respond r).chkResult = s.chkResult := rfl
@[simp] theorem State.respond_errAddr (s : State) (r : Response) : (s.respond r).errAddr = s.errAddr := rfl
@[simp] theorem State.respond_acc (s : State) (r : Response) : (s.respond r).acc = s.acc := rfl
@[simp] theorem State.respond_eng (s : State) (r : Response) : (s.respond r).eng = s.eng := rfl
@[simp] theorem State.respond_mem (s : State) (r : Response) : (s.respond r).mem = s.mem := rfl
@[simp] theorem State.respond_resetHeld (s : State) (r : Response) : (s.respond r).resetHeld = s.resetHeld := rfl
@[simp] theorem State.respond_inputs (s : State) (r : Response) : (s.respond r).inputs = s.inputs := rfl
@[simp] theorem State.respond_resp (s : State) (r : Response) : (s.respond r).resp = r := rfl
@[simp] theorem State.respond_draws (s : State) (r : Response) : (s.respond r).draws = s.draws := rfl

/-! ### `State.compareDigest` -/

@[simp] theorem State.compareDigest_cfg (s : State) : s.compareDigest.cfg = s.cfg := rfl
@[simp] theorem State.compareDigest_irqEn (s : State) : s.compareDigest.irqEn = s.irqEn := rfl
@[simp] theorem State.compareDigest_status (s : State) : s.compareDigest.status = { s.status with chkMismatch := s.status.chkMismatch || s.mismatch } := rfl
@[simp] theorem State.compareDigest_cmd (s : State) : s.compareDigest.cmd = s.cmd := rfl
@[simp] theorem State.compareDigest_params (s : State) : s.compareDigest.params = s.params := rfl
@[simp] theorem State.compareDigest_chkResult (s : State) : s.compareDigest.chkResult = s.chkResult := rfl
@[simp] theorem State.compareDigest_errAddr (s : State) : s.compareDigest.errAddr = s.errAddr := rfl
@[simp] theorem State.compareDigest_acc (s : State) : s.compareDigest.acc = s.acc := rfl
@[simp] theorem State.compareDigest_eng (s : State) : s.compareDigest.eng = s.eng := rfl
@[simp] theorem State.compareDigest_mem (s : State) : s.compareDigest.mem = s.mem := rfl
@[simp] theorem State.compareDigest_resetHeld (s : State) : s.compareDigest.resetHeld = s.resetHeld := rfl
@[simp] theorem State.compareDigest_inputs (s : State) : s.compareDigest.inputs = s.inputs := rfl
@[simp] theorem State.compareDigest_resp (s : State) : s.compareDigest.resp = s.resp := rfl
@[simp] theorem State.compareDigest_draws (s : State) : s.compareDigest.draws = s.draws := rfl

end Sys2Proof.Machine
end

