-- ==== Sys2Proof/Laws/Ops.lean ====
section
/-! SUPPORT. What each shared operation can do, said once: regions, free values, the engine's bus, the ends of a command,
the frame of every body, and reset. -/

namespace Sys2Proof

/-! ### Regions -/

theorem Region.contains_iff {r : Region} {a : Nat} : r.contains a = true ↔ r.base ≤ a ∧ a < r.base + r.len := by
  simp [Region.contains]

theorem Region.contains_eq_false {r : Region} {a : Nat} :
    r.contains a = false ↔ ¬(r.base ≤ a ∧ a < r.base + r.len) := by
  rw [← Region.contains_iff, Bool.not_eq_true]

theorem Region.mem_addresses {r : Region} {a : Nat} : a ∈ r.addresses ↔ r.base ≤ a ∧ a < r.base + r.len := by
  simp only [Region.addresses, List.mem_map, List.mem_range]
  constructor
  · rintro ⟨k, hk, rfl⟩
    omega
  · intro h
    exact ⟨a - r.base, by omega, by omega⟩

theorem Region.inRange_iff {c : Config} {r : Region} :
    r.inRange c = true ↔ r.len = 0 ∨ r.base + r.len ≤ 2 ^ c.addrW := by
  simp [Region.inRange]

@[simp] theorem Region.anyContains_nil (a : Nat) : Region.anyContains [] a = false := rfl

@[simp] theorem Region.anyContains_cons (r : Region) (rs : List Region) (a : Nat) :
    Region.anyContains (r :: rs) a = (r.contains a || Region.anyContains rs a) := rfl

/-- A written region is one of the command's regions. -/
theorem Instr.writtenRegions_subset {i : Instr} {o : Machine.Operands} {r : Region} (h : r ∈ i.writtenRegions o) :
    r ∈ i.regions o := by
  cases i <;> simp only [Instr.writtenRegions, Instr.regions] at h ⊢ <;> simp_all
  split at h <;> simp_all

namespace Machine

/-! ### Memory as bytes -/

theorem length_freeBytes (draws n : Nat) : (freeBytes draws n).length = n := by simp [freeBytes]

theorem getD_freeBytes (draws : Nat) {n k : Nat} (h : k < n) :
    (freeBytes draws n).getD k 0 = Config.freeByte (draws + k) := by
  simp [freeBytes, List.getD_eq_getElem?_getD, h]

/-! ### Unspecified regions -/

/-- Scrambling changes memory and the draw counter only. -/
theorem State.scramble_frame : ∀ (rs : List Region) (s : State),
    s.scramble rs = { s with mem := (s.scramble rs).mem, draws := (s.scramble rs).draws }
  | [], _ => rfl
  | r :: rs, s => by
    rw [State.scramble, State.scramble_frame rs (s.scrambleRegion r)]
    rfl

@[simp] theorem State.scramble_cfg (s : State) (rs : List Region) : (s.scramble rs).cfg = s.cfg := by
  rw [State.scramble_frame]
@[simp] theorem State.scramble_irqEn (s : State) (rs : List Region) : (s.scramble rs).irqEn = s.irqEn := by
  rw [State.scramble_frame]
@[simp] theorem State.scramble_status (s : State) (rs : List Region) : (s.scramble rs).status = s.status := by
  rw [State.scramble_frame]
@[simp] theorem State.scramble_cmd (s : State) (rs : List Region) : (s.scramble rs).cmd = s.cmd := by
  rw [State.scramble_frame]
@[simp] theorem State.scramble_params (s : State) (rs : List Region) : (s.scramble rs).params = s.params := by
  rw [State.scramble_frame]
@[simp] theorem State.scramble_chkResult (s : State) (rs : List Region) :
    (s.scramble rs).chkResult = s.chkResult := by
  rw [State.scramble_frame]
@[simp] theorem State.scramble_errAddr (s : State) (rs : List Region) : (s.scramble rs).errAddr = s.errAddr := by
  rw [State.scramble_frame]
@[simp] theorem State.scramble_acc (s : State) (rs : List Region) : (s.scramble rs).acc = s.acc := by
  rw [State.scramble_frame]
@[simp] theorem State.scramble_eng (s : State) (rs : List Region) : (s.scramble rs).eng = s.eng := by
  rw [State.scramble_frame]
@[simp] theorem State.scramble_resetHeld (s : State) (rs : List Region) :
    (s.scramble rs).resetHeld = s.resetHeld := by
  rw [State.scramble_frame]
@[simp] theorem State.scramble_inputs (s : State) (rs : List Region) : (s.scramble rs).inputs = s.inputs := by
  rw [State.scramble_frame]
@[simp] theorem State.scramble_resp (s : State) (rs : List Region) : (s.scramble rs).resp = s.resp := by
  rw [State.scramble_frame]

theorem State.scramble_wf : ∀ (rs : List Region) {s : State}, s.mem.wf = true → (s.scramble rs).mem.wf = true
  | [], _, h => h
  | _ :: rs, _, h => State.scramble_wf rs (Memory.wf_writeRange _ _ h)

theorem State.scramble_draws_le : ∀ (rs : List Region) (s : State), s.draws ≤ (s.scramble rs).draws
  | [], _ => Nat.le_refl _
  | r :: rs, s => (Nat.le_add_right _ r.len).trans (State.scramble_draws_le rs (s.scrambleRegion r))

/-- Outside the scrambled regions every byte is kept. -/
theorem State.scramble_read_outside : ∀ (rs : List Region) {s : State} {a : Nat}, s.mem.wf = true →
    Region.anyContains rs a = false → (s.scramble rs).mem.read a = s.mem.read a
  | [], _, _, _, _ => rfl
  | r :: rs, s, a, hm, ha => by
    rw [Region.anyContains_cons, Bool.or_eq_false_iff, Region.contains_eq_false] at ha
    rw [State.scramble, State.scramble_read_outside rs (Memory.wf_writeRange _ _ hm) ha.2, State.scrambleRegion_mem,
      Memory.read_writeRange _ _ _ hm, length_freeBytes, if_neg ha.1]

/-- Inside them every byte is a free value of its own. -/
theorem State.scramble_fresh (rs : List Region) : ∀ {s : State}, s.mem.wf = true → s.FreshBytes (s.scramble rs) rs := by
  induction rs with
  | nil => exact fun _ => ⟨id, fun _ h => absurd h Bool.false_ne_true⟩
  | cons r rs ih =>
    intro s hm
    have hm' : (s.scrambleRegion r).mem.wf = true := Memory.wf_writeRange _ _ hm
    obtain ⟨d, hd⟩ := ih hm'
    have hle := State.scramble_draws_le rs (s.scrambleRegion r)
    rw [State.scrambleRegion_draws] at hle
    have later : ∀ {a}, Region.anyContains rs a = true → s.draws + r.len ≤ d a := fun h => (hd _ h).1
    have first : ∀ {a}, Region.anyContains (r :: rs) a = true → Region.anyContains rs a = false →
        r.base ≤ a ∧ a < r.base + r.len := by
      intro a ha hrs
      rwa [Region.anyContains_cons, hrs, Bool.or_false, Region.contains_iff] at ha
    refine ⟨fun a => if Region.anyContains rs a = true then d a else s.draws + (a - r.base), fun a ha => ?_⟩
    rw [State.scramble]
    dsimp only
    by_cases hrs : Region.anyContains rs a = true
    · obtain ⟨h1, h2, h3, h4⟩ := hd a hrs
      rw [if_pos hrs]
      refine ⟨(Nat.le_add_right _ _).trans h1, h2, h3, fun b hb e => ?_⟩
      by_cases hbs : Region.anyContains rs b = true
      · exact h4 b hbs (by rwa [if_pos hbs] at e)
      · rw [if_neg hbs] at e
        have := first hb (Bool.not_eq_true _ ▸ hbs)
        have := later hrs
        omega
    · rw [if_neg hrs]
      have hin := first ha (Bool.not_eq_true _ ▸ hrs)
      refine ⟨Nat.le_add_right _ _, by omega, ?_, fun b hb e => ?_⟩
      · rw [State.scramble_read_outside rs hm' (Bool.not_eq_true _ ▸ hrs), State.scrambleRegion_mem,
          Memory.read_writeRange _ _ _ hm, length_freeBytes, if_pos hin, getD_freeBytes _ (by omega)]
      · by_cases hbs : Region.anyContains rs b = true
        · rw [if_pos hbs] at e
          have := later hbs
          omega
        · rw [if_neg hbs] at e
          have := first hb (Bool.not_eq_true _ ▸ hbs)
          omega

/-- Free bytes drawn in the middle of a longer way are free bytes of the whole. -/
theorem State.FreshBytes.widen {s s' t t' : State} {rs : List Region} (h : s'.FreshBytes t' rs)
    (h1 : s.draws ≤ s'.draws) (h2 : t'.draws ≤ t.draws) (hm : t.mem = t'.mem) : s.FreshBytes t rs := by
  obtain ⟨d, hd⟩ := h
  refine ⟨d, fun a ha => ?_⟩
  obtain ⟨h3, h4, h5, h6⟩ := hd a ha
  exact ⟨h1.trans h3, h4.trans_le h2, by rw [hm, h5], h6⟩

theorem State.scramble_below {bound : Nat} (rs : List Region) : ∀ {s : State},
    (∀ r ∈ rs, r.len = 0 ∨ r.base + r.len ≤ bound) → s.mem.below bound = true →
    (s.scramble rs).mem.below bound = true := by
  induction rs with
  | nil => exact fun _ h => h
  | cons r rs ih =>
    intro s hr h
    rw [State.scramble]
    refine ih (fun q hq => hr q (List.mem_cons_of_mem _ hq)) ?_
    rw [State.scrambleRegion_mem]
    rcases hr r List.mem_cons_self with h0 | hle
    · rw [h0]
      exact h
    · exact Memory.below_writeRange _ _ (by rw [length_freeBytes]; exact hle) h

@[simp] theorem State.settle_of_not_raced {s : State} (h : s.raced = false) (rs : List Region) : s.settle rs = s := by
  simp [State.settle, h]

theorem State.settle_of_raced {s : State} (h : s.raced = true) (rs : List Region) : s.settle rs = s.scramble rs := by
  simp [State.settle, h]

/-! ### Operands and race, which only the engine field and the registers decide -/

theorem State.operands_congr {s t : State} (he : t.eng = s.eng) (hp : t.params = s.params) :
    t.operands = s.operands := by
  simp [State.operands, he, hp]

theorem State.raced_congr {s t : State} (he : t.eng = s.eng) : t.raced = s.raced := by
  simp [State.raced, he]

theorem State.operands_of_idle {s : State} (h : s.eng = .idle) : s.operands = s.params := by
  simp [State.operands, h]

theorem State.operands_of_busy {s : State} {i o r} (h : s.eng = .busy i o r) : s.operands = o := by
  simp [State.operands, h]

theorem State.raced_of_idle {s : State} (h : s.eng = .idle) : s.raced = false := by
  simp [State.raced, h]

theorem State.isBusy_iff {s : State} : s.isBusy = true ↔ ∃ i o r, s.eng = .busy i o r := by
  unfold State.isBusy
  split <;> simp_all

theorem State.isBusy_eq_false {s : State} : s.isBusy = false ↔ s.eng = .idle := by
  unfold State.isBusy
  split <;> simp_all

/-! ### The engine's bus -/

/-- The address reported is one at which an access fails or may fail. -/
theorem State.failedAddress_mem {s : State} {a : Accesses} (h : a.failing s.cfg ++ a.mayFail s.cfg ≠ []) :
    s.failedAddress a ∈ a.failing s.cfg ++ a.mayFail s.cfg := by
  have hp : ∀ (n : Nat) (l : List Nat), l ≠ [] → pick n l ∈ l := by
    intro n l hl
    match l with
    | [x] => simp [pick]
    | x :: y :: rest =>
      rw [pick, List.getD_eq_getElem?_getD, List.getElem?_eq_getElem (Nat.mod_lt _ (by simp)), Option.getD_some]
      exact List.getElem_mem _
  exact hp _ _ h

/-- What a phase's accesses can come to: all done with nothing drawn when none can fail; all done with one draw when only
accesses left open could fail and the draw says no; or an end at an address that fails, with one draw. -/
theorem State.tryAccesses_cases (s : State) (a : Accesses) :
    (a.failing s.cfg = [] ∧ a.mayFail s.cfg = [] ∧ s.tryAccesses a = (none, s)) ∨
    (a.failing s.cfg = [] ∧ a.mayFail s.cfg ≠ [] ∧ Config.freeBool s.draws = false ∧
      s.tryAccesses a = (none, { s with draws := s.draws + 1 })) ∨
    (∃ addr ∈ a.failing s.cfg ++ a.mayFail s.cfg, (a.failing s.cfg = [] → Config.freeBool s.draws = true) ∧
      s.tryAccesses a = (some addr, { s with draws := s.draws + 1 })) := by
  unfold State.tryAccesses
  split
  · left
    rename_i h
    simpa using h
  · split
    · right; left
      rename_i h h'
      exact ⟨h'.1, by simpa [h'.1] using h, h'.2, rfl⟩
    · right; right
      rename_i h h'
      exact ⟨_, State.failedAddress_mem h, fun hf => by simpa [hf] using h', rfl⟩

/-- Nothing can fail: the accesses are done and nothing is drawn. -/
theorem State.tryAccesses_ok {s : State} {a : Accesses} (h : a.failing s.cfg = []) (h' : a.mayFail s.cfg = []) :
    s.tryAccesses a = (none, s) := by
  simp [State.tryAccesses, h, h']

/-- An access the rule makes fails: the command ends at a failing address. -/
theorem State.tryAccesses_fails {s : State} {a : Accesses} (h : a.failing s.cfg ≠ []) :
    ∃ addr ∈ a.failing s.cfg ++ a.mayFail s.cfg,
      s.tryAccesses a = (some addr, { s with draws := s.draws + 1 }) := by
  rcases s.tryAccesses_cases a with h1 | h1 | h1
  · exact absurd h1.1 h
  · exact absurd h1.1 h
  · obtain ⟨addr, ha, _, e⟩ := h1
    exact ⟨addr, ha, e⟩

/-- DECODE's failing accesses are those of its two phases. -/
theorem failing_decode (delta fatal : Bool) (o : Operands) (c : Config) :
    (accessesOf (.decode delta fatal) o).failing c = o.decodeReads.failing c ++ (o.decodeWrites delta).failing c := by
  simp [accessesOf, Accesses.failing, Operands.decodeReads, Operands.decodeWrites]

/-- Every address an access list can fail at lies in a region of the command. -/
theorem failing_in_regions {i : Instr} {o : Operands} {c : Config} {a : Nat}
    (h : a ∈ (accessesOf i o).failing c ++ (accessesOf i o).mayFail c) : Region.anyContains (i.regions o) a = true := by
  have seed : ∀ {c : Nat}, c < o.C → 0 < o.P → c * o.P + o.P ≤ o.N := by
    intro c hc _
    calc c * o.P + o.P = (c + 1) * o.P := by ring
      _ ≤ o.C * o.P := Nat.mul_le_mul_right _ hc
  have filt : ∀ {x : Nat}, x ∈ o.filteredAddresses → o.src.toNat ≤ x ∧ x < o.src.toNat + o.N := by
    intro x hx
    simp only [Operands.filteredAddresses, List.mem_flatMap, List.mem_map, List.mem_range] at hx
    obtain ⟨c, hc, k, hk, rfl⟩ := hx
    have := seed hc (by omega)
    omega
  cases i <;>
    simp only [accessesOf, Operands.copyAccesses, Operands.filterAccesses, Operands.digestAccesses,
      Operands.encodeAccesses, Operands.decodeWrites, Accesses.failing, Accesses.mayFail, List.mem_append,
      List.mem_filter, List.filter_nil, List.not_mem_nil, or_false, false_or, Region.mem_addresses, Instr.regions,
      Region.anyContains_cons, Region.anyContains_nil, Bool.or_false, Bool.or_eq_true, Region.contains_iff] at h ⊢
  case split => rcases h with h | h <;> [exact .inl h.1; exact .inr h.1]
  case merge => rcases h with h | h <;> [exact .inl h.1; exact .inr h.1]
  case csum => exact h.1
  case encode => rcases h with (h | h) | h <;> [exact .inl h.1; exact .inr h.1; exact .inr h.1]
  case decode =>
    rcases h with h | h
    · exact .inl h.1
    · rcases h.1 with h | h
      · split at h <;> simp_all [Region.mem_addresses]
      · exact .inr h
  all_goals
    rcases h with (h | h) | h
    · exact h.1
    · exact filt h.1
    · have hx := h.1
      rw [Operands.seedAddresses] at hx
      split at hx
      · exact absurd hx List.not_mem_nil
      · simp only [List.mem_map, List.mem_range] at hx
        obtain ⟨c, hc, rfl⟩ := hx
        have := seed hc (by omega)
        simp only [Operands.srcRegion]
        omega

/-! ### Reset -/

/-- The state a reset leaves: every register at its reset value, the engine IDLE (R53). -/
theorem State.resetBlock_frame (s : State) :
    s.resetBlock = { s with
      irqEn := false, status := Status.atReset, cmd := 0, params := Operands.atReset s.cfg, chkResult := 0, errAddr := 0
      acc := s.resetBlock.acc, eng := .idle, mem := s.resetBlock.mem, draws := s.resetBlock.draws } := by
  unfold State.resetBlock
  cases h : s.eng <;> simp

@[simp] theorem State.resetBlock_cfg (s : State) : s.resetBlock.cfg = s.cfg := by rw [s.resetBlock_frame]
@[simp] theorem State.resetBlock_resetHeld (s : State) : s.resetBlock.resetHeld = s.resetHeld := by
  rw [s.resetBlock_frame]
@[simp] theorem State.resetBlock_inputs (s : State) : s.resetBlock.inputs = s.inputs := by rw [s.resetBlock_frame]
@[simp] theorem State.resetBlock_params (s : State) : s.resetBlock.params = Operands.atReset s.cfg := by
  rw [s.resetBlock_frame]
@[simp] theorem State.resetBlock_eng (s : State) : s.resetBlock.eng = .idle := rfl
@[simp] theorem State.resetBlock_status (s : State) : s.resetBlock.status = Status.atReset := rfl
@[simp] theorem State.resetBlock_irqEn (s : State) : s.resetBlock.irqEn = false := rfl
@[simp] theorem State.resetBlock_chkResult (s : State) : s.resetBlock.chkResult = 0 := rfl
@[simp] theorem State.resetBlock_errAddr (s : State) : s.resetBlock.errAddr = 0 := rfl
@[simp] theorem State.resetBlock_cmd (s : State) : s.resetBlock.cmd = 0 := rfl

/-- A reset of an IDLE block changes no memory (R263). -/
theorem State.resetBlock_mem_of_idle {s : State} (h : s.eng = .idle) : s.resetBlock.mem = s.mem := by
  simp [State.resetBlock, h]

/-- A reset of a BUSY block leaves the running command's written regions unspecified (R263). -/
theorem State.resetBlock_mem_of_busy {s : State} {i : Instr} {o : Operands} {r : Bool} (h : s.eng = .busy i o r) :
    s.resetBlock.mem = (s.scramble (i.writtenRegions o)).mem := by
  simp [State.resetBlock, h]

end Machine

end Sys2Proof
end

