-- ==== Sys2Proof/Laws/Transforms.lean ====
section
/-! SUPPORT. The list functions of the commands, element by element: lengths, what stands at each position of a split, a
merge, and a filtered plane set. -/

namespace Sys2Proof.Machine

/-! ### Planarizer -/

@[simp] theorem length_splitBytes (C P : Nat) (I : List Byte) : (splitBytes C P I).length = C * P := by
  simp [splitBytes]

@[simp] theorem length_mergeBytes (C P : Nat) (S : List Byte) : (mergeBytes C P S).length = C * P := by
  simp [mergeBytes]

theorem plane_index_lt {C P c i : Nat} (hc : c < C) (hi : i < P) : c * P + i < C * P := by
  calc c * P + i < c * P + P := by omega
    _ = (c + 1) * P := by ring
    _ ≤ C * P := Nat.mul_le_mul_right _ hc

theorem pixel_index_lt {C P c i : Nat} (hc : c < C) (hi : i < P) : i * C + c < C * P := by
  rw [Nat.mul_comm C P]
  exact plane_index_lt hi hc

/-- Position `c·P + i` of a split holds byte `i·C + c` of the image. -/
theorem getD_splitBytes {C P c i : Nat} (I : List Byte) (hc : c < C) (hi : i < P) :
    (splitBytes C P I).getD (c * P + i) 0 = I.getD (i * C + c) 0 := by
  have h := plane_index_lt hc hi
  have hP : 0 < P := by omega
  rw [splitBytes, List.getD_eq_getElem?_getD, List.getElem?_map, List.getElem?_range h, Option.map_some,
    Option.getD_some, Nat.mul_add_mod_of_lt hi, Nat.mul_comm c P, Nat.mul_add_div hP, Nat.div_eq_of_lt hi,
    Nat.add_zero]

/-- Position `i·C + c` of a merge holds byte `c·P + i` of the plane set. -/
theorem getD_mergeBytes {C P c i : Nat} (S : List Byte) (hc : c < C) (hi : i < P) :
    (mergeBytes C P S).getD (i * C + c) 0 = S.getD (c * P + i) 0 := by
  have h := pixel_index_lt hc hi
  have hC : 0 < C := by omega
  rw [mergeBytes, List.getD_eq_getElem?_getD, List.getElem?_map, List.getElem?_range h, Option.map_some,
    Option.getD_some, Nat.mul_add_mod_of_lt hc, Nat.mul_comm i C, Nat.mul_add_div hC, Nat.div_eq_of_lt hc,
    Nat.add_zero]

/-! ### Delta filter -/

@[simp] theorem length_differences : ∀ (prev : Byte) (xs : List Byte), (differences prev xs).length = xs.length
  | _, [] => rfl
  | _, x :: xs => by simp [differences, length_differences x xs]

@[simp] theorem length_runningSums : ∀ (prev : Byte) (ys : List Byte), (runningSums prev ys).length = ys.length
  | _, [] => rfl
  | prev, y :: ys => by simp [runningSums, length_runningSums (y + prev) ys]

@[simp] theorem length_fwdPlane (x : List Byte) : (fwdPlane x).length = x.length := by
  cases x <;> simp [fwdPlane]

@[simp] theorem length_invPlane (y : List Byte) : (invPlane y).length = y.length := by
  cases y <;> simp [invPlane]

theorem getD_differences : ∀ (xs : List Byte) (prev : Byte) (i : Nat), i < xs.length →
    (differences prev xs).getD i 0 = xs.getD i 0 - (prev :: xs).getD i 0
  | _ :: _, _, 0, _ => rfl
  | x :: xs, _, i + 1, h => by
    have := getD_differences xs x i (by simpa using h)
    simpa only [differences, List.getD_cons_succ] using this

/-- A forward-filtered plane: sample 0 verbatim, each later one the difference from the original before it. -/
theorem getD_fwdPlane {x : List Byte} {i : Nat} (h : i < x.length) :
    (fwdPlane x).getD i 0 = if i = 0 then x.getD 0 0 else x.getD i 0 - x.getD (i - 1) 0 := by
  match x, i, h with
  | _ :: _, 0, _ => rfl
  | x :: xs, i + 1, h =>
    simpa only [fwdPlane, List.getD_cons_succ, if_neg (Nat.succ_ne_zero i), Nat.add_sub_cancel] using
      getD_differences xs x i (by simpa using h)

theorem getD_runningSums : ∀ (ys : List Byte) (prev : Byte) (i : Nat), i < ys.length →
    (runningSums prev ys).getD i 0 = ys.getD i 0 + (prev :: runningSums prev ys).getD i 0
  | _ :: _, _, 0, _ => rfl
  | y :: ys, prev, i + 1, h => by
    have := getD_runningSums ys (y + prev) i (by simpa using h)
    simpa only [runningSums, List.getD_cons_succ] using this

/-- An inverse-filtered plane: sample 0 verbatim, each later one added to the restored one before it. -/
theorem getD_invPlane {y : List Byte} {i : Nat} (h : i < y.length) :
    (invPlane y).getD i 0 = if i = 0 then y.getD 0 0 else y.getD i 0 + (invPlane y).getD (i - 1) 0 := by
  match y, i, h with
  | _ :: _, 0, _ => rfl
  | y :: ys, i + 1, h =>
    simpa only [invPlane, List.getD_cons_succ, if_neg (Nat.succ_ne_zero i), Nat.add_sub_cancel] using
      getD_runningSums ys y i (by simpa using h)

/-! ### Plane sets -/

theorem length_mapPlanes {f : List Byte → List Byte} (hf : ∀ x, (f x).length = x.length) (P : Nat) :
    ∀ (C : Nat) (S : List Byte), S.length = C * P → (mapPlanes f P C S).length = C * P
  | 0, _, _ => by simp [mapPlanes]
  | c + 1, S, h => by
    have hs : (c + 1) * P = c * P + P := by ring
    rw [mapPlanes, List.length_append, hf, List.length_take, length_mapPlanes hf P c _ (by rw [List.length_drop]; omega)]
    omega

/-- Sample i of plane c of a mapped plane set is sample i of the mapped plane c. -/
theorem getD_mapPlanes {f : List Byte → List Byte} (hf : ∀ x, (f x).length = x.length) {P i : Nat} (hi : i < P) :
    ∀ (C : Nat) (S : List Byte) (c : Nat), S.length = C * P → c < C →
      (mapPlanes f P C S).getD (c * P + i) 0 = (f ((S.drop (c * P)).take P)).getD i 0
  | C + 1, S, c, hS, hc => by
    have hs : (C + 1) * P = C * P + P := by ring
    have hl : (f (S.take P)).length = P := by rw [hf, List.length_take]; omega
    rw [mapPlanes]
    match c with
    | 0 => rw [Nat.zero_mul, Nat.zero_add, List.drop_zero, List.getD_append _ _ _ _ (by omega)]
    | c + 1 =>
      have hs' : (c + 1) * P = c * P + P := by ring
      rw [List.getD_append_right _ _ _ _ (by omega), hl, show (c + 1) * P + i - P = c * P + i by omega,
        getD_mapPlanes hf hi C (S.drop P) c (by rw [List.length_drop]; omega) (by omega), List.drop_drop,
        show P + c * P = (c + 1) * P by omega]

theorem getD_plane (S : List Byte) {c P i : Nat} (hi : i < P) :
    ((S.drop (c * P)).take P).getD i 0 = S.getD (c * P + i) 0 := by
  simp [List.getD_eq_getElem?_getD, hi]

theorem length_plane {S : List Byte} {C P c : Nat} (hS : S.length = C * P) (hc : c < C) :
    ((S.drop (c * P)).take P).length = P := by
  have : c * P + P ≤ C * P := by
    calc c * P + P = (c + 1) * P := by ring
      _ ≤ C * P := Nat.mul_le_mul_right _ hc
  rw [List.length_take, List.length_drop]
  omega

@[simp] theorem length_fwdBytes {C P : Nat} {S : List Byte} (h : S.length = C * P) :
    (fwdBytes C P S).length = C * P := length_mapPlanes length_fwdPlane P C S h

@[simp] theorem length_invBytes {C P : Nat} {S : List Byte} (h : S.length = C * P) :
    (invBytes C P S).length = C * P := length_mapPlanes length_invPlane P C S h

/-- A forward-filtered plane set, sample by sample. -/
theorem getD_fwdBytes {C P c i : Nat} {S : List Byte} (hS : S.length = C * P) (hc : c < C) (hi : i < P) :
    (fwdBytes C P S).getD (c * P + i) 0 =
      if i = 0 then S.getD (c * P) 0 else S.getD (c * P + i) 0 - S.getD (c * P + (i - 1)) 0 := by
  rw [fwdBytes, getD_mapPlanes length_fwdPlane hi C S c hS hc, getD_fwdPlane (by rw [length_plane hS hc]; exact hi),
    getD_plane S hi, getD_plane S (show 0 < P by omega), getD_plane S (show i - 1 < P by omega), Nat.add_zero]

/-- An inverse-filtered plane set, sample by sample. -/
theorem getD_invBytes {C P c i : Nat} {S : List Byte} (hS : S.length = C * P) (hc : c < C) (hi : i < P) :
    (invBytes C P S).getD (c * P + i) 0 =
      if i = 0 then S.getD (c * P) 0
      else S.getD (c * P + i) 0 + (invBytes C P S).getD (c * P + (i - 1)) 0 := by
  have hi' : i - 1 < P := by omega
  rw [invBytes, getD_mapPlanes length_invPlane hi C S c hS hc, getD_mapPlanes length_invPlane hi' C S c hS hc,
    getD_invPlane (by rw [length_plane hS hc]; exact hi), getD_plane S hi, getD_plane S (show 0 < P by omega),
    Nat.add_zero]

/-! ### Fused -/

@[simp] theorem length_encodedPlanes (delta : Bool) (C P : Nat) (I : List Byte) :
    (encodedPlanes delta C P I).length = C * P := by
  cases delta <;> simp [encodedPlanes]

@[simp] theorem length_restoredPlanes (delta : Bool) {C P : Nat} {S : List Byte} (h : S.length = C * P) :
    (restoredPlanes delta C P S).length = C * P := by
  cases delta <;> simp [restoredPlanes, h]

/-- Two lists of C · P bytes with the same plane samples are equal. -/
theorem planes_ext {C P : Nat} {S T : List Byte} (hS : S.length = C * P) (hT : T.length = C * P)
    (h : ∀ c < C, ∀ i < P, S.getD (c * P + i) 0 = T.getD (c * P + i) 0) : S = T := by
  apply List.ext_getElem (hS.trans hT.symm)
  intro k h1 h2
  have hP : 0 < P := by
    rcases Nat.eq_zero_or_pos P with h0 | h0
    · subst h0; omega
    · exact h0
  have hk := h (k / P) (by rw [Nat.div_lt_iff_lt_mul hP]; omega) (k % P) (Nat.mod_lt _ hP)
  rw [Nat.mul_comm (k / P) P, Nat.div_add_mod] at hk
  simpa [List.getD_eq_getElem?_getD, h1, h2] using hk

end Sys2Proof.Machine
end

