-- ==== Sys2Proof/Laws/Bodies.lean ====
section
/-! SUPPORT. Everything a command's body can do, said once. `Within` relates the state a body starts from to one in its
course; every shared operation keeps it; the two ends turn it into `EndsAs`, and every body ends so
(`exec_next_endsAs`). -/

namespace Sys2Proof.Machine

/-- In the course of command `i`'s body from `s`: only memory inside the written regions, the digest registers and the
free values have changed, and the digest registers only if the command computes a digest. -/
structure Within (i : Instr) (s u : State) : Prop where
  frame : u = { s with
    mem := u.mem, chkResult := u.chkResult, acc := u.acc, draws := u.draws
    status := { s.status with chkMismatch := u.status.chkMismatch } }
  outside : s.mem.wf = true → ∀ a, s.mayChange i a = false → u.mem.read a = s.mem.read a
  wf : s.mem.wf = true → u.mem.wf = true
  below : ∀ bound, (∀ r ∈ i.regions s.operands, r.len = 0 ∨ r.base + r.len ≤ bound) → s.mem.below bound = true →
    u.mem.below bound = true
  digest : i.digests = false → u.chkResult = s.chkResult ∧ u.status.chkMismatch = s.status.chkMismatch
  draws : s.draws ≤ u.draws

namespace Within

theorem refl (i : Instr) (s : State) : Within i s s :=
  ⟨rfl, fun _ _ _ => rfl, id, fun _ _ h => h, fun _ => ⟨rfl, rfl⟩, Nat.le_refl _⟩

variable {i : Instr} {s u : State}

theorem eng (h : Within i s u) : u.eng = s.eng := by rw [h.frame]
theorem params (h : Within i s u) : u.params = s.params := by rw [h.frame]
theorem cfg (h : Within i s u) : u.cfg = s.cfg := by rw [h.frame]
theorem operands (h : Within i s u) : u.operands = s.operands := State.operands_congr h.eng h.params
theorem raced (h : Within i s u) : u.raced = s.raced := State.raced_congr h.eng

/-- A change of memory that stays inside the written regions. -/
theorem withMem (h : Within i s u) {m : Memory} {n : Nat}
    (ho : u.mem.wf = true → ∀ a, s.mayChange i a = false → m.read a = u.mem.read a)
    (hw : u.mem.wf = true → m.wf = true)
    (hb : ∀ bound, (∀ r ∈ i.regions s.operands, r.len = 0 ∨ r.base + r.len ≤ bound) → u.mem.below bound = true →
      m.below bound = true) (hn : u.draws ≤ n) :
    Within i s { u with mem := m, draws := n } where
  frame := by
    rw [h.frame]
  outside hm a ha := (ho (h.wf hm) a ha).trans (h.outside hm a ha)
  wf hm := hw (h.wf hm)
  below bound hr hm := hb bound hr (h.below bound hr hm)
  digest := h.digest
  draws := h.draws.trans hn

/-- Bytes stored into a written region. -/
theorem store (h : Within i s u) {r : Region} (hr : r ∈ i.writtenRegions s.operands) {bs : List Byte}
    (hl : bs.length = r.len) : Within i s (u.store r.base bs) := by
  refine h.withMem (n := u.draws) ?_ (Memory.wf_writeRange _ _) ?_ (Nat.le_refl _)
  · intro hm a ha
    rw [Memory.read_writeRange _ _ _ hm, if_neg]
    rw [hl, ← Region.contains_iff]
    intro hc
    have : Region.anyContains (i.writtenRegions s.operands) a = true := List.any_eq_true.mpr ⟨r, hr, hc⟩
    rw [State.mayChange, this] at ha
    exact Bool.noConfusion ha
  · intro bound hb hm
    rcases hb r (Instr.writtenRegions_subset hr) with h0 | hle
    · rw [h0, List.length_eq_zero_iff] at hl
      rw [hl]
      exact hm
    · exact Memory.below_writeRange _ _ (by rw [hl]; exact hle) hm

/-- Written regions left unspecified. -/
theorem scramble (h : Within i s u) {rs : List Region} (hr : ∀ r ∈ rs, r ∈ i.writtenRegions s.operands) :
    Within i s (u.scramble rs) := by
  rw [State.scramble_frame]
  refine h.withMem ?_ (State.scramble_wf rs) ?_ (State.scramble_draws_le rs u)
  · intro hm a ha
    refine State.scramble_read_outside rs hm ?_
    rw [Region.anyContains, List.any_eq_false]
    intro r hrs hc
    have : Region.anyContains (i.writtenRegions s.operands) a = true := List.any_eq_true.mpr ⟨r, hr r hrs, hc⟩
    rw [State.mayChange, this] at ha
    exact Bool.noConfusion ha
  · exact fun bound hb hm => State.scramble_below rs (fun r hrs => hb r (Instr.writtenRegions_subset (hr r hrs))) hm

theorem settle (h : Within i s u) {rs : List Region} (hr : ∀ r ∈ rs, r ∈ i.writtenRegions s.operands) :
    Within i s (u.settle rs) := by
  unfold State.settle
  split
  · exact h.scramble hr
  · exact h

/-- A draw with nothing else changed. -/
theorem drew (h : Within i s u) {n : Nat} (hn : u.draws ≤ n) : Within i s { u with draws := n } :=
  h.withMem (m := u.mem) (fun _ _ _ => rfl) id (fun _ _ hm => hm) hn

/-- The digest registers and the accumulators, in a command that computes a digest. -/
theorem digestRegs (h : Within i s u) (hd : i.digests = true) (A : Quad) (d : Word) (b : Bool) {n : Nat}
    (hn : u.draws ≤ n) :
    Within i s { u with acc := A, chkResult := d, status := { u.status with chkMismatch := b }, draws := n } where
  frame := by rw [h.frame]
  outside := h.outside
  wf := h.wf
  below := h.below
  digest hd' := by rw [hd] at hd'; exact Bool.noConfusion hd'
  draws := h.draws.trans hn

theorem drawDigest (h : Within i s u) (hd : i.digests = true) : Within i s u.drawDigest :=
  h.digestRegs hd _ _ _ (Nat.le_add_right _ _)

theorem drawAcc (h : Within i s u) (hd : i.digests = true) : Within i s u.drawAcc :=
  h.digestRegs hd (freeQuad u.draws) u.chkResult u.status.chkMismatch (Nat.le_add_right _ 4)

theorem abandonDigest (h : Within i s u) (hd : i.digests = true) : Within i s u.abandonDigest := by
  unfold State.abandonDigest
  split
  · exact h.drawDigest hd
  · exact h.drawAcc hd

theorem checksumPhase (h : Within i s u) (hd : i.digests = true) (bs : List Byte) :
    Within i s (u.checksumPhase bs) := by
  unfold State.checksumPhase
  split
  · exact h.drawDigest hd
  · exact h.digestRegs hd _ _ u.status.chkMismatch (Nat.le_refl _)

theorem compareDigest (h : Within i s u) (hd : i.digests = true) : Within i s u.compareDigest :=
  h.digestRegs hd u.acc u.chkResult (u.status.chkMismatch || u.mismatch) (Nat.le_refl _)

/-- A phase's accesses, made: they drew at most one free value. -/
theorem tried (h : Within i s u) (a : Accesses) : Within i s (u.tryAccesses a).2 := by
  rcases u.tryAccesses_cases a with ⟨_, _, e⟩ | ⟨_, _, _, e⟩ | ⟨_, _, _, e⟩ <;> rw [e]
  · exact h
  · exact h.drew (Nat.le_succ _)
  · exact h.drew (Nat.le_succ _)

end Within

/-- How a body ends: as in its course, the engine IDLE, and one of the three end reports. -/
structure EndsAs (i : Instr) (s t : State) : Prop where
  frame : t = { s with
    mem := t.mem, chkResult := t.chkResult, acc := t.acc, draws := t.draws, errAddr := t.errAddr, eng := .idle
    status := { t.status with wbusy := s.status.wbusy } }
  outside : s.mem.wf = true → ∀ a, s.mayChange i a = false → t.mem.read a = s.mem.read a
  wf : s.mem.wf = true → t.mem.wf = true
  below : ∀ bound, (∀ r ∈ i.regions s.operands, r.len = 0 ∨ r.base + r.len ≤ bound) → s.mem.below bound = true →
    t.mem.below bound = true
  digest : i.digests = false → t.chkResult = s.chkResult ∧ t.status.chkMismatch = s.status.chkMismatch
  report :
    (t.status.done = true ∧ t.status.err = s.status.err ∧ t.status.errCode = s.status.errCode ∧
      t.errAddr = s.errAddr) ∨
    (t.status.done = s.status.done ∧ t.status.err = true ∧ t.status.errCode = .busError ∧
      ∃ a, Region.anyContains (i.regions s.operands) a = true ∧ t.errAddr = BitVec.ofNat 32 a) ∨
    (t.status.done = s.status.done ∧ t.status.err = true ∧ t.status.errCode = .chkMismatch ∧ t.errAddr = 0)
  draws : s.draws ≤ t.draws

variable {i : Instr} {s u : State}

theorem Within.complete (h : Within i s u) : EndsAs i s u.complete where
  frame := by
    have := h.frame
    rw [State.complete]
    conv_lhs => rw [this]
    conv_rhs => rw [this]
  outside := h.outside
  wf := h.wf
  below := h.below
  digest := h.digest
  report := by
    left
    rw [State.complete_status, State.complete_errAddr, h.frame]
    exact ⟨rfl, rfl, rfl, rfl⟩
  draws := h.draws

theorem Within.raiseFrame (h : Within i s u) (e : ErrCode) (w : Word) :
    u.raiseError e w = { s with
      mem := u.mem, chkResult := u.chkResult, acc := u.acc, draws := u.draws, errAddr := w, eng := .idle
      status := { (u.raiseError e w).status with wbusy := s.status.wbusy } } := by
  have := h.frame
  rw [State.raiseError]
  conv_lhs => rw [this]
  conv_rhs => rw [this]

theorem Within.raised (h : Within i s u) (e : ErrCode) (w : Word)
    (hr : (e = .busError ∧ ∃ a, Region.anyContains (i.regions s.operands) a = true ∧ w = BitVec.ofNat 32 a) ∨
      (e = .chkMismatch ∧ w = 0)) : EndsAs i s (u.raiseError e w) where
  frame := h.raiseFrame e w
  outside := h.outside
  wf := h.wf
  below := h.below
  digest := h.digest
  report := by
    right
    have hd : u.status.done = s.status.done := by rw [h.frame]
    rcases hr with ⟨rfl, a, ha, rfl⟩ | ⟨rfl, rfl⟩
    · exact .inl ⟨hd, rfl, rfl, a, ha, rfl⟩
    · exact .inr ⟨hd, rfl, rfl, rfl⟩
  draws := h.draws

theorem Within.busError (h : Within i s u) {addr : Nat} {rs : List Region}
    (ha : Region.anyContains (i.regions s.operands) addr = true) (hr : ∀ r ∈ rs, r ∈ i.writtenRegions s.operands) :
    EndsAs i s (u.busError addr rs) :=
  (h.scramble hr).raised .busError _ (.inl ⟨rfl, addr, ha, rfl⟩)

/-- A failed address of some of a command's accesses lies in its regions. -/
theorem failed_in_regions {a : Accesses} {addr : Nat}
    (hsub : ∀ x ∈ a.failing s.cfg ++ a.mayFail s.cfg,
      x ∈ (accessesOf i s.operands).failing s.cfg ++ (accessesOf i s.operands).mayFail s.cfg)
    (h : (s.tryAccesses a).1 = some addr) : Region.anyContains (i.regions s.operands) addr = true := by
  rcases s.tryAccesses_cases a with ⟨_, _, e⟩ | ⟨_, _, _, e⟩ | ⟨x, hx, _, e⟩ <;> rw [e] at h
  · exact absurd h (by simp)
  · exact absurd h (by simp)
  · obtain rfl : x = addr := by simpa using h
    exact failing_in_regions (hsub _ hx)

/-! ### The bodies -/

theorem transfer_endsAs {r : Region} {f : List Byte → List Byte} (hr : r ∈ i.writtenRegions s.operands)
    (hl : (f (s.load s.operands.srcRegion)).length = r.len) : EndsAs i s (s.transfer i r.base f) := by
  have w := (Within.refl i s).tried (accessesOf i s.operands)
  unfold State.transfer
  split
  · rename_i addr t e
    rw [e] at w
    exact w.busError (failed_in_regions (fun _ h => h) (by rw [e])) (fun _ h => h)
  · rename_i t e
    rw [e] at w
    exact ((w.store hr hl).settle (fun _ h => h)).complete

theorem csumBody_endsAs : EndsAs .csum s s.csumBody := by
  have w := (Within.refl .csum s).tried s.operands.digestAccesses
  unfold State.csumBody
  split
  · rename_i addr t e
    rw [e] at w
    exact (w.abandonDigest rfl).busError
      (failed_in_regions (i := .csum) (a := s.operands.digestAccesses) (fun _ h => h) (by rw [e])) (by simp)
  · rename_i t e
    rw [e] at w
    exact (w.checksumPhase rfl _).complete

theorem encodeBody_endsAs (delta : Bool) : EndsAs (.encode delta) s (s.encodeBody delta) := by
  have w := (Within.refl (.encode delta) s).tried s.operands.encodeAccesses
  unfold State.encodeBody
  dsimp only
  split
  · rename_i addr t e
    rw [e] at w
    exact (w.abandonDigest rfl).busError
      (failed_in_regions (i := .encode delta) (a := s.operands.encodeAccesses) (fun _ h => h) (by rw [e])) (fun _ h => h)
  · rename_i t e
    rw [e] at w
    exact (((w.store (r := s.operands.dstRegion) (by simp [Instr.writtenRegions])
      (length_encodedPlanes _ _ _ _)).checksumPhase rfl _).settle (fun _ h => h)).complete

theorem decodeStore_endsAs {delta fatal : Bool} (h : Within (.decode delta fatal) s u) {planes : List Byte}
    (hl : planes.length = s.operands.N) :
    EndsAs (.decode delta fatal) s (u.decodeStore delta planes) := by
  have w := h.tried (u.operands.decodeWrites delta)
  have ho := h.operands
  unfold State.decodeStore
  dsimp only
  split
  · rename_i addr t e
    rw [e] at w
    have hf : Region.anyContains ((Instr.decode delta fatal).regions u.operands) addr = true :=
      failed_in_regions (a := u.operands.decodeWrites delta) (by
        simp only [accessesOf, Operands.decodeWrites, Accesses.failing, Accesses.mayFail, List.filter_nil,
          List.nil_append, List.append_nil, List.mem_append]
        exact fun x hx => .inr hx) (by rw [e])
    have hw : ∀ r ∈ (Instr.decode delta false).writtenRegions u.operands,
        r ∈ (Instr.decode delta fatal).writtenRegions s.operands := by rw [ho]; exact fun _ h => h
    rw [ho] at hf
    exact w.busError hf hw
  · rename_i t e
    rw [e] at w
    have hL : (restoredPlanes delta u.operands.C u.operands.P planes).length = s.operands.N := by
      rw [ho]
      exact length_restoredPlanes _ hl
    have hM : (mergeBytes u.operands.C u.operands.P (restoredPlanes delta u.operands.C u.operands.P planes)).length =
        s.operands.N := by
      rw [length_mergeBytes, ho]
      rfl
    have hd : s.operands.dstRegion ∈ (Instr.decode delta fatal).writtenRegions s.operands := by
      cases delta <;> simp [Instr.writtenRegions]
    have hw : ∀ r ∈ (Instr.decode delta false).writtenRegions u.operands,
        r ∈ (Instr.decode delta fatal).writtenRegions s.operands := by rw [ho]; exact fun _ h => h
    have hdst : u.operands.dst.toNat = s.operands.dstRegion.base := by rw [ho]; rfl
    have hsrc : u.operands.src.toNat = s.operands.srcRegion.base := by rw [ho]; rfl
    rw [hdst, hsrc]
    cases delta
    · exact ((w.store hd hM).settle hw).complete
    · exact (((w.store (r := s.operands.srcRegion) (by simp [Instr.writtenRegions]) hL).store hd hM).settle hw).complete

theorem decodeBody_endsAs (delta fatal : Bool) :
    EndsAs (.decode delta fatal) s (s.decodeBody delta fatal) := by
  have w := (Within.refl (.decode delta fatal) s).tried s.operands.decodeReads
  unfold State.decodeBody
  dsimp only
  split
  · rename_i addr t e
    rw [e] at w
    have hf : s.operands.decodeReads.failing s.cfg ≠ [] := by
      intro h
      rw [State.tryAccesses_ok h rfl] at e
      cases e
    have ha : (accessesOf (.decode delta fatal) s.operands).failing s.cfg ++
        (accessesOf (.decode delta fatal) s.operands).mayFail s.cfg ≠ [] := by
      rw [failing_decode]
      simp [hf]
    exact ((w.abandonDigest rfl).settle (fun _ h => h)).busError (failing_in_regions (State.failedAddress_mem ha)) (by simp)
  · rename_i t e
    rw [e] at w
    have w2 := (w.checksumPhase rfl (s.load s.operands.srcRegion)).compareDigest rfl
    split
    · exact (w2.settle (fun _ h => h)).raised _ _ (.inr ⟨rfl, rfl⟩)
    · exact decodeStore_endsAs w2 (Memory.length_readRange _ _ _)

/-! ### Every command -/

/-- The frame of a body: when it runs and what it is then. -/
theorem runCommand_next {body : State → State} {t : State} (h : s.runCommand i body = .next t) :
    s.Ordinary i ∧ (∀ r ∈ i.regions s.operands, r.len = 0 ∨ r.base + r.len ≤ 2 ^ s.cfg.addrW) ∧ t = body s := by
  unfold State.runCommand at h
  split at h
  · cases h
  · split at h
    · rename_i h1 h2
      refine ⟨?_, ?_, (Host.Outcome.next.inj h).symm⟩
      · intro r hr
        simpa using List.any_eq_false.mp (Bool.not_eq_true _ ▸ h1) r hr
      · exact fun r hr => Region.inRange_iff.mp (List.all_eq_true.mp h2 r hr)
    · cases h

/-- The body that `exec` runs inside the frame of every command. -/
theorem exec_eq (i : Instr) (s : State) : ∃ body, exec i s = s.runCommand i body ∧ EndsAs i s (body s) := by
  cases i with
  | split =>
    exact ⟨State.splitBody, rfl, transfer_endsAs (i := .split) (r := s.operands.dstRegion)
      (List.mem_singleton.mpr rfl) (length_splitBytes _ _ _)⟩
  | merge =>
    exact ⟨State.mergeBody, rfl, transfer_endsAs (i := .merge) (r := s.operands.dstRegion)
      (List.mem_singleton.mpr rfl) (length_mergeBytes _ _ _)⟩
  | dfwd =>
    exact ⟨State.dfwdBody, rfl, transfer_endsAs (i := .dfwd) (r := s.operands.srcRegion)
      (List.mem_singleton.mpr rfl) (length_fwdBytes (Memory.length_readRange _ _ _))⟩
  | dinv =>
    exact ⟨State.dinvBody, rfl, transfer_endsAs (i := .dinv) (r := s.operands.srcRegion)
      (List.mem_singleton.mpr rfl) (length_invBytes (Memory.length_readRange _ _ _))⟩
  | csum => exact ⟨_, rfl, csumBody_endsAs⟩
  | encode delta => exact ⟨_, rfl, encodeBody_endsAs delta⟩
  | decode delta fatal => exact ⟨_, rfl, decodeBody_endsAs delta fatal⟩

/-- Everything a command can do when it answers a next state. -/
theorem exec_next_endsAs {i : Instr} {s t : State} (h : exec i s = .next t) :
    s.Ordinary i ∧ (∀ r ∈ i.regions s.operands, r.len = 0 ∨ r.base + r.len ≤ 2 ^ s.cfg.addrW) ∧ EndsAs i s t := by
  obtain ⟨body, e, hb⟩ := exec_eq i s
  rw [e] at h
  obtain ⟨h1, h2, rfl⟩ := runCommand_next h
  exact ⟨h1, h2, hb⟩

/-- A command on ordinary memory in the address space runs its body. -/
theorem runCommand_of_regions {body : State → State} (h1 : s.Ordinary i)
    (h2 : ∀ r ∈ i.regions s.operands, r.inRange s.cfg = true) : s.runCommand i body = .next (body s) := by
  unfold State.runCommand
  rw [if_neg, if_pos (List.all_eq_true.mpr h2)]
  rw [Bool.not_eq_true, List.any_eq_false]
  intro r hr
  rw [h1 r hr]
  exact Bool.false_ne_true

end Sys2Proof.Machine
end

