-- ==== Sys2Proof/Laws/Flags.lean ====
section
/-! SUPPORT. STATUS bit by bit. -/

namespace Sys2Proof.Machine

/-- Bit k of STATUS (R24). -/
theorem State.statusWord_bit (s : State) (k : Nat) :
    s.statusWord.getLsbD k =
      if k = 0 then s.isBusy
      else if k = 1 then s.status.done
      else if k = 2 then s.status.err
      else if k = 3 then s.status.chkMismatch
      else if k = 4 then s.status.wbusy
      else if 8 ≤ k ∧ k < 12 then s.status.errCode.code.getLsbD (k - 8)
      else false := by
  unfold State.statusWord
  by_cases hk : k < 32
  · interval_cases k <;> simp only [BitVec.getLsbD_append, BitVec.getLsbD_ofBool, BitVec.getLsbD_zero] <;> rfl
  · rw [BitVec.getLsbD_of_ge _ _ (by omega)]
    split_ifs <;> first | omega | rfl

/-- STATUS depends on its stored fields and on BUSY only. -/
theorem State.statusWord_congr {s t : State} (hs : s.status = t.status) (hb : s.isBusy = t.isBusy) :
    s.statusWord = t.statusWord := by
  simp only [State.statusWord, hs, hb]

/-- STATUS reads 0 when nothing is reported and the engine is IDLE. -/
theorem State.statusWord_eq_zero {s : State} (hs : s.status = Status.atReset) (hb : s.isBusy = false) :
    s.statusWord = 0 := by
  simp only [State.statusWord, hs, hb]
  decide

end Sys2Proof.Machine
end

