-- ==== Sys2Proof/Laws/Step.lean ====
section
/-! SUPPORT. The step, event by event, and runs of several steps. -/

namespace Sys2Proof.Machine

/-- Every register stands at a legal word offset of its own. -/
theorem Reg.offset_legal (r : Reg) : windowAccessLegal .word r.offset = true := by cases r <;> decide

@[simp] theorem Reg.ofOffset_offset (r : Reg) : Reg.ofOffset r.offset = some r := by cases r <;> decide

theorem Reg.offset_inj {r q : Reg} (h : r.offset = q.offset) : r = q := by
  have := congrArg Reg.ofOffset h
  rw [Reg.ofOffset_offset, Reg.ofOffset_offset] at this
  exact Option.some.inj this

theorem step_nil {s : State} (h : s.inputs = []) : step s = engineTurn s := by simp [step, h]

theorem step_cons {s : State} {e : Input} {rest : List Input} (h : s.inputs = e :: rest) :
    step s = handle e { s with inputs := rest } := by simp [step, h]

/-- `WR r, v`, whatever the reset input is. -/
theorem step_wr_take {s : State} {r : Reg} {v : Word} {rest : List Input} (h : s.inputs = wr r v :: rest) :
    step s = .next ((State.takeWrite { s with inputs := rest } r v).respond .ok) := by
  simp [step_cons h, handle, wr, State.hostRegWrite, r.offset_legal]

/-- `WR r, v` with the reset input released. -/
theorem step_wr {s : State} {r : Reg} {v : Word} {rest : List Input} (hr : s.resetHeld = false)
    (h : s.inputs = wr r v :: rest) :
    step s = .next ((State.writeReg { s with inputs := rest } r v).respond .ok) := by
  rw [step_wr_take h, State.takeWrite, if_neg]
  simp [hr]

/-- `RD r`. -/
theorem step_rd {s : State} {r : Reg} {rest : List Input} (h : s.inputs = rd r :: rest) :
    step s = .next { s with inputs := rest, resp := .word (s.readReg r) } := by
  have : State.readReg { s with inputs := rest } r = s.readReg r := by cases r <;> rfl
  simp [step_cons h, handle, rd, State.hostRegRead, r.offset_legal, this, State.respond]

/-- A register's value does not depend on the host's script, its last answer, memory or the draw counter. -/
theorem State.readReg_inputs (s : State) (l : List Input) (r : Reg) :
    State.readReg { s with inputs := l } r = s.readReg r := by cases r <;> rfl

/-- A command issue as a step. -/
theorem step_issue {s : State} {w : Word} {rest : List Input} (hr : s.resetHeld = false) (he : s.eng = .idle)
    (hi : s.inputs = wr .cmd w :: rest) :
    step s = .next ((State.issue { s with inputs := rest } w).respond .ok) := by
  rw [step_wr hr hi, State.writeReg, if_neg]
  rw [show State.isBusy { s with inputs := rest } = s.isBusy from rfl, State.isBusy_eq_false.mpr he]
  exact Bool.false_ne_true

/-- The engine's turn on a running command. -/
theorem engineTurn_busy {s : State} {i : Instr} {o : Operands} {r : Bool} (h : s.eng = .busy i o r) :
    engineTurn s = exec i s := by simp [engineTurn, h]

theorem engineTurn_idle {s : State} (h : s.eng = .idle) : engineTurn s = .next s := by simp [engineTurn, h]

/-- A run, its first step taken. -/
theorem run_succ (M : Host.Core) {s t : M.State} {k : Nat} (h : M.step s = .next t) : M.run (k + 1) s = M.run k t := by
  rw [Host.Core.run, h]

/-- A run of one step. -/
theorem run_one (M : Host.Core) (s : M.State) : M.run 1 s = M.step s := by
  rw [Host.Core.run]
  split <;> rename_i h <;> rw [h]
  rfl

end Sys2Proof.Machine
end

