-- ==== Sys2Proof/Laws/Events.lean ====
section
/-! SUPPORT. What one step can do, by the event it handles, said once (`step_cases`), what a register write can do
(`writeReg_cases`), and the two answers of a `WAIT`. -/

namespace Sys2Proof.Machine

/-! ### The reset state -/

/-- A reset leaves the block in its reset state (R53, R260). -/
theorem State.resetBlock_atReset (s : State) : s.resetBlock.AtReset where
  registers r := by
    rw [s.resetBlock_frame]
    cases r <;> first | rfl | exact State.statusWord_eq_zero rfl rfl
  idle := rfl
  irqLow := rfl

/-- The reset state does not depend on the reset input, the hidden accumulators, memory, or the model's own fields. -/
theorem State.AtReset.congr {s : State} (h : s.AtReset) (A : Quad) (m : Memory) (held : Bool) (l : List Input)
    (a : Response) (n : Nat) :
    State.AtReset { s with acc := A, mem := m, resetHeld := held, inputs := l, resp := a, draws := n } where
  registers r := (show _ = s.readReg r by cases r <;> rfl).trans (h.registers r)
  idle := h.idle
  irqLow := h.irqLow

/-! ### What one step can do -/

theorem Reg.offset_of_ofOffset {off : BitVec 8} {r : Reg} (h : Reg.ofOffset off = some r) : off = r.offset := by
  have := List.find?_some h
  exact (eq_of_beq this).symm

/-- A step handles the next event. -/
theorem step_eq (s : State) : step s = handle s.nextEvent { s with inputs := s.inputs.tail } := by
  rcases s with ⟨_, _, _, _, _, _, _, _, _, _, _, inputs, _, _⟩
  cases inputs <;> rfl

theorem State.hostRegRead_cases (s : State) (size : AccessSize) (off : BitVec 8) :
    ∃ a, s.hostRegRead size off = s.respond a := by
  unfold State.hostRegRead
  split
  · split <;> exact ⟨_, rfl⟩
  · exact ⟨_, rfl⟩

/-- A write to the window reaches a register, or only the bus answers. -/
theorem State.hostRegWrite_cases (s : State) (size : AccessSize) (off : BitVec 8) (v : Word) :
    (∃ r : Reg, size = .word ∧ off = r.offset ∧ s.hostRegWrite size off v = (s.takeWrite r v).respond .ok) ∨
    ∃ a, s.hostRegWrite size off v = s.respond a := by
  unfold State.hostRegWrite
  split
  · rename_i h
    simp only [windowAccessLegal, Bool.and_eq_true, beq_iff_eq] at h
    split
    · exact .inl ⟨_, h.1, Reg.offset_of_ofOffset ‹_›, rfl⟩
    · exact .inr ⟨_, rfl⟩
  · exact .inr ⟨_, rfl⟩

theorem State.waitUntil_cases (s : State) (b : Bool) (e : Input) : ∃ l, s.waitUntil b e = { s with inputs := l } := by
  unfold State.waitUntil
  split
  · exact ⟨s.inputs, rfl⟩
  · exact ⟨_, rfl⟩

theorem State.hostRead_cases (s : State) (a : Nat) :
    ∃ b n, s.draws ≤ n ∧ s.hostRead a = { s with resp := b, draws := n } := by
  unfold State.hostRead
  split
  · exact ⟨_, _, Nat.le_succ _, rfl⟩
  · exact ⟨_, s.draws, Nat.le_refl _, rfl⟩

/-- A host write stores its byte, and races the running command when it lands in a region of it. -/
theorem State.hostWrite_cases (s : State) (a : Nat) (v : Byte) :
    ((s.eng = .idle ∨ s.inRunningRegion a = false) ∧
      s.hostWrite a v = { s with mem := s.mem.write a v, resp := .ok }) ∨
    ∃ i o r, s.eng = .busy i o r ∧ s.inRunningRegion a = true ∧
      s.hostWrite a v = { s with mem := s.mem.write a v, resp := .ok, eng := .busy i o true } := by
  cases he : s.eng with
  | idle => exact .inl ⟨.inl rfl, by simp [State.hostWrite, State.inRunningRegion, he]⟩
  | busy i o r =>
    cases hr : s.inRunningRegion a
    · exact .inl ⟨.inr rfl, by simp [State.hostWrite, hr, he]⟩
    · exact .inr ⟨i, o, r, rfl, rfl, by simp [State.hostWrite, hr, State.markRaced, he]⟩

theorem hostMemory_next {s t u : State} {a : Nat} (h : s.hostMemory a u = .next t) :
    s.cfg.touchesSideEffects ⟨a, 1⟩ = false ∧ a < 2 ^ s.cfg.addrW ∧ t = u := by
  unfold State.hostMemory at h
  split at h
  · cases h
  split at h
  · cases h
    exact ⟨by simpa using ‹¬s.cfg.touchesSideEffects _ = true›, ‹_›, rfl⟩
  · cases h

/-- What an issue comes to (R121 to R124, R132): the failed check reported, or the command accepted. -/
theorem State.issue_cases (s : State) (w : Word) :
    (∃ e, validate s.cfg s.params w = .error e ∧ e ≠ .noError ∧ e ≠ .busError ∧ e ≠ .chkMismatch ∧
      s.issue w = (s.beginIssue w).raiseError e 0) ∨
    ∃ i, decode w = some i ∧ checkCommand s.cfg s.params i = none ∧ s.issue w = (s.beginIssue w).accept i := by
  have hc : ∀ {i e}, checkCommand s.cfg s.params i = some e → e ≠ .noError ∧ e ≠ .busError ∧ e ≠ .chkMismatch := by
    intro i e h
    unfold checkCommand at h
    split at h
    · cases h; decide
    split at h
    · cases h; decide
    split at h
    · cases h; decide
    split at h
    · cases h; decide
    · cases h
  unfold State.issue validate
  cases hd : decode w with
  | none => exact .inl ⟨.illegalCmd, rfl, by decide, by decide, by decide, rfl⟩
  | some i =>
    dsimp only
    cases hk : checkCommand s.cfg s.params i with
    | none => exact .inr ⟨i, rfl, hk, rfl⟩
    | some e =>
      obtain ⟨h1, h2, h3⟩ := hc hk
      exact .inl ⟨e, rfl, h1, h2, h3, rfl⟩

/-- What a register write other than a reset can do (R55, R22, R31, R32). -/
theorem State.writeReg_cases (s : State) (r : Reg) (v : Word) (hr : ¬(r = .ctrl ∧ v.getLsbD 1 = true)) :
    (r = .ctrl ∧ s.writeReg r v = { s with irqEn := v.getLsbD 0 }) ∨
    (r = .status ∧ s.writeReg r v = s.acknowledge v) ∨
    (r = .cmd ∧ s.eng = .idle ∧ s.writeReg r v = s.issue v) ∨
    (r ∈ Reg.lockedWhileBusy ∧ s.isBusy = true ∧ s.writeReg r v = s.dropWrite) ∨
    (r ∈ Reg.lockedWhileBusy ∧ r ≠ .cmd ∧ s.eng = .idle ∧ ∃ p, s.writeReg r v = { s with params := p }) ∨
    (r ∈ Reg.readOnly ∧ s.writeReg r v = s) := by
  cases hb : s.isBusy
  · have he := State.isBusy_eq_false.mp hb
    cases r <;> simp_all [State.writeReg, State.writeParam, State.writeCtrl, Reg.lockedWhileBusy, Reg.readOnly]
  · cases r <;> simp_all [State.writeReg, State.writeParam, State.writeCtrl, Reg.lockedWhileBusy, Reg.readOnly]

/-- A register write as the block takes it: a soft reset always (R262), any other only while the reset input is released
(R260). -/
theorem State.takeWrite_cases (s : State) (r : Reg) (v : Word) :
    ((r = .ctrl ∧ v.getLsbD 1 = true) ∧ s.takeWrite r v = s.resetBlock) ∨
    (¬(r = .ctrl ∧ v.getLsbD 1 = true) ∧ s.resetHeld = false ∧ s.takeWrite r v = s.writeReg r v) ∨
    (¬(r = .ctrl ∧ v.getLsbD 1 = true) ∧ s.resetHeld = true ∧ s.takeWrite r v = s) := by
  by_cases h : r = .ctrl ∧ v.getLsbD 1 = true
  · obtain ⟨rfl, hv⟩ := h
    exact .inl ⟨⟨rfl, hv⟩, by simp [State.takeWrite, State.writeReg, State.writeCtrl, hv]⟩
  · have hb : (r == Reg.ctrl && v.getLsbD 1) = false := by
      rw [Bool.eq_false_iff]
      simpa using h
    cases hh : s.resetHeld
    · exact .inr (.inl ⟨h, rfl, by simp [State.takeWrite, hh]⟩)
    · exact .inr (.inr ⟨h, rfl, by rw [State.takeWrite, hh, hb]; rfl⟩)

/-- Everything a step that answers a next state can be: the running command's turn; a reset; a register write that is
taken; a host write to memory; or a step that touches nothing of the block but, by its release, the reset input. -/
theorem step_cases {s t : State} (h : step s = .next t) :
    (s.nextEvent = .engine ∧ ∃ i o r, s.eng = .busy i o r ∧ exec i { s with inputs := s.inputs.tail } = .next t) ∨
    (s.nextEvent.resets ∧ ∃ held a,
      t = ({ State.resetBlock { s with inputs := s.inputs.tail } with resetHeld := held } : State).respond a ∧
      held = (s.resetHeld || s.nextEvent == .resetPin true)) ∨
    (∃ r v, s.nextEvent.writes r v ∧ ¬(r = .ctrl ∧ v.getLsbD 1 = true) ∧ s.resetHeld = false ∧
      t = (State.writeReg { s with inputs := s.inputs.tail } r v).respond .ok) ∨
    (∃ a v, s.nextEvent = .memWrite a v ∧ s.cfg.touchesSideEffects ⟨a, 1⟩ = false ∧ a < 2 ^ s.cfg.addrW ∧
      t = State.hostWrite { s with inputs := s.inputs.tail } a v) ∨
    (¬s.nextEvent.resets ∧ (s.nextEvent = .engine → s.eng = .idle) ∧
      t.resetHeld = (s.resetHeld && s.nextEvent != .resetPin false) ∧
      t = { s with resetHeld := t.resetHeld, inputs := t.inputs, resp := t.resp, draws := t.draws }) := by
  have quiet : ∀ {e : Input}, e ≠ .resetPin true → (∀ r v, ¬e.writes r v) → ¬e.resets := by
    rintro e h1 h2 (h3 | ⟨v, h3, _⟩)
    · exact h1 h3
    · exact h2 _ _ h3
  have kept : ∀ {e : Input}, e ≠ .resetPin false → s.resetHeld = (s.resetHeld && e != .resetPin false) := by
    intro e he
    rw [bne_iff_ne.mpr he, Bool.and_true]
  rw [step_eq] at h
  cases he : s.nextEvent with
  | engine =>
    rw [he] at h
    rcases hb : s.eng with _ | ⟨i, o, r⟩
    · rw [handle, engineTurn_idle (s := { s with inputs := s.inputs.tail }) hb] at h
      cases h
      refine .inr (.inr (.inr (.inr ⟨quiet (by simp) (fun _ _ h => nomatch h), fun _ => rfl, kept (by simp), ?_⟩)))
      rw [hb]
    · rw [handle, engineTurn_busy (s := { s with inputs := s.inputs.tail }) hb] at h
      exact .inl ⟨rfl, i, o, r, rfl, by rw [← hb]; exact h⟩
  | resetPin b =>
    rw [he] at h
    cases h
    cases b
    · refine .inr (.inr (.inr (.inr ⟨quiet (by simp) (fun _ _ h => nomatch h), (fun h => nomatch h), ?_, rfl⟩)))
      simp [State.setResetPin]
    · exact .inr (.inl ⟨.inl rfl, true, _, rfl, by simp⟩)
  | regRead size off =>
    rw [he] at h
    cases h
    obtain ⟨a, e⟩ := State.hostRegRead_cases { s with inputs := s.inputs.tail } size off
    rw [e]
    exact .inr (.inr (.inr (.inr ⟨quiet (by simp) (fun _ _ h => nomatch h), (fun h => nomatch h), kept (by simp), rfl⟩)))
  | regWrite size off v =>
    rw [he] at h
    cases h
    rcases State.hostRegWrite_cases { s with inputs := s.inputs.tail } size off v with ⟨r, rfl, rfl, e⟩ | ⟨a, e⟩
    · rw [e]
      rcases State.takeWrite_cases { s with inputs := s.inputs.tail } r v with
        ⟨⟨rfl, hv⟩, e'⟩ | ⟨hr, hh, e'⟩ | ⟨hr, hh, e'⟩ <;> rw [e']
      · exact .inr (.inl ⟨.inr ⟨v, rfl, hv⟩, s.resetHeld, .ok, by rw [State.resetBlock_frame], by simp⟩)
      · exact .inr (.inr (.inl ⟨r, v, rfl, hr, hh, rfl⟩))
      · refine .inr (.inr (.inr (.inr ⟨?_, (fun h => nomatch h), kept (by simp), rfl⟩)))
        rintro (h | ⟨w, hw, hv⟩)
        · cases h
        · injection hw with _ ho hw
          exact hr ⟨Reg.offset_inj ho, hw ▸ hv⟩
    · by_cases hr : (Input.regWrite size off v).resets
      · rcases hr with hr | ⟨w, hw, hv⟩
        · cases hr
        · cases hw
          rw [show State.hostRegWrite { s with inputs := s.inputs.tail } .word Reg.ctrl.offset v =
            (State.takeWrite { s with inputs := s.inputs.tail } .ctrl v).respond .ok from rfl]
          rcases State.takeWrite_cases { s with inputs := s.inputs.tail } .ctrl v with ⟨_, e'⟩ | ⟨hr, _⟩ | ⟨hr, _⟩
          · rw [e']
            exact .inr (.inl ⟨.inr ⟨v, rfl, hv⟩, s.resetHeld, .ok, by rw [State.resetBlock_frame], by simp⟩)
          · exact absurd ⟨rfl, hv⟩ hr
          · exact absurd ⟨rfl, hv⟩ hr
      · rw [e]
        exact .inr (.inr (.inr (.inr ⟨hr, (fun h => nomatch h), kept (by simp), rfl⟩)))
  | memRead a =>
    rw [he] at h
    obtain ⟨_, _, rfl⟩ := hostMemory_next h
    obtain ⟨b, n, _, e⟩ := State.hostRead_cases { s with inputs := s.inputs.tail } a
    rw [e]
    exact .inr (.inr (.inr (.inr ⟨quiet (by simp) (fun _ _ h => nomatch h), (fun h => nomatch h), kept (by simp), rfl⟩)))
  | memWrite a v =>
    rw [he] at h
    obtain ⟨h1, h2, rfl⟩ := hostMemory_next h
    exact .inr (.inr (.inr (.inl ⟨a, v, rfl, h1, h2, rfl⟩)))
  | poll r mask value =>
    rw [he] at h
    cases h
    rw [State.hostPoll]
    obtain ⟨l, e⟩ := State.waitUntil_cases
      ((State.respond { s with inputs := s.inputs.tail } (.word (State.readReg { s with inputs := s.inputs.tail } r))))
      (State.readReg { s with inputs := s.inputs.tail } r &&& mask == value) (.poll r mask value)
    rw [e]
    exact .inr (.inr (.inr (.inr ⟨quiet (by simp) (fun _ _ h => nomatch h), (fun h => nomatch h), kept (by simp), rfl⟩)))
  | waitIrq =>
    rw [he] at h
    cases h
    obtain ⟨l, e⟩ := State.waitUntil_cases { s with inputs := s.inputs.tail }
      (State.irq { s with inputs := s.inputs.tail }) .waitIrq
    rw [e]
    exact .inr (.inr (.inr (.inr ⟨quiet (by simp) (fun _ _ h => nomatch h), (fun h => nomatch h), kept (by simp), rfl⟩)))

/-! ### WAIT (R100) -/

theorem State.statusWord_and_one (s : State) : s.statusWord &&& 1 = BitVec.setWidth 32 (BitVec.ofBool s.isBusy) := by
  apply BitVec.eq_of_getLsbD_eq
  intro k hk
  rw [show (1 : Word) = 1#32 from rfl, BitVec.getLsbD_and, State.statusWord_bit]
  by_cases h0 : k = 0
  · subst h0
    cases s.isBusy <;> rfl
  · have h1 : (1#32).getLsbD k = false := by simp [BitVec.getLsbD_one, h0]
    rw [h1, Bool.and_false]
    cases s.isBusy <;> simp [h0]

/-- `WAIT` while BUSY: the engine has a turn, then the wait is tried again. -/
theorem step_wait_busy {s : State} {rest : List Input} (hb : s.isBusy = true) (h : s.inputs = wait :: rest) :
    step s = .next { s with resp := .word s.statusWord, inputs := .engine :: wait :: rest } := by
  rw [step_cons h, wait, handle, State.hostPoll, State.waitUntil, if_neg]
  · rfl
  · rw [show State.readReg { s with inputs := rest } .status = s.statusWord from rfl, State.statusWord_and_one, hb]
    decide

/-- `WAIT` while IDLE ends. -/
theorem step_wait_idle {s : State} {rest : List Input} (hb : s.isBusy = false) (h : s.inputs = wait :: rest) :
    step s = .next { s with resp := .word s.statusWord, inputs := rest } := by
  rw [step_cons h, wait, handle, State.hostPoll, State.waitUntil, if_pos]
  · rfl
  · rw [show State.readReg { s with inputs := rest } .status = s.statusWord from rfl, State.statusWord_and_one, hb]
    decide

/-! ### Runs -/

/-- A run of the machine, its first step taken. -/
theorem core_run_succ {s t : State} {k : Nat} (h : step s = .next t) :
    Host.Core.run Sys2Proof.core (k + 1) s = Host.Core.run Sys2Proof.core k t := run_succ Sys2Proof.core h

/-- A run of the machine of one step. -/
theorem core_run_one (s : State) : Host.Core.run Sys2Proof.core 1 s = step s := run_one Sys2Proof.core s

end Sys2Proof.Machine
end

