-- ==== Sys2Proof/Laws/PerInstr.lean ====
section
/-! SUPPORT. Facts about each command as syntax. The family `Fields`: the fields a command is encoded with are legal
(30_encoding.md R93, R96). -/

namespace Sys2Proof.Laws

/-- The command's fields pass every check of R96. -/
def Fields.Statement (i : Instr) : Prop := i.wf = true

theorem Fields.split : Fields.Statement .split := rfl

theorem Fields.merge : Fields.Statement .merge := rfl

theorem Fields.dfwd : Fields.Statement .dfwd := rfl

theorem Fields.dinv : Fields.Statement .dinv := rfl

theorem Fields.csum : Fields.Statement .csum := rfl

theorem Fields.encode (delta : Bool) : Fields.Statement (.encode delta) := by cases delta <;> rfl

theorem Fields.decode (delta fatal : Bool) : Fields.Statement (.decode delta fatal) := by
  cases delta <;> cases fatal <;> rfl

/-- Every command is well formed. -/
theorem instr_wf (i : Instr) : i.wf = true := by
  cases i with
  | split => exact Fields.split
  | merge => exact Fields.merge
  | dfwd => exact Fields.dfwd
  | dinv => exact Fields.dinv
  | csum => exact Fields.csum
  | encode delta => exact Fields.encode delta
  | decode delta fatal => exact Fields.decode delta fatal

end Sys2Proof.Laws
end

