-- ==== Sys2Proof/Laws/Ready.lean ====
section
/-! SUPPORT. What passing validation gives (R123 to R128), and each command's whole effect in a ready state as one equation
over the list functions. -/

namespace Sys2Proof.Machine

variable {i : Instr} {s : State}

/-- Everything a command that passes checks 2 to 5 of R123 satisfies. -/
structure Passed (c : Config) (o : Operands) (i : Instr) : Prop where
  geometry : i.isGeometry = true → geometryLegal c o = true
  size : i.isGeometry = true → sizeLegal c o = true
  inRange : ∀ r ∈ i.regions o, r.inRange c = true
  disjoint : i.hasDestination = true → regionsDisjoint o = true

theorem passed_of_check {c : Config} {o : Operands} (h : checkCommand c o i = none) : Passed c o i := by
  unfold checkCommand at h
  split at h
  · cases h
  split at h
  · cases h
  split at h
  · cases h
  split at h
  · cases h
  rename_i h1 h2 h3 h4
  simp only [Bool.and_eq_true, Bool.not_eq_true', not_and, Bool.not_eq_false] at h1 h2 h3 h4
  exact ⟨h1, h2, List.all_eq_true.mp h3, h4⟩

theorem Passed.check {c : Config} {o : Operands} (h : Passed c o i) : checkCommand c o i = none := by
  have h3 : (i.regions o).all (Region.inRange c) = true := List.all_eq_true.mpr h.inRange
  have h1 := h.geometry
  have h2 := h.size
  have h4 := h.disjoint
  unfold checkCommand
  cases hg : i.isGeometry <;> cases hd : i.hasDestination <;> simp_all

/-- A validated geometry is positive (R125). -/
theorem Passed.positive {c : Config} {o : Operands} (h : Passed c o i) (hg : i.isGeometry = true) :
    1 ≤ o.C ∧ 1 ≤ o.P := by
  have := h.geometry hg
  simp only [geometryLegal, Bool.and_eq_true, decide_eq_true_eq] at this
  exact ⟨this.1.2, Nat.mul_pos this.1.1.1 this.1.1.2⟩

/-- The two regions of a validated command are disjoint (R128). -/
theorem Passed.apart {c : Config} {o : Operands} (h : Passed c o i) (hd : i.hasDestination = true) :
    o.src.toNat + o.N ≤ o.dst.toNat ∨ o.dst.toNat + o.N ≤ o.src.toNat := by
  simpa [regionsDisjoint] using h.disjoint hd

theorem State.Ready.passed (h : s.Ready i) : Passed s.cfg s.operands i := passed_of_check h.valid

/-- A ready command runs its body. -/
theorem State.Ready.run (h : s.Ready i) (body : State → State) : s.runCommand i body = .next (body s) :=
  runCommand_of_regions h.ordinary h.passed.inRange

theorem State.Ready.tried (h : s.Ready i) : s.tryAccesses (accessesOf i s.operands) = (none, s) :=
  State.tryAccesses_ok h.noFail.1 h.noFail.2

theorem State.Ready.transfer (h : s.Ready i) (base : Nat) (f : List Byte → List Byte) :
    s.transfer i base f = (s.store base (f (s.load s.operands.srcRegion))).complete := by
  rw [State.transfer, h.tried]
  exact congrArg State.complete
    (State.settle_of_not_raced (show (s.store base _).raced = false from h.notRaced) _)

theorem exec_split_ready (h : s.Ready .split) :
    exec .split s = .next (s.store s.operands.dst.toNat
      (splitBytes s.operands.C s.operands.P (s.load s.operands.srcRegion))).complete :=
  (h.run _).trans (congrArg _ (h.transfer _ _))

theorem exec_merge_ready (h : s.Ready .merge) :
    exec .merge s = .next (s.store s.operands.dst.toNat
      (mergeBytes s.operands.C s.operands.P (s.load s.operands.srcRegion))).complete :=
  (h.run _).trans (congrArg _ (h.transfer _ _))

theorem exec_dfwd_ready (h : s.Ready .dfwd) :
    exec .dfwd s = .next (s.store s.operands.src.toNat
      (fwdBytes s.operands.C s.operands.P (s.load s.operands.srcRegion))).complete :=
  (h.run _).trans (congrArg _ (h.transfer _ _))

theorem exec_dinv_ready (h : s.Ready .dinv) :
    exec .dinv s = .next (s.store s.operands.src.toNat
      (invBytes s.operands.C s.operands.P (s.load s.operands.srcRegion))).complete :=
  (h.run _).trans (congrArg _ (h.transfer _ _))

theorem State.checksumPhase_of_not_raced (h : s.raced = false) (bs : List Byte) :
    s.checksumPhase bs = { s with
      acc := accumulate s.operands.seeds bs, chkResult := Machine.digest bs s.operands.seeds } := by
  simp [State.checksumPhase, h]

theorem exec_csum_ready (h : s.Ready .csum) :
    exec .csum s = .next ({ s with
      acc := accumulate s.operands.seeds (s.load s.operands.bufRegion)
      chkResult := Machine.digest (s.load s.operands.bufRegion) s.operands.seeds } : State).complete := by
  refine (h.run _).trans (congrArg _ ?_)
  rw [State.csumBody, show s.tryAccesses s.operands.digestAccesses = (none, s) from h.tried]
  exact congrArg State.complete (State.checksumPhase_of_not_raced h.notRaced _)

theorem exec_encode_ready {delta : Bool} (h : s.Ready (.encode delta)) :
    exec (.encode delta) s =
      let planes := encodedPlanes delta s.operands.C s.operands.P (s.load s.operands.srcRegion)
      .next ({ s with
        mem := s.mem.writeRange s.operands.dst.toNat planes
        acc := accumulate s.operands.seeds planes
        chkResult := Machine.digest planes s.operands.seeds } : State).complete := by
  refine (h.run _).trans (congrArg _ ?_)
  rw [State.encodeBody, show s.tryAccesses s.operands.encodeAccesses = (none, s) from h.tried]
  dsimp only
  rw [State.checksumPhase_of_not_raced (show State.raced (s.store _ _) = false from h.notRaced)]
  refine congrArg State.complete (State.settle_of_not_raced ?_ _)
  exact h.notRaced

/-- The accesses of DECODE's two phases in a ready state all succeed. -/
theorem State.Ready.decodePhases {delta fatal : Bool} (h : s.Ready (.decode delta fatal)) :
    s.operands.decodeReads.failing s.cfg = [] ∧ (s.operands.decodeWrites delta).failing s.cfg = [] := by
  have := h.noFail.1
  rwa [failing_decode, List.append_eq_nil_iff] at this

/-- The checksum phase and the comparison of DECODE (R205). -/
theorem compared_of_not_raced (h : s.raced = false) (bs : List Byte) :
    (s.checksumPhase bs).compareDigest = { s with
      acc := accumulate s.operands.seeds bs
      chkResult := Machine.digest bs s.operands.seeds
      status := { s.status with chkMismatch :=
        s.status.chkMismatch || Machine.digest bs s.operands.seeds != s.operands.chkExpect } } := by
  have hr : ∀ A d, State.raced { s with acc := A, chkResult := d } = false := fun _ _ => h
  rw [State.checksumPhase_of_not_raced h, State.compareDigest, State.mismatch, hr]
  rfl

/-- A fatal mismatch ends DECODE before any write, whatever its writes would come to (R207, R227). -/
theorem exec_decode_fatal {delta : Bool} (hv : s.Valid (.decode delta true)) (ho : s.Ordinary (.decode delta true))
    (hr : s.raced = false) (hf : s.operands.decodeReads.failing s.cfg = [])
    (hd : Machine.digest (s.load s.operands.srcRegion) s.operands.seeds ≠ s.operands.chkExpect) :
    exec (.decode delta true) s = .next { s with
      acc := accumulate s.operands.seeds (s.load s.operands.srcRegion)
      chkResult := Machine.digest (s.load s.operands.srcRegion) s.operands.seeds
      errAddr := 0
      eng := .idle
      status := { s.status with chkMismatch := true, err := true, errCode := .chkMismatch } } := by
  have hn : s.raced ≠ true := by
    rw [hr]
    exact Bool.false_ne_true
  refine (runCommand_of_regions ho (passed_of_check hv).inRange).trans (congrArg _ ?_)
  rw [State.decodeBody, State.tryAccesses_ok hf rfl]
  dsimp only
  rw [compared_of_not_raced hr, if_pos, State.settle, if_neg]
  · rw [State.raiseError, bne_iff_ne.mpr hd, Bool.or_true]
  · exact hn
  · rw [Bool.true_and, State.mismatch, if_neg]
    · exact bne_iff_ne.mpr hd
    · exact hn

/-- DECODE's store phase when nothing fails. -/
theorem decodeStore_ok {delta : Bool} {u : State} (planes : List Byte) (hr : u.raced = false)
    (hw : (u.operands.decodeWrites delta).failing u.cfg = []) :
    u.decodeStore delta planes =
      let restored := restoredPlanes delta u.operands.C u.operands.P planes
      ({ u with
        mem := (if delta then u.mem.writeRange u.operands.src.toNat restored else u.mem).writeRange
          u.operands.dst.toNat (mergeBytes u.operands.C u.operands.P restored) } : State).complete := by
  rw [State.decodeStore]
  dsimp only
  rw [State.tryAccesses_ok hw rfl]
  cases delta <;> (refine congrArg State.complete (State.settle_of_not_raced ?_ _); exact hr)

theorem exec_decode_ready {delta fatal : Bool} (h : s.Ready (.decode delta fatal))
    (hd : fatal = true → Machine.digest (s.load s.operands.srcRegion) s.operands.seeds = s.operands.chkExpect) :
    exec (.decode delta fatal) s =
      let planes := restoredPlanes delta s.operands.C s.operands.P (s.load s.operands.srcRegion)
      let d := Machine.digest (s.load s.operands.srcRegion) s.operands.seeds
      .next ({ s with
        mem := (if delta then s.mem.writeRange s.operands.src.toNat planes else s.mem).writeRange
          s.operands.dst.toNat (mergeBytes s.operands.C s.operands.P planes)
        acc := accumulate s.operands.seeds (s.load s.operands.srcRegion)
        chkResult := d
        status := { s.status with chkMismatch := s.status.chkMismatch || d != s.operands.chkExpect } } : State).complete
      := by
  refine (h.run _).trans (congrArg _ ?_)
  rw [State.decodeBody, State.tryAccesses_ok h.decodePhases.1 rfl]
  dsimp only
  rw [compared_of_not_raced h.notRaced, if_neg]
  · exact decodeStore_ok _ h.notRaced h.decodePhases.2
  · cases fatal
    · exact Bool.false_ne_true
    · rw [Bool.true_and, State.mismatch, if_neg]
      · exact fun hne => bne_iff_ne.mp hne (hd rfl)
      · exact (show s.raced ≠ true from by rw [h.notRaced]; exact Bool.false_ne_true)

end Sys2Proof.Machine
end

