-- ==== Sys2Proof/Laws/Raced.lean ====
section
/-! SUPPORT. Everything a raced command can come to (20_memory.md R70), said once: `exec_raced`. -/

namespace Sys2Proof.Machine

/-- In the course of a raced command's body: the digest registers of a command that computes a digest are free values
drawn on the way. -/
structure DigestFree (s u : State) : Prop where
  result : ∃ n, s.draws ≤ n ∧ n < u.draws ∧ u.chkResult = Config.freeWord n
  mismatch : ∃ n, s.draws ≤ n ∧ n < u.draws ∧ u.status.chkMismatch = Config.freeBool n

/-- How a raced body ends, from the state `u` it had come to: its written regions unspecified, and one of the three
reports. `SPLIT`'s report and the like are the first two. -/
structure RacedEnd (i : Instr) (s u t : State) : Prop where
  within : Within i s u
  digest : i.digests = true → DigestFree s u
  report :
    (t = (u.scramble (i.writtenRegions s.operands)).complete ∧ (accessesOf i s.operands).failing s.cfg = [] ∧
      ((accessesOf i s.operands).mayFail s.cfg = [] ∨ Config.freeBool s.draws = false ∧ s.draws < u.draws) ∧
      (∀ d, i = .decode d true → u.status.chkMismatch = false)) ∨
    (∃ a ∈ (accessesOf i s.operands).failing s.cfg ++ (accessesOf i s.operands).mayFail s.cfg,
      t = (u.scramble (i.writtenRegions s.operands)).raiseError .busError (BitVec.ofNat 32 a) ∧
      ((accessesOf i s.operands).failing s.cfg = [] → Config.freeBool s.draws = true ∧ s.draws < u.draws) ∧
      ∀ d, i = .decode d true → s.operands.decodeReads.failing s.cfg = [] → u.status.chkMismatch = false) ∨
    (∃ d, i = .decode d true ∧ s.operands.decodeReads.failing s.cfg = [] ∧ u.status.chkMismatch = true ∧
      t = (u.scramble (i.writtenRegions s.operands)).raiseError .chkMismatch 0)

variable {i : Instr} {s t u : State}

/-- Whichever the report, the end keeps what the written regions left unspecified and what the digest came to. -/
theorem RacedEnd.kept (h : RacedEnd i s u t) :
    t.mem = (u.scramble (i.writtenRegions s.operands)).mem ∧ t.draws = (u.scramble (i.writtenRegions s.operands)).draws ∧
      t.chkResult = u.chkResult ∧ t.status.chkMismatch = u.status.chkMismatch := by
  rcases h.report with ⟨rfl, _⟩ | ⟨_, _, rfl, _⟩ | ⟨_, _, _, _, rfl⟩
  · exact ⟨rfl, rfl, by rw [State.complete_chkResult, State.scramble_chkResult],
      by rw [State.complete_status, State.scramble_status]⟩
  · exact ⟨rfl, rfl, by rw [State.raiseError_chkResult, State.scramble_chkResult],
      by rw [State.raiseError_status, State.scramble_status]⟩
  · exact ⟨rfl, rfl, by rw [State.raiseError_chkResult, State.scramble_chkResult],
      by rw [State.raiseError_status, State.scramble_status]⟩

theorem RacedEnd.draws (h : RacedEnd i s u t) : u.draws ≤ t.draws := by
  rw [h.kept.2.1]
  exact State.scramble_draws_le _ _

/-- A raced command's written regions are free values of their own (R70). -/
theorem RacedEnd.fresh (h : RacedEnd i s u t) (hm : s.mem.wf = true) : s.FreshBytes t (i.writtenRegions s.operands) :=
  (State.scramble_fresh _ (h.within.wf hm)).widen h.within.draws (Nat.le_of_eq h.kept.2.1.symm) (by rw [h.kept.1])

theorem RacedEnd.digestFree (h : RacedEnd i s u t) (hd : i.digests = true) : DigestFree s t := by
  obtain ⟨⟨n, a, b, c⟩, m, d, e, f⟩ := h.digest hd
  exact ⟨⟨n, a, b.trans_le h.draws, h.kept.2.2.1.trans c⟩, m, d, e.trans_le h.draws, h.kept.2.2.2.trans f⟩

theorem Within.reportsDone (w : Within i s u) (rs : List Region) : s.ReportsDone (u.scramble rs).complete := by
  unfold State.ReportsDone
  rw [State.complete_status, State.complete_errAddr, State.scramble_status, State.scramble_errAddr, w.frame]
  exact ⟨rfl, rfl, rfl, rfl⟩

theorem Within.reportsError (w : Within i s u) (rs : List Region) (e : ErrCode) (x : Word) :
    s.ReportsError ((u.scramble rs).raiseError e x) e x.toNat := by
  unfold State.ReportsError
  rw [State.raiseError_status, State.raiseError_errAddr, State.scramble_status, w.frame]
  exact ⟨rfl, rfl, rfl, rfl⟩

/-- A phase's accesses in the terms of `RacedEnd`. -/
theorem tried_raced {a : Accesses} (h : s.tryAccesses a = (none, t)) :
    a.failing s.cfg = [] ∧ (a.mayFail s.cfg = [] ∨ Config.freeBool s.draws = false ∧ s.draws < t.draws) := by
  rcases s.tryAccesses_cases a with ⟨h1, h2, e⟩ | ⟨h1, _, h3, e⟩ | ⟨x, _, _, e⟩ <;> rw [h] at e
  · exact ⟨h1, .inl h2⟩
  · obtain rfl : t = { s with draws := s.draws + 1 } := (Prod.mk.inj e).2
    exact ⟨h1, .inr ⟨h3, Nat.lt_succ_self _⟩⟩
  · cases e

theorem tried_failed {a : Accesses} {x : Nat} (h : s.tryAccesses a = (some x, t)) :
    x ∈ a.failing s.cfg ++ a.mayFail s.cfg ∧
      (a.failing s.cfg = [] → Config.freeBool s.draws = true) ∧ s.draws < t.draws := by
  rcases s.tryAccesses_cases a with ⟨_, _, e⟩ | ⟨_, _, _, e⟩ | ⟨y, hy, h2, e⟩ <;> rw [h] at e
  · cases e
  · cases e
  · obtain ⟨rfl, rfl⟩ : x = y ∧ t = { s with draws := s.draws + 1 } := by simpa using e
    exact ⟨hy, h2, Nat.lt_succ_self _⟩

/-- The draw of the digest registers (R70). -/
theorem digestFree_drawDigest (hd : s.draws ≤ u.draws) : DigestFree s u.drawDigest where
  result := ⟨u.draws + 4, by omega, by simp, rfl⟩
  mismatch := ⟨u.draws + 5, by omega, by simp, rfl⟩

theorem checksumPhase_of_raced (h : s.raced = true) (bs : List Byte) : s.checksumPhase bs = s.drawDigest := by
  simp [State.checksumPhase, h]

theorem abandonDigest_of_raced (h : s.raced = true) : s.abandonDigest = s.drawDigest := by
  simp [State.abandonDigest, h]

theorem DigestFree.congr {v : State} (h : DigestFree s u) (h1 : v.chkResult = u.chkResult)
    (h2 : v.status.chkMismatch = u.status.chkMismatch) (h3 : u.draws ≤ v.draws) : DigestFree s v := by
  obtain ⟨⟨n, a, b, c⟩, m, d, e, f⟩ := h
  exact ⟨⟨n, a, b.trans_le h3, h1.trans c⟩, m, d, e.trans_le h3, h2.trans f⟩

theorem transfer_raced {r : Region} {f : List Byte → List Byte} (hr : s.raced = true)
    (hw : r ∈ i.writtenRegions s.operands) (hl : (f (s.load s.operands.srcRegion)).length = r.len)
    (hi : i.digests = false) : ∃ u, RacedEnd i s u (s.transfer i r.base f) := by
  have w := (Within.refl i s).tried (accessesOf i s.operands)
  have hnd : ∀ d, i ≠ .decode d true := by
    rintro d rfl
    cases hi
  unfold State.transfer
  split
  · rename_i addr t e
    rw [e] at w
    obtain ⟨h1, h2, h3⟩ := tried_failed e
    exact ⟨t, w, fun h => absurd (hi.symm.trans h) Bool.false_ne_true,
      .inr (.inl ⟨addr, h1, rfl, fun h => ⟨h2 h, h3⟩, fun d hd => absurd hd (hnd d)⟩)⟩
  · rename_i t e
    rw [e] at w
    have w2 := w.store hw hl
    rw [State.settle_of_raced (w2.raced.trans hr)]
    obtain ⟨h1, h2⟩ := tried_raced e
    exact ⟨_, w2, fun h => absurd (hi.symm.trans h) Bool.false_ne_true,
      .inl ⟨rfl, h1, h2, fun d hd => absurd hd (hnd d)⟩⟩

theorem csumBody_raced (hr : s.raced = true) : ∃ u, RacedEnd .csum s u s.csumBody := by
  have w := (Within.refl .csum s).tried s.operands.digestAccesses
  unfold State.csumBody
  split
  · rename_i addr t e
    rw [e] at w
    obtain ⟨h1, h2, h3⟩ := tried_failed e
    rw [abandonDigest_of_raced (w.raced.trans hr)]
    exact ⟨_, w.drawDigest rfl, fun _ => digestFree_drawDigest w.draws,
      .inr (.inl ⟨addr, h1, rfl, fun h => ⟨h2 h, h3.trans_le (Nat.le_add_right _ _)⟩, fun _ h => nomatch h⟩)⟩
  · rename_i t e
    rw [e] at w
    obtain ⟨h1, h2⟩ := tried_raced e
    rw [checksumPhase_of_raced (w.raced.trans hr)]
    exact ⟨_, w.drawDigest rfl, fun _ => digestFree_drawDigest w.draws,
      .inl ⟨rfl, h1, h2.imp_right (fun h => ⟨h.1, h.2.trans_le (Nat.le_add_right _ _)⟩), fun _ h => nomatch h⟩⟩

theorem encodeBody_raced {delta : Bool} (hr : s.raced = true) :
    ∃ u, RacedEnd (.encode delta) s u (s.encodeBody delta) := by
  have w := (Within.refl (.encode delta) s).tried s.operands.encodeAccesses
  unfold State.encodeBody
  dsimp only
  split
  · rename_i addr t e
    rw [e] at w
    obtain ⟨h1, h2, h3⟩ := tried_failed e
    rw [abandonDigest_of_raced (w.raced.trans hr)]
    exact ⟨_, w.drawDigest rfl, fun _ => digestFree_drawDigest w.draws,
      .inr (.inl ⟨addr, h1, rfl, fun h => ⟨h2 h, h3.trans_le (Nat.le_add_right _ _)⟩, fun _ h => nomatch h⟩)⟩
  · rename_i t e
    rw [e] at w
    have w2 : Within (.encode delta) s (t.store s.operands.dst.toNat
        (encodedPlanes delta s.operands.C s.operands.P (s.load s.operands.srcRegion))) :=
      w.store (r := s.operands.dstRegion) (by simp [Instr.writtenRegions]) (length_encodedPlanes _ _ _ _)
    obtain ⟨h1, h2⟩ := tried_raced e
    rw [checksumPhase_of_raced (w2.raced.trans hr), State.settle_of_raced ((w2.drawDigest rfl).raced.trans hr)]
    exact ⟨_, w2.drawDigest rfl, fun _ => digestFree_drawDigest w2.draws,
      .inl ⟨rfl, h1, h2.imp_right (fun h => ⟨h.1, h.2.trans_le (Nat.le_add_right _ _)⟩), fun _ h => nomatch h⟩⟩

/-- DECODE's checksum phase and comparison when raced: both are the draw. -/
theorem compared_of_raced (hr : s.raced = true) (bs : List Byte) :
    (s.checksumPhase bs).compareDigest = s.drawDigest ∧ s.drawDigest.mismatch = s.drawDigest.status.chkMismatch := by
  have hm : s.drawDigest.mismatch = s.drawDigest.status.chkMismatch := if_pos hr
  refine ⟨?_, hm⟩
  rw [checksumPhase_of_raced hr, State.compareDigest, hm, Bool.or_self]

theorem decodeStore_raced {delta fatal : Bool} (hr : s.raced = true) (h : Within (.decode delta fatal) s u)
    (hdf : DigestFree s u) {planes : List Byte} (hl : planes.length = s.operands.N)
    (hrd : s.operands.decodeReads.failing s.cfg = []) (hm : fatal = true → u.status.chkMismatch = false) :
    ∃ v, RacedEnd (.decode delta fatal) s v (u.decodeStore delta planes) := by
  have w := h.tried (u.operands.decodeWrites delta)
  have hf : (accessesOf (.decode delta fatal) s.operands).failing s.cfg = (s.operands.decodeWrites delta).failing s.cfg := by
    rw [failing_decode, hrd, List.nil_append]
  have hch := u.tryAccesses_cases (u.operands.decodeWrites delta)
  have hfat : ∀ d, Instr.decode delta fatal = .decode d true → u.status.chkMismatch = false := by
    rintro d hd
    injection hd with _ hd
    exact hm hd
  unfold State.decodeStore
  rw [h.operands, h.cfg] at hch
  rw [h.operands] at w ⊢
  dsimp only
  rcases hch with ⟨h1, h2, e⟩ | ⟨_, h2, _⟩ | ⟨addr, ha, h2, e⟩
  · rw [e] at w ⊢
    dsimp only
    have hL := length_restoredPlanes delta (C := s.operands.C) (P := s.operands.P) hl
    have hM : (mergeBytes s.operands.C s.operands.P (restoredPlanes delta s.operands.C s.operands.P planes)).length =
        s.operands.dstRegion.len := length_mergeBytes _ _ _
    have hd : s.operands.dstRegion ∈ (Instr.decode delta fatal).writtenRegions s.operands := by
      cases delta <;> simp [Instr.writtenRegions]
    cases delta
    · have w2 := w.store hd hM
      refine ⟨_, w2, fun _ => hdf.congr rfl rfl (Nat.le_refl _), .inl ⟨?_, hf.trans h1, .inl rfl, hfat⟩⟩
      exact congrArg State.complete (State.settle_of_raced (w2.raced.trans hr) _)
    · have w2 := (w.store (r := s.operands.srcRegion) (by simp [Instr.writtenRegions]) hL).store hd hM
      refine ⟨_, w2, fun _ => hdf.congr rfl rfl (Nat.le_refl _), .inl ⟨?_, hf.trans h1, .inl rfl, hfat⟩⟩
      exact congrArg State.complete (State.settle_of_raced (w2.raced.trans hr) _)
  · exact absurd rfl h2
  · rw [e] at w ⊢
    have ha' : addr ∈ (s.operands.decodeWrites delta).failing s.cfg := by
      simpa [Operands.decodeWrites, Accesses.mayFail] using ha
    refine ⟨_, w, fun _ => hdf.congr rfl rfl (Nat.le_succ _),
      .inr (.inl ⟨addr, List.mem_append_left _ (hf ▸ ha'), rfl, fun h => ?_, fun d hd _ => hfat d hd⟩)⟩
    rw [hf.symm.trans h] at ha'
    exact absurd ha' List.not_mem_nil

theorem decodeBody_raced {delta fatal : Bool} (hr : s.raced = true) :
    ∃ u, RacedEnd (.decode delta fatal) s u (s.decodeBody delta fatal) := by
  have w := (Within.refl (.decode delta fatal) s).tried s.operands.decodeReads
  unfold State.decodeBody
  dsimp only
  split
  · rename_i addr t e
    rw [e] at w
    obtain ⟨ha, h2, h3⟩ := tried_failed e
    have hne : s.operands.decodeReads.failing s.cfg ≠ [] := by
      intro h
      rw [h, List.nil_append] at ha
      exact absurd ha List.not_mem_nil
    have hf : (accessesOf (.decode delta fatal) s.operands).failing s.cfg ≠ [] := by
      rw [failing_decode]
      simp [hne]
    have w2 := w.drawDigest rfl
    rw [abandonDigest_of_raced (w.raced.trans hr), State.settle_of_raced (w2.raced.trans hr)]
    exact ⟨_, w2, fun _ => digestFree_drawDigest w.draws, .inr (.inl ⟨_,
      State.failedAddress_mem (fun h => hf (List.append_eq_nil_iff.mp h).1), rfl, fun h => absurd h hf,
      fun d _ h => absurd h hne⟩)⟩
  · rename_i t e
    rw [e] at w
    obtain ⟨h1, _⟩ := tried_raced e
    obtain ⟨hc, hm⟩ := compared_of_raced (w.raced.trans hr) (s.load s.operands.srcRegion)
    have w2 := w.drawDigest rfl
    have hdf := digestFree_drawDigest (s := s) (u := t) w.draws
    rw [hc, hm]
    split
    · rename_i hb
      rw [Bool.and_eq_true] at hb
      rw [State.settle_of_raced (w2.raced.trans hr)]
      exact ⟨_, w2, fun _ => hdf, .inr (.inr ⟨delta, by rw [hb.1], h1, hb.2, rfl⟩)⟩
    · rename_i hb
      refine decodeStore_raced hr w2 hdf (Memory.length_readRange _ _ _) h1 fun hf => ?_
      rw [hf, Bool.true_and, Bool.not_eq_true] at hb
      exact hb

/-- Everything a raced command can come to when it answers a next state. -/
theorem exec_raced (hr : s.raced = true) (h : exec i s = .next t) : ∃ u, RacedEnd i s u t := by
  cases i with
  | split =>
    rw [(runCommand_next h).2.2]
    exact transfer_raced (r := s.operands.dstRegion) hr (List.mem_singleton.mpr rfl) (length_splitBytes _ _ _) rfl
  | merge =>
    rw [(runCommand_next h).2.2]
    exact transfer_raced (r := s.operands.dstRegion) hr (List.mem_singleton.mpr rfl) (length_mergeBytes _ _ _) rfl
  | dfwd =>
    rw [(runCommand_next h).2.2]
    exact transfer_raced (r := s.operands.srcRegion) hr (List.mem_singleton.mpr rfl)
      (length_fwdBytes (Memory.length_readRange _ _ _)) rfl
  | dinv =>
    rw [(runCommand_next h).2.2]
    exact transfer_raced (r := s.operands.srcRegion) hr (List.mem_singleton.mpr rfl)
      (length_invBytes (Memory.length_readRange _ _ _)) rfl
  | csum =>
    rw [(runCommand_next h).2.2]
    exact csumBody_raced hr
  | encode delta =>
    rw [(runCommand_next h).2.2]
    exact encodeBody_raced hr
  | decode delta fatal =>
    rw [(runCommand_next h).2.2]
    exact decodeBody_raced hr

end Sys2Proof.Machine
end

