-- ==== Sys2Proof/Tests/Slice0.lean ====
section
/-! SUPPORT. Tests on fixed values, their expected results from the spec (the vectors T-… of 95_test_vectors.md, the
tables of 30_encoding.md and 10_state.md), and for every statement with hypotheses a state that meets them. -/

set_option Elab.async false

namespace Sys2Proof.Tests

open Sys2Proof Sys2Proof.Machine

/-! ### Helpers -/

/-- The parameters of the vectors: the defaults, and the test seeds TS. -/
def cfg : Config where
  addrW := 32
  maxChannels := 255
  maxTotalBytes := 99999960
  seedReset := ⟨1, 3, 5, 7⟩
  regBase := 2 ^ 32
  platformCoherent := true
  readFailing := []
  writeFailing := []
  sideEffects := []

/-- Parameter registers with the seeds TS. -/
def regs (src dst w h c len expect : Word) : Operands := ⟨src, dst, w, h, c, len, expect, ⟨1, 3, 5, 7⟩⟩

/-- An IDLE machine with these registers and bytes at an address. -/
def st (o : Operands) (base : Nat) (bytes : List Byte) : State :=
  { State.reset with cfg := cfg, params := o, mem := Memory.writeRange [] base bytes }

/-- The same with the command accepted and running. -/
def running (i : Instr) (s : State) : State := { s with cmd := encode i, eng := .busy i s.params false }

/-- The running command raced. -/
def raced (i : Instr) (s : State) : State := { s with cmd := encode i, eng := .busy i s.params true }

/-- Its next inputs. -/
def given (s : State) (l : List Input) : State := { s with inputs := l }

/-- A check on the next state; false where there is none. -/
def nextIs (o : Host.Outcome State Fault Refusal) (f : State → Bool) : Bool :=
  match o with
  | .next t => f t
  | .fault _ => false
  | .refused _ => false

/-- `State.Ready` as a check. -/
def readyCheck (i : Instr) (s : State) : Bool :=
  checkCommand s.cfg s.operands i == none && (i.regions s.operands).all (fun r => !s.cfg.touchesSideEffects r) &&
    !s.raced && (accessesOf i s.operands).failing s.cfg == [] && (accessesOf i s.operands).mayFail s.cfg == []

theorem ready_of_check {i : Instr} {s : State} (h : readyCheck i s = true) : s.Ready i := by
  simp only [readyCheck, Bool.and_eq_true, beq_iff_eq, List.all_eq_true, Bool.not_eq_eq_eq_not, Bool.not_true] at h
  exact ⟨h.1.1.1.1, h.1.1.1.2, h.1.1.2, h.1.2, h.2⟩

/-- `Valid` and `Ordinary` as a check. -/
def soundCheck (i : Instr) (s : State) : Bool :=
  checkCommand s.cfg s.operands i == none && (i.regions s.operands).all (fun r => !s.cfg.touchesSideEffects r)

theorem sound_of_check {i : Instr} {s : State} (h : soundCheck i s = true) : s.Valid i ∧ s.Ordinary i := by
  simp only [soundCheck, Bool.and_eq_true, beq_iff_eq, List.all_eq_true, Bool.not_eq_eq_eq_not, Bool.not_true] at h
  exact h

/-- The image X of 95_test_vectors.md section 5. -/
def image : List Byte := [10, 20, 30, 12, 22, 33, 14, 24, 35, 9, 19, 29]

/-- Its plane set, T-SRC-01. -/
def planes : List Byte := [10, 12, 14, 9, 20, 22, 24, 19, 30, 33, 35, 29]

/-- Its filtered plane set, T-SRC-02. -/
def filtered : List Byte := [10, 2, 2, 251, 20, 2, 2, 251, 30, 3, 2, 250]

/-- W = H = 2, C = 3, SRC = 0x1000, DST = 0x2000. -/
def regsX (expect : Word) : Operands := regs 0x1000 0x2000 2 2 3 12 expect

/-- The bytes 1 to 14. -/
def fourteen : List Byte := [1, 2, 3, 4, 5, 6, 7, 8, 9, 10, 11, 12, 13, 14]

/-! ### WellFormed: each check refuses an ill-formed term (30_encoding.md R96) -/

theorem test_wf_refuses_reserved_bit : (CmdFields.mk 1 false false 1).wf = false := by decide

theorem test_wf_refuses_op_0_and_8_to_15 :
    ([0, 8, 9, 10, 11, 12, 13, 14, 15] : List (BitVec 4)).all (fun op => !(CmdFields.mk 0 false false op).wf) = true := by
  decide

theorem test_wf_refuses_delta_on_csum : (CmdFields.mk 0 false true 5).wf = false := by decide

theorem test_wf_refuses_fatal_on_encode : (CmdFields.mk 0 true false 6).wf = false := by decide

theorem test_wf_accepts_decode_delta_fatal : (CmdFields.mk 0 true true 7).wf = true := by decide

/-- The parameters of R6: the bounds of each range, and one step outside each. -/
theorem test_config_bounds :
    ({ cfg with addrW := 0 }.legal || { cfg with addrW := 33 }.legal || { cfg with maxChannels := 6 }.legal ||
      { cfg with maxChannels := 256 }.legal || { cfg with maxTotalBytes := 0 }.legal ||
      { cfg with regBase := 128 }.legal) = false ∧
    (cfg.legal && { cfg with addrW := 1, maxChannels := 7, maxTotalBytes := 1, regBase := 256 }.legal) = true := by decide

/-! ### Decode: the words of 30_encoding.md R93 and R98, written out -/

theorem test_decode_split : decode 0b00000000000000000000000000000001 = some .split := by decide
theorem test_decode_merge : decode 0b00000000000000000000000000000010 = some .merge := by decide
theorem test_decode_dfwd : decode 0b00000000000000000000000000000011 = some .dfwd := by decide
theorem test_decode_dinv : decode 0b00000000000000000000000000000100 = some .dinv := by decide
theorem test_decode_csum : decode 0b00000000000000000000000000000101 = some .csum := by decide
theorem test_decode_encode : decode 0b00000000000000000000000000000110 = some (.encode false) := by decide
theorem test_decode_encode_d : decode 0b00000000000000000000000000010110 = some (.encode true) := by decide
theorem test_decode_decode : decode 0b00000000000000000000000000000111 = some (.decode false false) := by decide
theorem test_decode_decode_d : decode 0b00000000000000000000000000010111 = some (.decode true false) := by decide
theorem test_decode_decode_f : decode 0b00000000000000000000000000100111 = some (.decode false true) := by decide
theorem test_decode_decode_df : decode 0b00000000000000000000000000110111 = some (.decode true true) := by decide

/-- T-EN-02 to T-EN-07: each rejected under its own name. -/
theorem test_decode_rejects :
    decodeOrReject 0x00000000 = .error .reservedOp ∧ decodeOrReject 0x00000008 = .error .reservedOp ∧
    decodeOrReject 0x00000015 = .error .deltaNotAllowed ∧ decodeOrReject 0x00000026 = .error .fatalNotAllowed ∧
    decodeOrReject 0x00000041 = .error .reservedBits ∧ decodeOrReject 0x80000007 = .error .reservedBits := by
  refine ⟨?_, ?_, ?_, ?_, ?_, ?_⟩ <;> rfl

theorem test_encode_words : encode (.encode true) = 0x16 ∧ encode (.decode true true) = 0x37 := by decide

/-! ### The commands, one step each -/

/-- T-SRC-01. -/
theorem test_split_scenario :
    nextIs (exec .split (st (regsX 0) 0x1000 image)) (fun t =>
      t.mem.readRange 0x2000 12 == planes && t.mem.readRange 0x1000 12 == image && t.statusWord == 2) = true := by
  decide +kernel

/-- T-PL-05: seven channels. -/
theorem test_split_seven_channels :
    nextIs (exec .split (st (regs 0x1000 0x2000 1 2 7 0 0) 0x1000 fourteen)) (fun t =>
      t.mem.readRange 0x2000 14 == [1, 8, 2, 9, 3, 10, 4, 11, 5, 12, 6, 13, 7, 14]) = true := by
  decide +kernel

/-- T-PL-04. -/
theorem test_merge_two_channels :
    nextIs (exec .merge (st (regs 0x1000 0x2000 3 1 2 0 0) 0x1000 [1, 3, 5, 2, 4, 6])) (fun t =>
      t.mem.readRange 0x2000 6 == [1, 2, 3, 4, 5, 6] && t.statusWord == 2) = true := by
  decide +kernel

/-- T-PL-09. -/
theorem test_merge_seven_channels :
    nextIs (exec .merge (st (regs 0x1000 0x2000 1 2 7 0 0) 0x1000 [1, 8, 2, 9, 3, 10, 4, 11, 5, 12, 6, 13, 7, 14]))
      (fun t => t.mem.readRange 0x2000 14 == fourteen) = true := by
  decide +kernel

/-- T-DE-05: underflow wraps. -/
theorem test_dfwd_wraps :
    nextIs (exec .dfwd (st (regs 0x1000 0 5 1 1 0 0) 0x1000 [100, 50, 0, 200, 255])) (fun t =>
      t.mem.readRange 0x1000 5 == [100, 206, 206, 200, 55] && t.statusWord == 2) = true := by
  decide +kernel

/-- T-DE-07: plane 1's sample 0 is not predicted from plane 0. -/
theorem test_dfwd_two_planes :
    nextIs (exec .dfwd (st (regs 0x1000 0 2 1 2 0 0) 0x1000 [1, 2, 3, 4])) (fun t =>
      t.mem.readRange 0x1000 4 == [1, 1, 3, 1]) = true := by
  decide +kernel

/-- T-DE-06: overflow wraps. -/
theorem test_dinv_wraps :
    nextIs (exec .dinv (st (regs 0x1000 0 5 1 1 0 0) 0x1000 [100, 206, 206, 200, 55])) (fun t =>
      t.mem.readRange 0x1000 5 == [100, 50, 0, 200, 255] && t.statusWord == 2) = true := by
  decide +kernel

/-- T-DE-09: the running value restarts at each plane. -/
theorem test_dinv_two_planes :
    nextIs (exec .dinv (st (regs 0x1000 0 2 1 2 0 0) 0x1000 [1, 1, 3, 1])) (fun t =>
      t.mem.readRange 0x1000 4 == [1, 2, 3, 4]) = true := by
  decide +kernel

/-- T-CS-10: a group and a tail of three. -/
theorem test_csum_group_and_tail :
    nextIs (exec .csum (st (regs 0x1000 0 0 0 0 7 0) 0x1000 [1, 2, 3, 4, 5, 6, 7])) (fun t =>
      t.chkResult == 0x000036F3 && t.acc == ⟨0x9B, 0x50F, 0x2699, 0x81⟩ && t.statusWord == 2) = true := by
  decide +kernel

/-- T-CS-21: LENGTH = 0 at the top of memory. -/
theorem test_csum_empty :
    nextIs (exec .csum (st (regs 0xFFFFFFFF 0 0 0 0 0 0) 0 [])) (fun t => t.chkResult == 0x000000E6) = true := by
  decide +kernel

/-- T-CS-07, T-CS-08, T-CS-13, T-CS-14, T-CS-15, T-CS-20: order, byte 3, wrap, large seeds. -/
theorem test_digest_vectors :
    digest [1, 2, 3, 4] ⟨1, 3, 5, 7⟩ = 0x000010DA ∧ digest [4, 3, 2, 1] ⟨1, 3, 5, 7⟩ = 0x000021FA ∧
    digest [0, 0, 0, 0] ⟨1, 3, 5, 7⟩ = 0x0000257F ∧ digest [0, 0, 0, 1] ⟨1, 3, 5, 7⟩ = 0x0000209F ∧
    digest [255, 255, 255, 255] ⟨0xFFFFFFFF, 0xFFFFFFFF, 0xFFFFFFFF, 0xFFFFFFFF⟩ = 0xE0059160 ∧
    digest [0x80, 0x81, 0x82, 0x83, 0x84] ⟨0x9E3779B1, 0x85EBCA77, 0xC2B2AE3D, 0x27D4EB2F⟩ = 0x1C4EAA5B := by
  decide +kernel

/-- T-FU-01. -/
theorem test_encode_delta :
    nextIs (exec (.encode true) (st (regsX 0) 0x1000 image)) (fun t =>
      t.mem.readRange 0x2000 12 == filtered && t.chkResult == 0x2691E47A && t.statusWord == 2) = true := by
  decide +kernel

/-- T-FU-02. -/
theorem test_encode_plain :
    nextIs (exec (.encode false) (st (regsX 0) 0x1000 image)) (fun t =>
      t.mem.readRange 0x2000 12 == planes && t.chkResult == 0x022259B9 && t.statusWord == 2) = true := by
  decide +kernel

/-- T-FU-05: a mismatch that is not fatal. -/
theorem test_decode_mismatch_completes :
    nextIs (exec (.decode true false) (st (regsX 0) 0x1000 filtered)) (fun t =>
      t.mem.readRange 0x2000 12 == image && t.mem.readRange 0x1000 12 == planes && t.chkResult == 0x2691E47A &&
        t.statusWord == 0x0000000A) = true := by
  decide +kernel

/-- T-FU-04: a fatal mismatch. -/
theorem test_decode_fatal :
    nextIs (exec (.decode true true) (st (regsX 0) 0x1000 filtered)) (fun t =>
      t.mem == (st (regsX 0) 0x1000 filtered).mem && t.chkResult == 0x2691E47A && t.statusWord == 0x0000070C) = true := by
  decide +kernel

/-! ### Issue and registers -/

/-- The STATUS after a word is written to CMD with these registers. -/
def issued (w : Word) (o : Operands) : Word :=
  match step (given (st o 0 []) [wr .cmd w]) with
  | .next t => t.statusWord
  | .fault _ => 0xFFFFFFFF
  | .refused _ => 0xFFFFFFFF

/-- T-EN-08, T-ER-01 to T-ER-03, T-ER-11: the first failed check. -/
theorem test_issue_geometry :
    issued 0 (regs 0x1000 0x2000 0 2 3 0 0) = 0x104 ∧ issued 1 (regs 0x1000 0x2000 0 2 3 0 0) = 0x204 ∧
    issued 3 (regs 0x1000 0 2 2 0 0 0) = 0x204 ∧ issued 2 (regs 0x1000 0x9000 2 2 256 0 0) = 0x204 ∧
    issued 1 (regs 0x1000 0x1000 0 2 3 0 0) = 0x204 := by
  decide +kernel

/-- T-ER-04 to T-ER-10, T-CS-22, T-CS-23: size, range and overlap at their edges. -/
theorem test_issue_edges :
    issued 1 (regs 0x10000000 0x20000000 10000 10000 1 0 0) = 0x304 ∧
    issued 1 (regs 0x10000000 0x20000000 99999960 1 1 0 0) = 1 ∧
    issued 4 (regs 0xFFFFFFF0 0 16 1 2 0 0) = 0x404 ∧ issued 4 (regs 0xFFFFFFE0 0 16 1 2 0 0) = 1 ∧
    issued 1 (regs 0x1000 0x100B 2 2 3 0 0) = 0x504 ∧ issued 1 (regs 0x1000 0x100C 2 2 3 0 0) = 1 ∧
    issued 1 (regs 0x1000 0x1000 2 2 1 0 0) = 0x504 ∧
    issued 5 (regs 0xFFFFFFFF 0 0 0 0 1 0) = 1 ∧ issued 5 (regs 0xFFFFFFFF 0 0 0 0 2 0) = 0x404 := by
  decide +kernel

/-- T-ER-12: the only failing address is reported. -/
theorem test_bus_error :
    nextIs (exec (.encode true) { st (regsX 0) 0x1000 image with cfg := { cfg with readFailing := [⟨0x1005, 1⟩] } })
      (fun t => t.statusWord == 0x00000604 && t.errAddr == 0x1005 && t.chkResult == 0) = true := by
  decide +kernel

/-- A non-fatal mismatch stays reported when a later write fails (44_fused.md R203, R205; 10_state.md R28). -/
theorem test_late_bus_error_keeps_mismatch :
    nextIs (exec (.decode true false)
        { st (regsX 0) 0x1000 filtered with cfg := { cfg with writeFailing := [⟨0x200B, 1⟩] } })
      (fun t => t.statusWord == 0x0000060C && t.errAddr == 0x200B && t.chkResult == 0x2691E47A) = true := by
  decide +kernel

/-- R204, R229: a failed read ends DECODE before its comparison, whatever address of the command is reported. -/
theorem test_early_bus_error :
    nextIs (exec (.decode true true) { st (regsX 0) 0x1000 filtered with
        cfg := { cfg with readFailing := [⟨0x1005, 1⟩], writeFailing := [⟨0x200B, 1⟩] } })
      (fun t => t.statusWord == 0x00000604 && t.chkResult == 0 && t.mem == (st (regsX 0) 0x1000 filtered).mem) = true := by
  decide +kernel

/-- R260: a register write has no effect while the reset input is held, and takes effect once it is released. -/
theorem test_write_while_reset_held :
    nextIs (step (given { st (regsX 0) 0 [] with resetHeld := true } [wr .src 0x5000])) (fun t =>
      t.readReg .src == 0x1000) = true ∧
    nextIs (Host.Core.run core 2 (given { st (regsX 0) 0 [] with resetHeld := true } [.resetPin false, wr .src 0x5000]))
      (fun t => t.readReg .src == 0x5000) = true := by
  decide +kernel

/-- T-RG-04: SRST wins over IRQ_EN. -/
theorem test_ctrl_all_ones :
    nextIs (step (given (st (regsX 7) 0 []) [wr .ctrl 0xFFFFFFFF])) (fun t =>
      t.readReg .ctrl == 0 && t.readReg .src == 0 && t.readReg .chkSeed1 == 3) = true := by
  decide +kernel

/-- T-RG-05: a write while BUSY is dropped; T-RG-07: ERR_CODE survives the acknowledgement. -/
theorem test_write_while_busy :
    nextIs (step (given (running .split (st (regsX 0) 0 [])) [wr .src 0x5000])) (fun t =>
      t.readReg .src == 0x1000 && t.statusWord == 0x11) = true ∧
    nextIs (step (given { st (regsX 0) 0 [] with status := ⟨false, true, false, false, .badGeometry⟩ } [wr .status 4]))
      (fun t => t.statusWord == 0x00000200) = true := by
  decide +kernel

/-- T-RG-11: a 16-bit write has no effect and is answered by a bus error. -/
theorem test_narrow_write :
    nextIs (step (given (st (regsX 0) 0 []) [.regWrite .half 0x10 0x5000])) (fun t =>
      t.readReg .src == 0x1000 && t.resp == .accessError) = true := by
  decide +kernel

/-- A placed word runs as the first instruction after reset (30_encoding.md R96: word 0 is ILLEGAL_CMD). -/
theorem test_fetch_after_reset :
    nextIs (step (State.reset.withFetchWord 32 5)) (fun t => t.statusWord == 2) = true ∧
    nextIs (step (State.reset.withFetchWord 32 0)) (fun t => t.statusWord == 0x104) = true := by
  decide +kernel

/-! ### Witnesses: for each statement with hypotheses, states that meet them -/

/-- `State.Inv` as a check. -/
def invCheck (s : State) : Bool :=
  s.cfg.legal && s.mem.wf && s.mem.below (2 ^ s.cfg.addrW) &&
    (match s.eng with
      | .idle => true
      | .busy i o _ =>
        decode s.cmd == some i && o == s.params && checkCommand s.cfg o i == none && !s.status.done && !s.status.err &&
          !s.status.chkMismatch && s.status.errCode == .noError && s.errAddr == 0) &&
    (!s.status.done || !s.status.err) && (!s.status.err || s.status.errCode != .noError) &&
    (s.errAddr == 0 || s.status.errCode == .busError) && s.errAddr.toNat < 2 ^ s.cfg.addrW && !s.resetHeld

theorem inv_of_check {s : State} (h : invCheck s = true) : s.Inv := by
  simp only [invCheck, Bool.and_eq_true, decide_eq_true_eq] at h
  obtain ⟨⟨⟨⟨⟨⟨⟨⟨hc, hm⟩, hb⟩, he⟩, hd⟩, hr⟩, ha⟩, hs⟩, hh⟩ := h
  refine ⟨hc, hm, hb, ?_, ?_, ?_, ?_, ?_, hs, ?_⟩
  · intro i o r h
    simp only [h, Bool.and_eq_true, beq_iff_eq] at he
    exact ⟨he.1.1.1.1.1.1.1, he.1.1.1.1.1.1.2, he.1.1.1.1.1.2⟩
  · intro h
    obtain ⟨i, o, r, h⟩ := State.isBusy_iff.mp h
    simp only [h, Bool.and_eq_true, beq_iff_eq, Bool.not_eq_eq_eq_not, Bool.not_true] at he
    exact ⟨he.1.1.1.1.2, he.1.1.1.2, he.1.1.2, he.1.2, he.2⟩
  · intro h
    simpa [h] using hd
  · intro h
    simpa [h] using hr
  · intro h
    simp only [Bool.or_eq_true, beq_iff_eq] at ha
    exact ha.resolve_left h
  · intro h
    simp [h] at hh

/-- A platform with one address that fails every engine access. -/
def failingAt (a : Nat) (s : State) : State :=
  { s with cfg := { s.cfg with readFailing := [⟨a, 1⟩], writeFailing := [⟨a, 1⟩] } }

/-- SPLIT of X running, nothing pending. -/
def splitting : State := running .split (st (regsX 0) 0x1000 image)

/-- The reset state with the reset input held, these inputs pending. -/
def heldReset (l : List Input) : State :=
  { State.reset with cfg := cfg, params := Operands.atReset cfg, resetHeld := true, inputs := l }

theorem heldReset_atReset (l : List Input) : (heldReset l).AtReset where
  registers r := by cases r <;> first | rfl | exact State.statusWord_eq_zero rfl rfl
  idle := rfl
  irqLow := rfl

theorem heldReset_inv (l : List Input) : (heldReset l).Inv where
  cfg := (by decide : cfg.legal = true)
  memWf := rfl
  memInSpace := rfl
  running _ _ _ h := nomatch h
  quiet h := nomatch h
  oneEnd h := nomatch h
  errHasCode h := nomatch h
  errAddrMeans h := absurd rfl h
  errAddrInSpace := (by decide : (0 : Word).toNat < 2 ^ 32)
  held _ := heldReset_atReset l

theorem witness_IllegalWordsEndInIllegalCmd :
    (given (st (regsX 0) 0 []) [wr .cmd 0x80000007]).resetHeld = false ∧
    (given (st (regsX 0) 0 []) [wr .cmd 0x80000007]).eng = .idle ∧ decode 0x80000007 = none := by decide +kernel

theorem witness_StepRunsTheDecodedCommand :
    (0xFFFFFFFF < 2 ^ 32 ∧ decode (BitVec.ofNat 32 0x37) = some (.decode true true)) ∧
    (splitting.eng = .busy .split (regsX 0) false ∧ splitting.inputs = []) ∧
    (given splitting [.engine, wait]).inputs = .engine :: [wait] := by decide +kernel

theorem witness_IssuedCommandRunsOnEngineTurn :
    (given (st (regsX 0) 0x1000 image) [wr .cmd 0x16, .engine, wait]).resetHeld = false ∧
    (given (st (regsX 0) 0x1000 image) [wr .cmd 0x16, .engine, wait]).eng = .idle ∧
    decode 0x16 = some (.encode true) ∧ checkCommand cfg (regsX 0) (.encode true) = none := by decide +kernel

theorem witness_RunPseudoOperationEnds :
    (given (st (regsX 0) 0x1000 image) (run (.encode true) ++ [rd .chkResult])).resetHeld = false ∧
    (given (st (regsX 0) 0x1000 image) (run (.encode true) ++ [rd .chkResult])).Inv ∧
    State.Valid (.encode true) (given (st (regsX 0) 0x1000 image) (run (.encode true) ++ [rd .chkResult])) ∧
    State.Ordinary (.encode true) (given (st (regsX 0) 0x1000 image) (run (.encode true) ++ [rd .chkResult])) :=
  ⟨rfl, inv_of_check (by decide +kernel), sound_of_check (by decide +kernel)⟩

theorem witness_SoftAndHardwareResetAgree :
    (Input.resetPin true).resets ∧ (wr .ctrl 0xFFFFFFFF).resets ∧ (wr .ctrl 2).resets :=
  ⟨.inl rfl, .inr ⟨_, rfl, rfl⟩, .inr ⟨_, rfl, rfl⟩⟩

theorem witness_ResetAbandonsTheCommand :
    (st (regsX 0) 0x1000 image).mem.wf = true ∧ (st (regsX 0) 0x1000 image).eng = .idle ∧
    splitting.mem.wf = true ∧ splitting.isBusy = true ∧
    Region.anyContains (Instr.split.writtenRegions (regsX 0)) 0x200B = true ∧
    Region.anyContains (Instr.split.writtenRegions (regsX 0)) 0x200C = false := by decide +kernel

theorem witness_RegisterReadsHaveNoSideEffect :
    (given splitting [.regRead .word Reg.maxtotal.offset]).inputs = [.regRead .word 0x48] ∧
    (given splitting [.regRead .byte 0xFF]).inputs = [.regRead .byte 0xFF] := by decide +kernel

/-- A witness for each clause: reserved offsets at both ends, a read-only register, SRST while BUSY, a dropped write, IRQ_EN,
STATUS, and a parameter register while IDLE. -/
theorem witness_RegisterWritesByEngineState :
    (0x4C ≤ (0x4C : BitVec 8).toNat ∧ (0x4C : BitVec 8).toNat % 4 = 0 ∧ 0x4C ≤ (0xFC : BitVec 8).toNat ∧
      (0xFC : BitVec 8).toNat % 4 = 0 ∧ (given splitting [.regWrite .word 0xFC 7]).inputs = [.regWrite .word 0xFC 7]) ∧
    (Reg.maxtotal ∈ Reg.readOnly ∧ (given splitting [wr .maxtotal 1]).inputs = [wr .maxtotal 1]) ∧
    ((0xFFFFFFFF : Word).getLsbD 1 = true ∧
      (given splitting [wr .ctrl 0xFFFFFFFF]).inputs = [wr .ctrl 0xFFFFFFFF]) ∧
    (splitting.resetHeld = false ∧ splitting.isBusy = true ∧ Reg.chkSeed3 ∈ Reg.lockedWhileBusy ∧
      (given splitting [wr .chkSeed3 9]).inputs = [wr .chkSeed3 9]) ∧
    ((0xFFFFFFFD : Word).getLsbD 1 = false ∧ (given splitting [wr .status 6]).inputs = [wr .status 6]) ∧
    ((st (regsX 0) 0 []).isBusy = false ∧ (st (regsX 0) 0 []).resetHeld = false ∧ Reg.src ∈ Reg.lockedWhileBusy ∧
      Reg.src ≠ Reg.cmd) := by decide +kernel

theorem witness_ReservedOffsetsAndBits :
    ((0x4C : BitVec 8).toNat % 4 = 0 ∧ 0x4C ≤ (0x4C : BitVec 8).toNat) ∧
    ((0xFC : BitVec 8).toNat % 4 = 0 ∧ 0x4C ≤ (0xFC : BitVec 8).toNat) ∧
    (∀ k, 1 ≤ k → k ≤ 4 → (0xFFFFFFE1 : Word).getLsbD k = (0 : Word).getLsbD k) ∧
    ∀ k, k ≤ 1 → (0xFFFFFFFC : Word).getLsbD k = (0 : Word).getLsbD k := by
  refine ⟨by decide, by decide, ?_, ?_⟩
  · intro k h1 h2
    interval_cases k <;> decide
  · intro k h
    interval_cases k <;> decide

theorem witness_IrregularWindowAccessHasNoEffect :
    (AccessSize.half ≠ .word ∨ (0x10 : BitVec 8).toNat % 4 ≠ 0) ∧
    (AccessSize.word ≠ .word ∨ (0xFF : BitVec 8).toNat % 4 ≠ 0) := by decide

theorem witness_StatusWriteClearsWrittenBits :
    (given { st (regsX 0) 0 [] with status := ⟨true, false, true, true, .noError⟩, irqEn := true } [ack]).inputs =
      [wr .status 0x1E] ∧
    (given { st (regsX 0) 0 [] with status := ⟨true, false, true, true, .noError⟩, irqEn := true } [ack]).resetHeld =
      false ∧
    (0x1E : Word).getLsbD 1 = true ∧ (0x1E : Word).getLsbD 2 = true := by decide +kernel

theorem witness_IdentificationRegisters :
    cfg.legal = true ∧ { cfg with addrW := 1, maxChannels := 7, maxTotalBytes := 2 ^ 32 - 1 }.legal = true ∧
    (given splitting [wr .id 0]).inputs = [wr .id 0] ∧ (given splitting [wr .maxtotal 1]).inputs = [wr .maxtotal 1] := by
  decide +kernel

/-- PROG-3's failed issue, with IRQ_EN = 1. -/
def badIssue : State :=
  given { st (regs 0x2000 0x3000 0 2 3 0 0) 0x2000 filtered with irqEn := true } [wr .cmd 0x17]

/-- T-RG-09: IRQ_EN is written while DONE stands. -/
def lateEnable : State :=
  given { st (regsX 0) 0x1000 image with status := ⟨true, false, false, false, .noError⟩ } [wr .ctrl 1]

theorem witness_InterruptFollowsCommandEnds :
    splitting.Inv ∧ splitting.isBusy = true ∧ splitting.nextEvent = .engine ∧
    (given splitting [wr .ctrl 0]).nextEvent = wr .ctrl 0 ∧
    nextIs (step (given (st (regsX 0) 0x1000 image) [wr .cmd 1])) State.isBusy = true ∧
    (given splitting [.resetPin true]).nextEvent.resets ∧
    (badIssue.Inv ∧ badIssue.resetHeld = false ∧ badIssue.isBusy = false ∧ badIssue.nextEvent = wr .cmd 0x17 ∧
      validate badIssue.cfg badIssue.params 0x17 = .error .badGeometry ∧ badIssue.irq = false ∧
      nextIs (step badIssue) (fun t => t.irq && t.statusWord == 0x204) = true) ∧
    lateEnable.Inv ∧ lateEnable.resetHeld = false ∧ lateEnable.nextEvent = wr .ctrl 1 ∧ lateEnable.irq = false ∧
      nextIs (step lateEnable) State.irq = true :=
  ⟨inv_of_check (by decide +kernel), rfl, rfl, rfl, by decide +kernel, .inl rfl,
    ⟨inv_of_check (by decide +kernel), rfl, rfl, rfl, rfl, rfl, by decide +kernel⟩,
    inv_of_check (by decide +kernel), rfl, rfl, rfl, by decide +kernel⟩

theorem witness_IssueSetsReadbackAndClearsReport :
    (given (st (regsX 0) 0 []) [wr .cmd 1]).resetHeld = false ∧
    (given (st (regsX 0) 0 []) [wr .cmd 1]).eng = .idle ∧ (given (st (regsX 0) 0 []) [wr .cmd 1]).inputs = [wr .cmd 1] ∧
    nextIs (step (given (st (regsX 0) 0 []) [wr .cmd 1])) State.isBusy = true := by decide +kernel

/-- The edges of T-ER-01 to T-ER-11, T-CS-22 and T-CS-23: for each clause a value that meets it and the value next to it
that does not. -/
theorem witness_FirstFailedCheckIsReported :
    ((0 : Word).toNat = 0 ∧ ¬(1 : Word).toNat = 0 ∧ cfg.maxChannels < (256 : Word).toNat ∧
      ¬cfg.maxChannels < (255 : Word).toNat) ∧
    (cfg.maxTotalBytes < 1 * 99999961 * 1 ∧ ¬cfg.maxTotalBytes < 1 * 99999960 * 1) ∧
    (2 ^ 32 < (0xFFFFFFFF : Word).toNat + 2 ∧ ¬2 ^ 32 < (0xFFFFFFFF : Word).toNat + 1 ∧
      2 ^ 32 < (0xFFFFFFF0 : Word).toNat + 32 ∧ ¬2 ^ 32 < (0xFFFFFFE0 : Word).toNat + 32) ∧
    (¬((0x1000 : Word).toNat + 12 ≤ (0x100B : Word).toNat ∨ (0x100B : Word).toNat + 12 ≤ (0x1000 : Word).toNat) ∧
      (0x1000 : Word).toNat + 12 ≤ (0x100C : Word).toNat) ∧
    decode 0 = none ∧ decode 0x37 = some (.decode true true) ∧
    (given (st (regsX 0) 0 []) [wr .cmd 0x37]).resetHeld = false := by decide +kernel

/-- X up to the last byte of the address space. -/
def atTop : State := st { regsX 0 with src := 0xFFFFFFF4 } 0xFFFFFFF4 image

theorem witness_SplitDeinterleavesImage :
    (atTop.mem.wf = true ∧ atTop.Ready .split) ∧ splitting.mem.wf = true ∧ splitting.Ready .split :=
  ⟨⟨by decide +kernel, ready_of_check (by decide +kernel)⟩, by decide +kernel, ready_of_check (by decide +kernel)⟩

theorem witness_MergeInterleavesPlanes : atTop.mem.wf = true ∧ atTop.Ready .merge :=
  ⟨by decide +kernel, ready_of_check (by decide +kernel)⟩

theorem witness_DfwdStoresDifferences : atTop.mem.wf = true ∧ atTop.Ready .dfwd :=
  ⟨by decide +kernel, ready_of_check (by decide +kernel)⟩

theorem witness_DinvRestoresSamples : atTop.mem.wf = true ∧ atTop.Ready .dinv :=
  ⟨by decide +kernel, ready_of_check (by decide +kernel)⟩

theorem witness_CsumWritesDigest :
    atTop.Ready .csum ∧ (st (regs 0xFFFFFFFF 0 0 0 0 0 0) 0 []).Ready .csum :=
  ⟨ready_of_check (by decide +kernel), ready_of_check (by decide +kernel)⟩

theorem witness_EncodeLeavesDigestedPlanes :
    atTop.mem.wf = true ∧ atTop.Ready (.encode true) ∧ atTop.Ready (.encode false) :=
  ⟨by decide +kernel, ready_of_check (by decide +kernel), ready_of_check (by decide +kernel)⟩

/-- The filtered planes with their digest, 95_test_vectors.md T-FU-03. -/
def encoded (expect : Word) : State := st (regsX expect) 0x1000 filtered

theorem witness_DecodeRestoresImage :
    (encoded 0x2691E47A).mem.wf = true ∧ (encoded 0x2691E47A).Ready (.decode true true) ∧
    digest ((encoded 0x2691E47A).mem.readRange 0x1000 12) ⟨1, 3, 5, 7⟩ = 0x2691E47A ∧
    (encoded 0).Ready (.decode false false) :=
  ⟨by decide +kernel, ready_of_check (by decide +kernel), by decide +kernel, ready_of_check (by decide +kernel)⟩

/-- T-FU-04, where nothing fails and where a later write would. -/
theorem witness_DecodeFatalMismatchWritesNothing :
    (((encoded 0).Valid (.decode true true) ∧ (encoded 0).Ordinary (.decode true true)) ∧ (encoded 0).raced = false ∧
      (encoded 0).operands.decodeReads.failing (encoded 0).cfg = []) ∧
    (((failingAt 0x200B (encoded 0)).Valid (.decode true true) ∧
      (failingAt 0x200B (encoded 0)).Ordinary (.decode true true)) ∧ (failingAt 0x200B (encoded 0)).raced = false ∧
      (failingAt 0x200B (encoded 0)).operands.decodeReads.failing (failingAt 0x200B (encoded 0)).cfg = []) ∧
    (accessesOf (.decode true true) (regsX 0)).failing (failingAt 0x200B (encoded 0)).cfg = [0x200B] ∧
    digest ((encoded 0).mem.readRange 0x1000 12) ⟨1, 3, 5, 7⟩ ≠ 0 :=
  ⟨⟨sound_of_check (by decide +kernel), rfl, by decide +kernel⟩,
    ⟨sound_of_check (by decide +kernel), rfl, by decide +kernel⟩, by decide +kernel, by decide +kernel⟩

/-- X split at 0x2000, then its planes there as the source of a MERGE to 0x3000. -/
def splitThenMerge : State := { st (regs 0x2000 0x3000 2 2 3 12 0) 0x1000 image with
  mem := Memory.writeRange (Memory.writeRange [] 0x1000 image) 0x2000 planes }

theorem witness_SplitAndMergeAreInverse :
    (1 ≤ 3 ∧ 1 ≤ 4 ∧ image.length = 3 * 4 ∧ (st (regsX 0) 0x1000 image).mem.wf = true) ∧
    (st (regsX 0) 0x1000 image).Ready .split ∧
    nextIs (exec .split (st (regsX 0) 0x1000 image)) (fun t => t.mem == splitThenMerge.mem) = true ∧
    splitThenMerge.operands = { (st (regsX 0) 0x1000 image).operands with src := 0x2000, dst := 0x3000 } ∧
    splitThenMerge.Ready .merge :=
  ⟨by decide +kernel, ready_of_check (by decide +kernel), by decide +kernel, rfl, ready_of_check (by decide +kernel)⟩

theorem witness_DeltaFiltersAreInverse :
    (st (regsX 0) 0x1000 planes).mem.wf = true ∧ (st (regsX 0) 0x1000 planes).Ready .dfwd ∧
    nextIs (exec .dfwd (st (regsX 0) 0x1000 planes)) (fun t => t.mem == (encoded 0).mem) = true ∧
    (encoded 0).operands = (st (regsX 0) 0x1000 planes).operands ∧ (encoded 0).Ready .dinv :=
  ⟨by decide +kernel, ready_of_check (by decide +kernel), by decide +kernel, rfl, ready_of_check (by decide +kernel)⟩

theorem witness_SingleByteChangeReachesAccumulators : (0 : Byte) ≠ 1 := by decide

/-- T-PL-10: 2 by 3 against 6 by 1. -/
theorem witness_NoRowStructure :
    (st (regs 0x1000 0x2000 2 3 1 0 0) 0x1000 [1, 2, 3, 4, 5, 6]).Ready .split ∧
    (st (regs 0x1000 0x2000 6 1 1 0 0) 0x1000 [1, 2, 3, 4, 5, 6]).Ready .split ∧
    (st (regs 0x1000 0x2000 2 3 1 0 0) 0x1000 [1, 2, 3, 4, 5, 6]).mem.wf = true ∧
    (regs 0x1000 0x2000 6 1 1 0 0) = { regs 0x1000 0x2000 2 3 1 0 0 with width := 6, height := 1 } ∧
    (6 : Word).toNat * (1 : Word).toNat = (2 : Word).toNat * (3 : Word).toNat :=
  ⟨ready_of_check (by decide +kernel), ready_of_check (by decide +kernel), by decide +kernel, rfl, by decide⟩

theorem witness_EveryStepKeepsInvariant :
    splitting.Inv ∧ nextIs (step splitting) (fun _ => true) = true ∧
    ((heldReset [wr .ctrl 1]).Inv ∧ nextIs (step (heldReset [wr .ctrl 1])) (fun t => t.resetHeld && !t.irqEn) = true) ∧
    (given (raced .split atTop) [.memWrite 0xFFFFFFFF 7]).Inv ∧
    nextIs (step (given (raced .split atTop) [.memWrite 0xFFFFFFFF 7])) (fun _ => true) = true :=
  ⟨inv_of_check (by decide +kernel), by decide +kernel, ⟨heldReset_inv _, by decide +kernel⟩,
    inv_of_check (by decide +kernel), by decide +kernel⟩

theorem witness_CommandsWriteOnlyTheirRegions :
    (failingAt 0x1005 splitting).mem.wf = true ∧
    nextIs (exec .split (failingAt 0x1005 splitting)) (fun t => t.statusWord == 0x604) = true ∧
    (failingAt 0x1005 splitting).mayChange .split 0x1FFF = false := by decide +kernel

/-- Another memory with the same bytes in SPLIT's regions. -/
theorem witness_CommandsReadOnlyTheirRegions :
    Memory.wf (splitting.mem.write 0x5000 1) = true ∧
    (∀ a, Region.anyContains (Instr.split.regions splitting.operands) a = true →
      Memory.read (splitting.mem.write 0x5000 1) a = splitting.mem.read a) ∧
    nextIs (exec .split splitting) (fun _ => true) = true := by
  refine ⟨by decide +kernel, ?_, by decide +kernel⟩
  intro a ha
  rw [Memory.read_write (by decide +kernel), if_neg]
  rintro rfl
  exact absurd ha (by decide +kernel)

theorem witness_NoFaultWithInvariant : splitting.Inv ∧ splitting.nextEvent.isMemoryAccess = false :=
  ⟨inv_of_check (by decide +kernel), rfl⟩

theorem witness_EngineStartsAndStopsOnlyAsSaid :
    ((given (st (regsX 0) 0x1000 image) [wr .cmd 1]).isBusy = false ∧
      nextIs (step (given (st (regsX 0) 0x1000 image) [wr .cmd 1])) State.isBusy = true) ∧
    (splitting.isBusy = true ∧ nextIs (step splitting) (fun t => !t.isBusy) = true) ∧
    nextIs (step (given splitting [.memWrite 0x2000 1])) (fun t => t.eng == .busy .split (regsX 0) true) = true := by
  decide +kernel

theorem witness_ChkResultChangesOnlyByDigests :
    nextIs (step (running (.encode true) (st (regsX 0) 0x1000 image))) (fun t => t.chkResult != 0) = true ∧
    nextIs (step (given { st (regsX 0) 0 [] with chkResult := 5 } [.resetPin true])) (fun t => t.chkResult != 5) =
      true := by decide +kernel

theorem witness_OnlyTheHostWritesParameters :
    nextIs (step (given (st (regsX 0) 0 []) [wr .chkSeed3 9])) (fun t => t.params != regsX 0) = true ∧
    nextIs (step (given (st (regsX 0) 0 []) [.resetPin true])) (fun t => t.params != regsX 0) = true := by
  decide +kernel

theorem witness_WbusyIsSticky :
    (given splitting [wr .cmd 1]).resetHeld = false ∧
    nextIs (step (given splitting [wr .cmd 1])) (fun t => t.status.wbusy) = true ∧
    nextIs (step (given { splitting with status := ⟨false, false, false, true, .noError⟩ } [wr .status 0x10]))
      (fun t => !t.status.wbusy) = true := by decide +kernel

theorem witness_CommandsEndWithOneReport :
    splitting.Inv ∧ splitting.isBusy = true ∧ splitting.nextEvent = .engine ∧
    nextIs (step splitting) (fun _ => true) = true :=
  ⟨inv_of_check (by decide +kernel), rfl, rfl, by decide +kernel⟩

theorem witness_FailedAccessEndsInBusError :
    (State.Valid .csum (failingAt 0x100B (running .csum (st (regsX 0) 0x1000 image))) ∧
      State.Ordinary .csum (failingAt 0x100B (running .csum (st (regsX 0) 0x1000 image)))) ∧
    (accessesOf .csum (regsX 0)).failing (failingAt 0x100B splitting).cfg = [0x100B] ∧
    (State.Valid .dfwd (failingAt 0x1001 (running .dfwd (st (regsX 0) 0x1000 image))) ∧
      State.Ordinary .dfwd (failingAt 0x1001 (running .dfwd (st (regsX 0) 0x1000 image)))) ∧
    (accessesOf .dfwd (regsX 0)).failing (failingAt 0x1001 splitting).cfg ≠ [] ∧
    (failingAt 0x1001 splitting).cfg.legal = true ∧
    (failingAt 0x100B (running .csum (st (regsX 0) 0x1000 image))).mem.wf = true ∧
    (failingAt 0x100B (running .csum (st (regsX 0) 0x1000 image))).raced = false ∧
    (failingAt 0x1001 (running .dfwd (st (regsX 0) 0x1000 image))).raced = false :=
  ⟨sound_of_check (by decide +kernel), by decide +kernel, sound_of_check (by decide +kernel), by decide +kernel,
    by decide +kernel, by decide +kernel, rfl, rfl⟩

theorem witness_DecodeReadFailurePreemptsComparison :
    (State.Valid (.decode true true) (failingAt 0x1000 (encoded 0)) ∧
      State.Ordinary (.decode true true) (failingAt 0x1000 (encoded 0))) ∧
    (regsX 0).decodeReads.failing (failingAt 0x1000 (encoded 0)).cfg = [0x1000] ∧
    (failingAt 0x1000 (encoded 0)).raced = false ∧ (failingAt 0x1000 (encoded 0)).cfg.legal = true :=
  ⟨sound_of_check (by decide +kernel), by decide +kernel, rfl, by decide +kernel⟩

theorem witness_DecodeWriteFailureKeepsDigest :
    (State.Valid (.decode true true) (failingAt 0x200B (encoded 0x2691E47A)) ∧
      State.Ordinary (.decode true true) (failingAt 0x200B (encoded 0x2691E47A))) ∧
    (regsX 0).decodeReads.failing (failingAt 0x200B (encoded 0)).cfg = [] ∧
    ((regsX 0).decodeWrites true).failing (failingAt 0x200B (encoded 0)).cfg = [0x200B] ∧
    digest ((encoded 0x2691E47A).mem.readRange 0x1000 12) ⟨1, 3, 5, 7⟩ = 0x2691E47A ∧
    (failingAt 0x200B (encoded 0x2691E47A)).mem.wf = true ∧ (failingAt 0x200B (encoded 0x2691E47A)).raced = false ∧
    (failingAt 0x200B (encoded 0x2691E47A)).cfg.legal = true :=
  ⟨sound_of_check (by decide +kernel), by decide +kernel, by decide +kernel, by decide +kernel, by decide +kernel, rfl,
    by decide +kernel⟩

theorem witness_RacedCommandEndsWithFreeValues :
    (State.Valid (.decode true true) (raced (.decode true true) (encoded 0)) ∧
      State.Ordinary (.decode true true) (raced (.decode true true) (encoded 0))) ∧
    (raced (.decode true true) (encoded 0)).raced = true ∧ (raced (.decode true true) (encoded 0)).mem.wf = true ∧
    State.NoAccessFails (.decode true true) (raced (.decode true true) (encoded 0)) ∧
    (State.Valid .split (raced .split (encoded 0)) ∧ State.Ordinary .split (raced .split (encoded 0))) :=
  ⟨sound_of_check (by decide +kernel), rfl, by decide +kernel, ⟨by decide +kernel, by decide +kernel⟩,
    sound_of_check (by decide +kernel)⟩

/-- Raced, with a failing access: SPLIT by a read, DFWD by an access R66 leaves open, a FATAL DECODE by a write after its
comparison and by a read before it. -/
theorem witness_RacedCommandWithFailingAccess :
    let splitFails := failingAt 0x1005 (raced .split (encoded 0))
    let seedFails : State := { raced .dfwd (st (regsX 0) 0x1000 planes) with
      cfg := { cfg with writeFailing := [⟨0x1004, 1⟩] } }
    let storeFails := failingAt 0x200B (raced (.decode true true) (encoded 0))
    let loadFails := failingAt 0x1000 (raced (.decode true true) (encoded 0))
    ((splitFails.Valid .split ∧ splitFails.Ordinary .split) ∧ splitFails.mem.wf = true ∧ splitFails.cfg.legal = true ∧
      splitFails.raced = true ∧ (accessesOf .split splitFails.operands).failing splitFails.cfg = [0x1005]) ∧
    ((seedFails.Valid .dfwd ∧ seedFails.Ordinary .dfwd) ∧ seedFails.mem.wf = true ∧ seedFails.cfg.legal = true ∧
      seedFails.raced = true ∧ (accessesOf .dfwd seedFails.operands).failing seedFails.cfg = [] ∧
      (accessesOf .dfwd seedFails.operands).mayFail seedFails.cfg = [0x1004]) ∧
    ((storeFails.Valid (.decode true true) ∧ storeFails.Ordinary (.decode true true)) ∧ storeFails.raced = true ∧
      storeFails.operands.decodeReads.failing storeFails.cfg = [] ∧
      (accessesOf (.decode true true) storeFails.operands).failing storeFails.cfg = [0x200B]) ∧
    (loadFails.Valid (.decode true true) ∧ loadFails.Ordinary (.decode true true)) ∧ loadFails.raced = true ∧
      loadFails.operands.decodeReads.failing loadFails.cfg = [0x1000] :=
  ⟨⟨sound_of_check (by decide +kernel), by decide +kernel, by decide +kernel, rfl, by decide +kernel⟩,
    ⟨sound_of_check (by decide +kernel), by decide +kernel, by decide +kernel, rfl, by decide +kernel,
      by decide +kernel⟩,
    ⟨sound_of_check (by decide +kernel), rfl, by decide +kernel, by decide +kernel⟩,
    sound_of_check (by decide +kernel), rfl, by decide +kernel⟩

/-- SPLIT to the register window of a platform that has it at 0x2000, or with a SRC beyond a 16-bit address space. -/
theorem witness_CommandsStopOffOrdinaryMemory :
    { cfg with regBase := 0x2000 }.touchesSideEffects (regsX 0).dstRegion = true ∧
    (regsX 0).dstRegion ∈ Instr.split.regions (regsX 0) ∧
    State.Ordinary .csum { st (regs 0x10000 0 0 0 0 1 0) 0 [] with cfg := { cfg with addrW := 16 } } ∧
    2 ^ 16 < (regs 0x10000 0 0 0 0 1 0).bufRegion.base + (regs 0x10000 0 0 0 0 1 0).bufRegion.len := by
  refine ⟨by decide +kernel, by decide +kernel, ?_, by decide +kernel⟩
  intro r hr
  rw [List.mem_singleton.mp hr]
  decide +kernel

theorem witness_HostMemoryAccess :
    0xFFFFFFFF < 2 ^ cfg.addrW ∧ cfg.touchesSideEffects ⟨0xFFFFFFFF, 1⟩ = false ∧ splitting.mem.wf = true ∧
    splitting.inRunningRegion 0xFFFFFFFF = false ∧ splitting.inRunningRegion 0x1000 = true ∧
    splitting.inRunningRegion 0x200B = true ∧ splitting.inRunningRegion 0x200C = false := by decide +kernel

/-- A BUSY state, as in a run, and an IDLE one. -/
theorem witness_EncodeEqualsSequence :
    (atTop.mem.wf = true ∧ atTop.cfg.legal = true ∧ atTop.operands = atTop.params ∧ atTop.Ready (.encode true)) ∧
    (running (.encode true) atTop).isBusy = true ∧ (running (.encode true) atTop).mem.wf = true ∧
    (running (.encode true) atTop).cfg.legal = true ∧
    (running (.encode true) atTop).operands = (running (.encode true) atTop).params ∧
    (running (.encode true) atTop).Ready (.encode true) :=
  ⟨⟨by decide +kernel, by decide +kernel, rfl, ready_of_check (by decide +kernel)⟩, rfl, by decide +kernel,
    by decide +kernel, rfl, ready_of_check (by decide +kernel)⟩

/-- DECODE of T-FU-03 running, and the same on an IDLE state. -/
theorem witness_DecodeEqualsSequence :
    let busy := running (.decode true true) (encoded 0x2691E47A)
    (busy.isBusy = true ∧ busy.mem.wf = true ∧ busy.cfg.legal = true ∧ busy.operands = busy.params ∧
      busy.Ready (.decode true true) ∧ nextIs (exec (.decode true true) busy) (fun e => !e.status.err) = true) ∧
    (encoded 0x2691E47A).operands = (encoded 0x2691E47A).params ∧ (encoded 0x2691E47A).Ready (.decode true true) :=
  ⟨⟨rfl, by decide +kernel, by decide +kernel, rfl, ready_of_check (by decide +kernel), by decide +kernel⟩, rfl,
    ready_of_check (by decide +kernel)⟩

/-- X encoded at 0x2000 and decoded to 0x3000, T-FU-01 then PROG-2. -/
theorem witness_EncodeDecodeRoundTrip :
    (st (regsX 0) 0x1000 image).Ready (.encode true) ∧
    (st (regs 0x2000 0x3000 2 2 3 0 0x2691E47A) 0x2000 filtered).mem.wf = true ∧
    (st (regs 0x2000 0x3000 2 2 3 0 0x2691E47A) 0x2000 filtered).Ready (.decode true true) ∧
    nextIs (exec (.encode true) (st (regsX 0) 0x1000 image)) (fun t =>
      t.mem.readRange 0x2000 12 == (st (regs 0x2000 0x3000 2 2 3 0 0x2691E47A) 0x2000 filtered).mem.readRange 0x2000 12 &&
        t.chkResult == 0x2691E47A) = true :=
  ⟨ready_of_check (by decide +kernel), by decide +kernel, ready_of_check (by decide +kernel), by decide +kernel⟩

/-- Asserted on a BUSY block; a write while held; the release; a read after it. -/
theorem witness_ResetInputHoldsTheResetState :
    (given splitting [.resetPin true]).inputs = [.resetPin true] ∧
    ((heldReset [wr .cmd 5]).resetHeld = true ∧ (heldReset [wr .cmd 5]).AtReset ∧
      (heldReset [wr .cmd 5]).inputs = [wr .cmd 5]) ∧
    (heldReset [.resetPin false]).inputs = [.resetPin false] ∧
    ((∀ size off v, (heldReset [rd .status]).nextEvent ≠ .regWrite size off v) ∧
      nextIs (step (heldReset [rd .status])) (fun t => t.resp == .word 0) = true) :=
  ⟨rfl, ⟨rfl, heldReset_atReset _, rfl⟩, rfl, fun _ _ _ h => (nomatch h), by decide +kernel⟩

/-- Only the write of a plane's sample 0 fails (DFWD), only the read of the destination fails (ENCODE). -/
theorem witness_OpenAccessesMayFail :
    let seedFails : State := { running .dfwd (st (regsX 0) 0x1000 planes) with
      cfg := { cfg with writeFailing := [⟨0x1004, 1⟩] } }
    let readBackFails : State := { running (.encode true) (st (regsX 0) 0x1000 image) with
      cfg := { cfg with readFailing := [⟨0x200B, 1⟩] } }
    ((seedFails.Valid .dfwd ∧ seedFails.Ordinary .dfwd) ∧ seedFails.mem.wf = true ∧ seedFails.cfg.legal = true ∧
      seedFails.raced = false ∧ (accessesOf .dfwd seedFails.operands).failing seedFails.cfg = [] ∧
      (accessesOf .dfwd seedFails.operands).mayFail seedFails.cfg = [0x1004]) ∧
    (readBackFails.Valid (.encode true) ∧ readBackFails.Ordinary (.encode true)) ∧ readBackFails.mem.wf = true ∧
    readBackFails.cfg.legal = true ∧ readBackFails.raced = false ∧
    (accessesOf (.encode true) readBackFails.operands).failing readBackFails.cfg = [] ∧
    (accessesOf (.encode true) readBackFails.operands).mayFail readBackFails.cfg = [0x200B] :=
  ⟨⟨sound_of_check (by decide +kernel), by decide +kernel, by decide +kernel, rfl, by decide +kernel,
    by decide +kernel⟩, sound_of_check (by decide +kernel), by decide +kernel, by decide +kernel, rfl, by decide +kernel,
    by decide +kernel⟩

end Sys2Proof.Tests
end

/-! What a step does to the block, with the next state written out (`step_effect`), and the fields that the end of a
command keeps. Every whole-machine rule below is one case split over `StepEffect`. -/

namespace Sys2Proof.Machine

/-! ### The next event -/

theorem inputs_of_nextEvent_wr {s : State} {r : Reg} {v : Word} (h : s.nextEvent = wr r v) :
    s.inputs = wr r v :: s.inputs.tail := by
  unfold State.nextEvent at h
  split at h
  · cases h
  · simp_all

/-! ### What the end of a command keeps -/

namespace EndsAs

variable {i : Instr} {s t : State}

theorem eng (h : EndsAs i s t) : t.eng = .idle := by rw [h.frame]
theorem cfg (h : EndsAs i s t) : t.cfg = s.cfg := by rw [h.frame]
theorem irqEn (h : EndsAs i s t) : t.irqEn = s.irqEn := by rw [h.frame]
theorem wbusy (h : EndsAs i s t) : t.status.wbusy = s.status.wbusy := by rw [h.frame]
theorem resetHeld (h : EndsAs i s t) : t.resetHeld = s.resetHeld := by rw [h.frame]

/-- A command that starts with DONE and ERR clear ends with exactly one of them (R27, R130, R131). -/
theorem err_eq_not_done (h : EndsAs i s t) (hd : s.status.done = false) (he : s.status.err = false) :
    t.status.err = !t.status.done := by
  rcases h.report with ⟨done, err, _⟩ | ⟨done, err, _⟩ | ⟨done, err, _⟩ <;> rw [done, err]
  · rw [he]; rfl
  · rw [hd]; rfl
  · rw [hd]; rfl

end EndsAs

/-! ### One step -/

/-- From `s`, what the next state of a step can be: the running command's turn, a reset, one of the register writes that
is taken, a host write to memory, or a step that touches nothing of the block but, by its release, the reset input. -/
inductive StepEffect (s : State) : State → Prop
  | turn {i o r t} (event : s.nextEvent = .engine) (busy : s.eng = .busy i o r)
      (ran : exec i { s with inputs := s.inputs.tail } = .next t) : StepEffect s t
  | reset {held l a} (event : s.nextEvent.resets) :
      StepEffect s { State.resetBlock { s with inputs := l } with resetHeld := held, resp := a }
  | enable {v l a} (event : s.nextEvent.writes .ctrl v) (noReset : v.getLsbD 1 = false)
      (released : s.resetHeld = false) : StepEffect s { s with irqEn := v.getLsbD 0, inputs := l, resp := a }
  | acknowledge {v l a} (event : s.nextEvent.writes .status v) (released : s.resetHeld = false) :
      StepEffect s { s with status := s.status.clear v, inputs := l, resp := a }
  | failedIssue {w e l a} (event : s.nextEvent.writes .cmd w) (idle : s.eng = .idle) (released : s.resetHeld = false)
      (failed : validate s.cfg s.params w = .error e) (code : e ≠ .noError) :
      StepEffect s { (s.beginIssue w).raiseError e 0 with inputs := l, resp := a }
  | accept {w i l a} (event : s.nextEvent.writes .cmd w) (idle : s.eng = .idle) (released : s.resetHeld = false)
      (decoded : decode w = some i) (valid : checkCommand s.cfg s.params i = none) :
      StepEffect s { (s.beginIssue w).accept i with inputs := l, resp := a }
  | drop {r v l a} (event : s.nextEvent.writes r v) (locked : r ∈ Reg.lockedWhileBusy) (busy : s.isBusy = true) :
      StepEffect s { s.dropWrite with inputs := l, resp := a }
  | param {r v p l a} (event : s.nextEvent.writes r v) (locked : r ∈ Reg.lockedWhileBusy) (notCmd : r ≠ .cmd)
      (idle : s.eng = .idle) (released : s.resetHeld = false) :
      StepEffect s { s with params := p, inputs := l, resp := a }
  | hostWrite {a v e l b} (inSpace : a < 2 ^ s.cfg.addrW)
      (race : e = s.eng ∨ ∃ i o r, s.eng = .busy i o r ∧ e = .busy i o true) :
      StepEffect s { s with mem := s.mem.write a v, eng := e, inputs := l, resp := b }
  | quiet {held l a n} (level : held = true → s.resetHeld = true) :
      StepEffect s { s with resetHeld := held, inputs := l, resp := a, draws := n }

/-- A register write that is no reset, taken by the block, has one of the effects listed. -/
theorem writeReg_effect {s : State} {r : Reg} {v : Word} (event : s.nextEvent.writes r v)
    (noReset : ¬(r = .ctrl ∧ v.getLsbD 1 = true)) (released : s.resetHeld = false) :
    StepEffect s ((State.writeReg { s with inputs := s.inputs.tail } r v).respond .ok) := by
  rcases State.writeReg_cases { s with inputs := s.inputs.tail } r v noReset with
    ⟨rfl, e⟩ | ⟨rfl, e⟩ | ⟨rfl, idle, e⟩ | ⟨locked, busy, e⟩ |
      ⟨locked, notCmd, idle, p, e⟩ | ⟨_, e⟩ <;> rw [e]
  · exact .enable event (by simpa using noReset) released
  · exact .acknowledge event released
  · rcases State.issue_cases { s with inputs := s.inputs.tail } v with
      ⟨_, failed, code, _, _, e⟩ | ⟨_, decoded, valid, e⟩ <;> rw [e]
    · exact .failedIssue event idle released failed code
    · exact .accept event idle released decoded valid
  · exact .drop event locked busy
  · exact .param event locked notCmd idle released
  · exact .quiet id

/-- A host write to memory stores a byte and at most marks the running command raced. -/
theorem hostWrite_effect {s : State} {a : Nat} (v : Byte) (inSpace : a < 2 ^ s.cfg.addrW) :
    StepEffect s (State.hostWrite { s with inputs := s.inputs.tail } a v) := by
  rcases State.hostWrite_cases { s with inputs := s.inputs.tail } a v with ⟨_, e⟩ | ⟨i, o, r, busy, _, e⟩ <;> rw [e]
  · exact .hostWrite inSpace (.inl rfl)
  · exact .hostWrite inSpace (.inr ⟨i, o, r, busy, rfl⟩)

/-- Every step that answers a next state has one of the effects listed. -/
theorem step_effect {s t : State} (h : step s = .next t) : StepEffect s t := by
  rcases step_cases h with
    ⟨event, i, o, r, busy, ran⟩ | ⟨event, held, a, rfl, _⟩ | ⟨r, v, event, noReset, released, rfl⟩ |
    ⟨a, v, _, _, inSpace, rfl⟩ | ⟨_, _, level, ht⟩
  · exact .turn event busy ran
  · exact .reset event
  · exact writeReg_effect event noReset released
  · exact hostWrite_effect v inSpace
  · rw [ht]
    refine .quiet fun held => ?_
    rw [level, Bool.and_eq_true] at held
    exact held.1

end Sys2Proof.Machine

/-! The invariant of the machine: it holds after reset, and every effect a step can have keeps it. -/

namespace Sys2Proof.Machine

/-! ### The invariant after reset -/

theorem standardConfig_legal : Config.standard.legal = true := by decide

/-- `State.reset` is the reset state (R53). -/
theorem State.reset_atReset : State.reset.AtReset where
  registers r := by
    cases r with
    | status => exact State.statusWord_eq_zero rfl rfl
    | _ => rfl
  idle := rfl
  irqLow := rfl

/-- Settles O35: nothing is stored, nothing runs and nothing is reported after reset. -/
theorem resetSatisfiesInvariant : Obligations.ResetSatisfiesInvariant where
  cfg := standardConfig_legal
  memWf := rfl
  memInSpace := rfl
  running _ _ _ h := nomatch h
  quiet h := nomatch h
  oneEnd h := nomatch h
  errHasCode h := nomatch h
  errAddrMeans h := absurd rfl h
  errAddrInSpace := Nat.two_pow_pos _
  held h := nomatch h

/-! ### The invariant of an IDLE block, and of one whose command runs on -/

/-- What the invariant asks of the end report: STATUS and ERR_ADDR (R27, R30, R42, R229). -/
structure ReportInv (c : Config) (st : Status) (errAddr : Word) : Prop where
  oneEnd : st.done = true → st.err = false
  errHasCode : st.err = true → st.errCode ≠ .noError
  errAddrMeans : errAddr ≠ 0 → st.errCode = .busError
  errAddrInSpace : errAddr.toNat < 2 ^ c.addrW

theorem State.Inv.report {s : State} (hs : s.Inv) : ReportInv s.cfg s.status s.errAddr :=
  ⟨hs.oneEnd, hs.errHasCode, hs.errAddrMeans, hs.errAddrInSpace⟩

/-- An IDLE block has the invariant when its parameters, memory and end report have, and it is not held in reset. -/
theorem State.Inv.of_idle {t : State} (idle : t.eng = .idle) (cfg : t.cfg.legal = true) (memWf : t.mem.wf = true)
    (memInSpace : t.mem.below (2 ^ t.cfg.addrW) = true) (report : ReportInv t.cfg t.status t.errAddr)
    (held : t.resetHeld = true → t.AtReset) : t.Inv where
  cfg := cfg
  memWf := memWf
  memInSpace := memInSpace
  running i o r busy := by rw [idle] at busy; cases busy
  quiet busy := by rw [State.isBusy_eq_false.mpr idle] at busy; cases busy
  oneEnd := report.oneEnd
  errHasCode := report.errHasCode
  errAddrMeans := report.errAddrMeans
  errAddrInSpace := report.errAddrInSpace
  held := held

/-- `st` reports nothing that `st'` does not, under the same code. -/
structure Status.ReportsAtMost (st st' : Status) : Prop where
  done : st.done = true → st'.done = true
  err : st.err = true → st'.err = true
  chkMismatch : st.chkMismatch = true → st'.chkMismatch = true
  errCode : st.errCode = st'.errCode

theorem Status.ReportsAtMost.refl (st : Status) : st.ReportsAtMost st := ⟨id, id, id, rfl⟩

theorem Status.clear_reportsAtMost (st : Status) (v : Word) : (st.clear v).ReportsAtMost st where
  done h := (Bool.and_eq_true_iff.mp h).1
  err h := (Bool.and_eq_true_iff.mp h).1
  chkMismatch h := (Bool.and_eq_true_iff.mp h).1
  errCode := rfl

/-- The invariant survives any change of IRQ_EN, the reset input and the model's own fields, a report that loses bits, a
canonical memory, and a race: none of them touches the registers, the running command or its latch. -/
theorem State.Inv.keep {s : State} (hs : s.Inv) {b held : Bool} {st : Status} {e : Eng} {m : Memory} {l : List Input}
    {a : Response} {n : Nat} (report : st.ReportsAtMost s.status)
    (eng : e = s.eng ∨ ∃ i o r, s.eng = .busy i o r ∧ e = .busy i o true) (memWf : m.wf = true)
    (memInSpace : m.below (2 ^ s.cfg.addrW) = true)
    (atReset : held = true → s.resetHeld = true ∧ b = s.irqEn ∧ st = s.status) :
    State.Inv { s with
      irqEn := b, status := st, eng := e, mem := m, resetHeld := held, inputs := l, resp := a, draws := n } where
  cfg := hs.cfg
  memWf := memWf
  memInSpace := memInSpace
  running i o r busy := by
    have busy' : ∃ r', s.eng = .busy i o r' := by
      rcases eng with rfl | ⟨i', o', r', h, rfl⟩
      · exact ⟨r, busy⟩
      · cases busy
        exact ⟨r', h⟩
    obtain ⟨r', busy'⟩ := busy'
    obtain ⟨readback, latch, valid⟩ := hs.running i o r' busy'
    exact ⟨readback, latch, valid⟩
  quiet busy := by
    have busy' : s.isBusy = true := by
      rcases eng with rfl | ⟨i, o, r, h, _⟩
      · exact busy
      · exact State.isBusy_iff.mpr ⟨i, o, r, h⟩
    obtain ⟨done, err, chkMismatch, errCode, errAddr⟩ := hs.quiet busy'
    exact ⟨Bool.eq_false_iff.mpr fun h => Bool.eq_false_iff.mp done (report.done h),
      Bool.eq_false_iff.mpr fun h => Bool.eq_false_iff.mp err (report.err h),
      Bool.eq_false_iff.mpr fun h => Bool.eq_false_iff.mp chkMismatch (report.chkMismatch h),
      report.errCode.trans errCode, errAddr⟩
  oneEnd done := Bool.eq_false_iff.mpr fun err => Bool.eq_false_iff.mp (hs.oneEnd (report.done done)) (report.err err)
  errHasCode err := report.errCode ▸ hs.errHasCode (report.err err)
  errAddrMeans h := report.errCode.trans (hs.errAddrMeans h)
  errAddrInSpace := hs.errAddrInSpace
  held h := by
    obtain ⟨wasHeld, rfl, rfl⟩ := atReset h
    have reset := hs.held wasHeld
    rcases eng with rfl | ⟨i, o, r, busy, _⟩
    · exact reset.congr s.acc m held l a n
    · rw [reset.idle] at busy
      cases busy

/-! ### Each effect of a step keeps the invariant -/

/-- The regions of the running command lie in the address space (R127). -/
theorem addr_lt_of_anyContains {rs : List Region} {bound a : Nat}
    (hr : ∀ r ∈ rs, r.len = 0 ∨ r.base + r.len ≤ bound) (h : Region.anyContains rs a = true) : a < bound := by
  obtain ⟨r, hmem, hc⟩ := List.any_eq_true.mp h
  have := Region.contains_iff.mp hc
  have := hr r hmem
  omega

/-- A body that starts with the report clear ends with a report that has the invariant. -/
theorem EndsAs.reportInv {i : Instr} {s t : State} (ends : EndsAs i s t) (clear : s.ReportClear)
    (regions : ∀ r ∈ i.regions s.operands, r.len = 0 ∨ r.base + r.len ≤ 2 ^ s.cfg.addrW) :
    ReportInv t.cfg t.status t.errAddr := by
  rcases ends.report with ⟨_, err, _, addr⟩ | ⟨done, err, code, a, ha, addr⟩ | ⟨done, err, code, addr⟩
  · rw [clear.err] at err
    rw [clear.errAddr] at addr
    exact ⟨fun _ => err, by simp [err], by simp [addr], by simp [addr]⟩
  · rw [clear.done] at done
    refine ⟨by simp [done], by simp [code], fun _ => code, ?_⟩
    rw [addr, ends.cfg, BitVec.toNat_ofNat]
    exact (Nat.mod_le _ _).trans_lt (addr_lt_of_anyContains regions ha)
  · rw [clear.done] at done
    exact ⟨by simp [done], by simp [code], by simp [addr], by simp [addr]⟩

/-- The turn of a running command keeps the invariant. -/
theorem exec_keeps_inv {i : Instr} {o : Operands} {r : Bool} {s t : State} (hs : s.Inv) (busy : s.eng = .busy i o r)
    (ran : exec i s = .next t) : t.Inv := by
  obtain ⟨_, regions, ends⟩ := exec_next_endsAs ran
  refine State.Inv.of_idle ends.eng ?_ (ends.wf hs.memWf) ?_
    (ends.reportInv (hs.quiet (State.isBusy_iff.mpr ⟨i, o, r, busy⟩)) regions) ?_
  · rw [ends.cfg]
    exact hs.cfg
  · rw [ends.cfg]
    exact ends.below _ regions hs.memInSpace
  · intro held
    rw [ends.resetHeld] at held
    rw [(hs.held held).idle] at busy
    cases busy

/-- A command that passed validation has its regions in the address space (R127). -/
theorem regions_inRange_of_valid {c : Config} {o : Operands} {i : Instr} (valid : checkCommand c o i = none) :
    ∀ r ∈ i.regions o, r.len = 0 ∨ r.base + r.len ≤ 2 ^ c.addrW := by
  have all : (i.regions o).all (Region.inRange c) = true := by
    unfold checkCommand at valid
    split_ifs at valid with h1 h2 h3 h4
    simpa using h3
  exact fun r hr => Region.inRange_iff.mp (List.all_eq_true.mp all r hr)

/-- A reset leaves a canonical memory in the address space: it scrambles written regions of a validated command. -/
theorem resetBlock_memory {s : State} (hs : s.Inv) :
    s.resetBlock.mem.wf = true ∧ s.resetBlock.mem.below (2 ^ s.cfg.addrW) = true := by
  cases he : s.eng with
  | idle =>
    rw [State.resetBlock_mem_of_idle he]
    exact ⟨hs.memWf, hs.memInSpace⟩
  | busy i o r =>
    rw [State.resetBlock_mem_of_busy he]
    have regions := regions_inRange_of_valid (hs.running i o r he).valid
    exact ⟨State.scramble_wf _ hs.memWf,
      State.scramble_below _ (fun q hq => regions q (Instr.writtenRegions_subset hq)) hs.memInSpace⟩

/-- A reset keeps the invariant, whatever level it leaves the reset input at. -/
theorem resetBlock_keeps_inv {s : State} (hs : s.Inv) (held : Bool) (a : Response) :
    State.Inv { s.resetBlock with resetHeld := held, resp := a } := by
  obtain ⟨memWf, memInSpace⟩ := resetBlock_memory hs
  have cfg := s.resetBlock_cfg
  refine State.Inv.of_idle rfl (by rw [cfg]; exact hs.cfg) memWf (by rw [cfg]; exact memInSpace) ?_
    fun _ => s.resetBlock_atReset.congr _ _ held _ a _
  exact ⟨(fun h => nomatch h), (fun h => nomatch h), fun h => absurd rfl h, Nat.two_pow_pos _⟩

/-- The report of an issue that failed: ERR with its code, ERR_ADDR 0 (R132). -/
theorem failedIssue_reportInv (s : State) (w : Word) {e : ErrCode} (code : e ≠ .noError) :
    ReportInv s.cfg ((s.beginIssue w).raiseError e 0).status 0 :=
  ⟨(fun h => nomatch h), fun _ => code, fun h => absurd rfl h, Nat.two_pow_pos _⟩

/-- An accepted issue has the invariant: the latch is the registers, the readback decodes to the command, and the report
is clear (R122, R124, R48). -/
theorem accept_keeps_inv {s : State} (hs : s.Inv) {w : Word} {i : Instr} (released : s.resetHeld = false)
    (decoded : decode w = some i) (valid : checkCommand s.cfg s.params i = none) (l : List Input) (a : Response) :
    State.Inv { (s.beginIssue w).accept i with inputs := l, resp := a } where
  cfg := hs.cfg
  memWf := hs.memWf
  memInSpace := hs.memInSpace
  running j o r busy := by
    cases busy
    exact ⟨decoded, rfl, valid⟩
  quiet _ := ⟨rfl, rfl, rfl, rfl, rfl⟩
  oneEnd h := nomatch h
  errHasCode h := nomatch h
  errAddrMeans h := absurd rfl h
  errAddrInSpace := Nat.two_pow_pos _
  held h := absurd (released.symm.trans h) Bool.false_ne_true

/-- Settles O34, effect by effect. -/
theorem everyStepKeepsInvariant : Obligations.EveryStepKeepsInvariant := by
  intro s t hs h
  have same : s.status.ReportsAtMost s.status := .refl _
  have pop (l : List Input) : State.Inv { s with inputs := l } :=
    hs.keep same (.inl rfl) hs.memWf hs.memInSpace fun held => ⟨held, rfl, rfl⟩
  have notHeld (released : s.resetHeld = false) {p : Prop} (held : s.resetHeld = true) : p :=
    absurd (released.symm.trans held) Bool.false_ne_true
  cases step_effect h with
  | turn _ busy ran => exact exec_keeps_inv (pop s.inputs.tail) busy ran
  | reset _ => exact resetBlock_keeps_inv (pop _) _ _
  | enable _ _ released => exact hs.keep same (.inl rfl) hs.memWf hs.memInSpace (notHeld released)
  | acknowledge _ released =>
    exact hs.keep (s.status.clear_reportsAtMost _) (.inl rfl) hs.memWf hs.memInSpace (notHeld released)
  | failedIssue _ _ released _ code =>
    exact .of_idle rfl hs.cfg hs.memWf hs.memInSpace (failedIssue_reportInv s _ code) (notHeld released)
  | accept _ _ released decoded valid => exact accept_keeps_inv hs released decoded valid _ _
  | drop _ _ busy =>
    exact hs.keep ⟨id, id, id, rfl⟩ (.inl rfl) hs.memWf hs.memInSpace fun held =>
      absurd ((State.isBusy_eq_false.mpr (hs.held held).idle).symm.trans busy) Bool.false_ne_true
  | param _ _ _ idle released => exact .of_idle idle hs.cfg hs.memWf hs.memInSpace hs.report (notHeld released)
  | hostWrite inSpace race =>
    exact hs.keep same race (Memory.wf_write _ _ hs.memWf) (Memory.below_write inSpace hs.memInSpace)
      fun held => ⟨held, rfl, rfl⟩
  | quiet level => exact hs.keep same (.inl rfl) hs.memWf hs.memInSpace fun held => ⟨level held, rfl, rfl⟩

end Sys2Proof.Machine

/-! The registers as the host reads and writes them (10_state.md section 2, R45, R54, R55, R31). -/

namespace Sys2Proof.Machine

/-! ### Reset values and STATUS as a number -/

/-- Settles O8: `State.reset` is the reset state, with R6's defaults. -/
theorem resetStateRegisters : Obligations.ResetStateRegisters :=
  ⟨State.reset_atReset.registers, State.reset_atReset.idle, State.reset_atReset.irqLow, by decide, by decide⟩

/-- Appending a low bit doubles the number above it. -/
theorem toNat_append_ofBool {n : Nat} (x : BitVec n) (b : Bool) :
    (x ++ BitVec.ofBool b).toNat = 2 * x.toNat + b.toNat := by
  rw [BitVec.toNat_append, BitVec.toNat_ofBool, ← Nat.shiftLeft_add_eq_or_of_lt (by cases b <;> decide),
    Nat.shiftLeft_eq]
  omega

/-- ERR_CODE above the reserved bits 7:5 of STATUS. -/
theorem ErrCode.toNat_above_reserved (e : ErrCode) : (0#20 ++ e.code ++ 0#3).toNat = 8 * e.code.toNat := by
  cases e <;> decide

theorem ErrCode.code_le_seven (e : ErrCode) : e.code.toNat ≤ 7 := by
  cases e <;> decide

/-- Settles O16: the five flags are appended below ERR_CODE one bit at a time. -/
theorem statusWordLayout : Obligations.StatusWordLayout := by
  intro s
  refine ⟨?_, s.status.errCode.code_le_seven⟩
  rw [State.readReg, State.statusWord]
  simp only [toNat_append_ofBool, ErrCode.toNat_above_reserved]
  omega

/-! ### Reads -/

/-- Settles O11. -/
theorem registerReadsHaveNoSideEffect : Obligations.RegisterReadsHaveNoSideEffect := by
  intro s size off rest h
  obtain ⟨answer, e⟩ := State.hostRegRead_cases { s with inputs := rest } size off
  have hstep : step s = .next { s with inputs := rest, resp := answer } := by
    rw [step_cons h, handle, e]
    rfl
  refine ⟨answer, hstep, ?_⟩
  rintro r rfl rfl
  rw [step_rd h] at hstep
  injection hstep with hstep
  exact (congrArg State.resp hstep).symm

/-! ### Reserved offsets -/

theorem Reg.offset_lt (r : Reg) : r.offset.toNat < 0x4C := by
  cases r <;> decide

/-- No register stands at a reserved offset (R45). -/
theorem Reg.ofOffset_reserved {off : BitVec 8} (h : 0x4C ≤ off.toNat) : Reg.ofOffset off = none := by
  rw [Option.eq_none_iff_forall_ne_some]
  intro r hr
  rw [Reg.offset_of_ofOffset hr] at h
  exact absurd r.offset_lt (Nat.not_lt.mpr h)

theorem windowAccessLegal_word {off : BitVec 8} (h : off.toNat % 4 = 0) : windowAccessLegal .word off = true := by
  simp [windowAccessLegal, h]

theorem step_read_reserved {s : State} {off : BitVec 8} {rest : List Input} (reserved : 0x4C ≤ off.toNat)
    (aligned : off.toNat % 4 = 0) (h : s.inputs = .regRead .word off :: rest) :
    step s = .next { s with inputs := rest, resp := .word 0 } := by
  simp [step_cons h, handle, State.hostRegRead, windowAccessLegal_word aligned, Reg.ofOffset_reserved reserved,
    State.respond]

theorem step_write_reserved {s : State} {off : BitVec 8} {v : Word} {rest : List Input} (reserved : 0x4C ≤ off.toNat)
    (aligned : off.toNat % 4 = 0) (h : s.inputs = .regWrite .word off v :: rest) :
    step s = .next { s with inputs := rest, resp := .ok } := by
  simp [step_cons h, handle, State.hostRegWrite, windowAccessLegal_word aligned, Reg.ofOffset_reserved reserved,
    State.respond]

/-! ### Reserved bits -/

/-- STATUS above its flags: ERR_CODE in 11:8, the other bits reserved (R24). -/
theorem State.statusWord_bit_high (s : State) {k : Nat} (h : 5 ≤ k) :
    s.statusWord.getLsbD k = if 8 ≤ k ∧ k < 12 then s.status.errCode.code.getLsbD (k - 8) else false := by
  rw [State.statusWord_bit]
  iterate 5 rw [if_neg (by omega)]

/-- Bits 7:5 and 31:12 of STATUS are reserved (R24). -/
theorem State.statusWord_reserved (s : State) {k : Nat} (h : (5 ≤ k ∧ k ≤ 7) ∨ 12 ≤ k) :
    s.statusWord.getLsbD k = false := by
  rw [s.statusWord_bit_high (by omega), if_neg (by omega)]

/-- Only bit 0 of CTRL can read 1 (R22). -/
theorem State.ctrlWord_reserved (s : State) {k : Nat} (h : 1 ≤ k) : s.ctrlWord.getLsbD k = false := by
  rw [State.ctrlWord, BitVec.getLsbD_setWidth, BitVec.getLsbD_of_ge _ _ h, Bool.and_false]

/-- A STATUS write depends on bits 1 to 4 only (R31). -/
theorem Status.clear_congr (st : Status) {v w : Word} (h : ∀ k, 1 ≤ k → k ≤ 4 → v.getLsbD k = w.getLsbD k) :
    st.clear v = st.clear w := by
  simp only [Status.clear, h 1 (by omega) (by omega), h 2 (by omega) (by omega), h 3 (by omega) (by omega),
    h 4 (by omega) (by omega)]

/-- A CTRL write depends on bits 0 and 1 only (R22). -/
theorem State.writeCtrl_congr (s : State) {v w : Word} (h : ∀ k, k ≤ 1 → v.getLsbD k = w.getLsbD k) :
    s.writeCtrl v = s.writeCtrl w := by
  simp only [State.writeCtrl, h 0 (by omega), h 1 (by omega)]

/-- Settles O13. -/
theorem reservedOffsetsAndBits : Obligations.ReservedOffsetsAndBits := by
  refine ⟨?offsets, ?bitsRead, ?bitsWritten⟩
  case offsets =>
    intro s off rest reserved aligned
    exact ⟨step_read_reserved reserved aligned, fun v h => ⟨.ok, step_write_reserved reserved aligned h⟩⟩
  case bitsRead => exact fun s k => ⟨s.statusWord_reserved, s.ctrlWord_reserved⟩
  case bitsWritten =>
    intro s v w
    refine ⟨fun h => ?_, s.writeCtrl_congr⟩
    rw [State.writeReg, State.acknowledge, s.status.clear_congr h]
    rfl

/-! ### STATUS writes -/

/-- Bit k of STATUS after it is acknowledged (R31). -/
theorem State.statusWord_acknowledge_bit (s : State) (v : Word) (k : Nat) :
    (s.acknowledge v).statusWord.getLsbD k = (s.statusWord.getLsbD k && !(1 ≤ k && k ≤ 4 && v.getLsbD k)) := by
  obtain rfl | ⟨h1, h4⟩ | h5 : k = 0 ∨ (1 ≤ k ∧ k ≤ 4) ∨ 5 ≤ k := by omega
  · rw [State.statusWord_bit, State.statusWord_bit, if_pos rfl, if_pos rfl]
    exact (Bool.and_true _).symm
  · rw [State.statusWord_bit, State.statusWord_bit]
    interval_cases k <;> simp [Status.clear]
  · rw [State.statusWord_bit_high _ h5, State.statusWord_bit_high _ h5, decide_eq_false (by omega : ¬k ≤ 4)]
    simp [Status.clear]

/-- The interrupt output is low after a STATUS write that clears whichever of DONE and ERR is set (R51). -/
theorem State.irq_acknowledge {s : State} {v : Word} (hdone : s.status.done = true → v.getLsbD 1 = true)
    (herr : s.status.err = true → v.getLsbD 2 = true) : (s.acknowledge v).irq = false := by
  have done : (s.status.clear v).done = false := by
    simpa [Status.clear] using hdone
  have err : (s.status.clear v).err = false := by
    simpa [Status.clear] using herr
  rw [State.irq, State.acknowledge_status, done, err, Bool.or_false, Bool.and_false]

/-- Settles O15. -/
theorem statusWriteClearsWrittenBits : Obligations.StatusWriteClearsWrittenBits := by
  intro s v rest released h
  exact ⟨_, step_wr released h, rfl, s.statusWord_acknowledge_bit v, State.irq_acknowledge⟩

/-! ### Register writes by the engine's state -/

/-- A read-only register ignores writes, whatever the reset input is. -/
theorem takeWrite_readOnly {r : Reg} (h : r ∈ Reg.readOnly) (s : State) (v : Word) : s.takeWrite r v = s := by
  have hw : s.writeReg r v = s := by
    simp only [Reg.readOnly, List.mem_cons, List.not_mem_nil, or_false] at h
    rcases h with rfl | rfl | rfl | rfl | rfl <;> rfl
  rw [State.takeWrite, hw, ite_self]

theorem step_write_readOnly {s : State} {r : Reg} {v : Word} {rest : List Input} (hr : r ∈ Reg.readOnly)
    (h : s.inputs = wr r v :: rest) : step s = .next { s with inputs := rest, resp := .ok } := by
  rw [step_wr_take h, takeWrite_readOnly hr]
  rfl

/-- A CTRL write with SRST performs the reset, also while the reset input is held (R262). -/
theorem step_softReset {s : State} {v : Word} {rest : List Input} (srst : v.getLsbD 1 = true)
    (h : s.inputs = wr .ctrl v :: rest) :
    step s = .next ((State.resetBlock { s with inputs := rest }).respond .ok) := by
  rw [step_wr_take h]
  rcases State.takeWrite_cases { s with inputs := rest } .ctrl v with ⟨_, e⟩ | ⟨no, _⟩ | ⟨no, _⟩
  · rw [e]
  · exact absurd ⟨rfl, srst⟩ no
  · exact absurd ⟨rfl, srst⟩ no

/-- A CTRL write without SRST sets IRQ_EN (R22). -/
theorem step_writeCtrl {s : State} {v : Word} {rest : List Input} (released : s.resetHeld = false)
    (noSrst : v.getLsbD 1 = false) (h : s.inputs = wr .ctrl v :: rest) :
    step s = .next { s with inputs := rest, resp := .ok, irqEn := v.getLsbD 0 } := by
  rw [step_wr released h, State.writeReg, State.writeCtrl, noSrst]
  rfl

/-- A write to a register of R55's list while BUSY is dropped and sets WBUSY. -/
theorem writeReg_locked_busy {s : State} {r : Reg} (busy : s.isBusy = true) (locked : r ∈ Reg.lockedWhileBusy)
    (v : Word) : s.writeReg r v = s.dropWrite := by
  simp only [Reg.lockedWhileBusy, List.mem_cons, List.not_mem_nil, or_false] at locked
  rcases locked with rfl | rfl | rfl | rfl | rfl | rfl | rfl | rfl | rfl | rfl | rfl | rfl <;>
    simp only [State.writeReg, State.writeParam, busy, if_true]

theorem step_write_locked_busy {s : State} {r : Reg} {v : Word} {rest : List Input} (released : s.resetHeld = false)
    (busy : s.isBusy = true) (locked : r ∈ Reg.lockedWhileBusy) (h : s.inputs = wr r v :: rest) :
    step s = .next { s with inputs := rest, resp := .ok, status := { s.status with wbusy := true } } := by
  rw [step_wr released h, writeReg_locked_busy (s := { s with inputs := rest }) busy locked]
  rfl

/-- A write to a parameter register or a seed while IDLE makes that register read the value, and no other register
changes (R55). -/
theorem writeReg_param_idle {s : State} {r : Reg} (idle : s.isBusy = false) (locked : r ∈ Reg.lockedWhileBusy)
    (notCmd : r ≠ .cmd) (v : Word) :
    ∃ p, s.writeReg r v = { s with params := p } ∧ State.readReg { s with params := p } r = v ∧
      ∀ q : Reg, q ≠ r → State.readReg { s with params := p } q = s.readReg q := by
  simp only [Reg.lockedWhileBusy, List.mem_cons, List.not_mem_nil, or_false, notCmd, false_or] at locked
  rcases locked with rfl | rfl | rfl | rfl | rfl | rfl | rfl | rfl | rfl | rfl | rfl <;>
  · simp only [State.writeReg, State.writeParam, idle, Bool.false_eq_true, if_false]
    refine ⟨_, rfl, rfl, fun q hq => ?_⟩
    cases q <;> trivial

/-- Settles O12, clause by clause. -/
theorem registerWritesByEngineState : Obligations.RegisterWritesByEngineState := by
  refine ⟨fun s off v rest reserved aligned h => ⟨.ok, step_write_reserved reserved aligned h⟩,
    fun s r v rest h => ⟨?readOnly, ?softReset, fun released => ⟨?dropped, ?ctrl, ?status, ?param⟩⟩⟩
  case readOnly => exact fun hr => ⟨.ok, step_write_readOnly hr h⟩
  case softReset =>
    rintro rfl srst
    exact ⟨_, step_softReset srst h, (State.resetBlock_atReset _).congr _ _ _ _ .ok _⟩
  case dropped => exact fun busy locked => ⟨.ok, step_write_locked_busy released busy locked h⟩
  case ctrl =>
    rintro rfl noSrst
    exact ⟨.ok, step_writeCtrl released noSrst h⟩
  case status =>
    rintro rfl
    exact ⟨.ok, s.status.clear v, step_wr released h, rfl, rfl, rfl⟩
  case param =>
    intro idle locked notCmd
    obtain ⟨p, e, same, other⟩ := writeReg_param_idle (s := { s with inputs := rest }) idle locked notCmd v
    have reads (q : Reg) : State.readReg { s with params := p } q =
        State.readReg { s with inputs := rest, params := p } q :=
      (State.readReg_inputs { s with params := p } rest q).symm
    refine ⟨.ok, p, ?_, (reads r).trans same, fun q hq => ?_⟩
    · rw [step_wr released h, e]
      rfl
    · exact (reads q).trans ((other q hq).trans (s.readReg_inputs rest q))

/-! ### Identification registers -/

/-- The parameters fit the registers that return them (R43, R44, log 3). -/
theorem legal_bounds {c : Config} (h : c.legal = true) : c.maxChannels < 2 ^ 32 ∧ c.maxTotalBytes < 2 ^ 32 := by
  simp only [Config.legal, Bool.and_eq_true, decide_eq_true_eq] at h
  omega

/-- Settles O17. -/
theorem identificationRegisters : Obligations.IdentificationRegisters := by
  intro s legal
  obtain ⟨channels, total⟩ := legal_bounds legal
  refine ⟨rfl, Nat.mod_eq_of_lt channels, Nat.mod_eq_of_lt total, fun r v rest hr h => ?_⟩
  have readOnly : r ∈ Reg.readOnly := by
    rcases hr with rfl | rfl | rfl <;> decide
  exact ⟨_, step_write_readOnly readOnly h, s.readReg_inputs rest⟩

end Sys2Proof.Machine

/-! What every step does to the engine, CHK_RESULT, WBUSY and the interrupt output (R27, R29, R40, R47, R51). -/

namespace Sys2Proof.Machine

/-! ### The engine's turn -/

/-- The turn of a running command is its body, run to its end. -/
theorem step_turn_endsAs {s t : State} (busy : s.isBusy = true) (event : s.nextEvent = .engine)
    (h : step s = .next t) : ∃ i, EndsAs i { s with inputs := s.inputs.tail } t := by
  obtain ⟨i, o, r, running⟩ := State.isBusy_iff.mp busy
  rw [step_eq, event, handle, engineTurn_busy (s := { s with inputs := s.inputs.tail }) running] at h
  exact ⟨i, (exec_next_endsAs h).2.2⟩

/-- Settles O43: the report is clear while a command runs, and its end sets exactly one bit. -/
theorem commandsEndWithOneReport : Obligations.CommandsEndWithOneReport := by
  intro s t hs busy event h
  obtain ⟨i, ends⟩ := step_turn_endsAs busy event h
  have clear := hs.quiet busy
  exact ⟨ends.eng, ends.err_eq_not_done clear.done clear.err⟩

/-! ### The engine -/

/-- What a step from `s` can make of the engine: IDLE, where it was BUSY by its turn or a reset only; BUSY with a command
it has accepted; or BUSY still, with the same command and latch. -/
inductive EngChange (s : State) (e : Eng) : Prop
  | stopped (now : e = .idle) (why : s.isBusy = true → s.nextEvent = .engine ∨ s.nextEvent.resets)
  | started {w i} (before : s.eng = .idle) (event : s.nextEvent.writes .cmd w) (decoded : decode w = some i)
      (valid : checkCommand s.cfg s.params i = none) (now : e = .busy i s.params false)
  | runsOn {i o r r'} (before : s.eng = .busy i o r) (now : e = .busy i o r')

/-- An IDLE engine that stays IDLE. -/
theorem EngChange.staysIdle {s : State} (idle : s.eng = .idle) : EngChange s .idle :=
  .stopped rfl fun busy => absurd ((State.isBusy_eq_false.mpr idle).symm.trans busy) Bool.false_ne_true

theorem EngChange.same (s : State) : EngChange s s.eng := by
  cases he : s.eng with
  | idle => exact .staysIdle he
  | busy i o r => exact .runsOn he rfl

theorem step_eng {s t : State} (h : step s = .next t) : EngChange s t.eng := by
  cases step_effect h with
  | turn event _ ran => exact .stopped (exec_next_endsAs ran).2.2.eng fun _ => .inl event
  | reset event => exact .stopped rfl fun _ => .inr event
  | failedIssue _ idle => exact .staysIdle idle
  | accept event idle _ decoded valid => exact .started idle event decoded valid rfl
  | hostWrite _ race =>
    rcases race with rfl | ⟨i, o, r, busy, rfl⟩
    · exact .same s
    · exact .runsOn busy rfl
  | enable | acknowledge | drop | param | quiet => exact .same s

/-- Settles O39. -/
theorem engineStartsAndStopsOnlyAsSaid : Obligations.EngineStartsAndStopsOnlyAsSaid := by
  intro s t h
  cases step_eng h with
  | stopped now why =>
    have free := State.isBusy_eq_false.mpr now
    refine ⟨fun _ busy => ?_, fun busy _ => why busy, fun i o r j p q _ busy => ?_⟩
    · exact absurd (free.symm.trans busy) Bool.false_ne_true
    · exact absurd (now.symm.trans busy) nofun
  | started before event decoded valid now =>
    have wasFree := State.isBusy_eq_false.mpr before
    refine ⟨fun _ _ => ⟨_, _, event, decoded, valid, now⟩, fun busy _ => ?_, fun i o r j p q busy _ => ?_⟩
    · exact absurd (wasFree.symm.trans busy) Bool.false_ne_true
    · exact absurd (before.symm.trans busy) nofun
  | runsOn before now =>
    refine ⟨fun free _ => ?_, fun _ free => ?_, fun i o r j p q hs ht => ?_⟩
    · exact absurd ((State.isBusy_eq_false.mp free).symm.trans before) nofun
    · exact absurd ((State.isBusy_eq_false.mp free).symm.trans now) nofun
    · cases before.symm.trans hs
      cases now.symm.trans ht
      exact ⟨rfl, rfl⟩

/-! ### CHK_RESULT -/

/-- Settles O40: the turn of a digest command and a reset are the only effects that touch CHK_RESULT. -/
theorem chkResultChangesOnlyByDigests : Obligations.ChkResultChangesOnlyByDigests := by
  intro s t h changed
  cases step_effect h with
  | @turn i o r _ event busy ran =>
    refine .inl ⟨event, i, o, r, busy, ?_⟩
    cases digests : i.digests
    · exact absurd ((exec_next_endsAs ran).2.2.digest digests).1 changed
    · rfl
  | reset event => exact .inr ⟨event, rfl⟩
  | enable | acknowledge | failedIssue | accept | drop | param | hostWrite | quiet => exact absurd rfl changed

/-! ### WBUSY -/

/-- What a step does to WBUSY: nothing, a dropped write, a reset, or an acknowledgement. -/
theorem step_wbusy {s t : State} (h : step s = .next t) :
    t.status.wbusy = s.status.wbusy ∨
    (t.status.wbusy = true ∧ s.isBusy = true ∧ ∃ r v, s.nextEvent.writes r v ∧ r ∈ Reg.lockedWhileBusy) ∨
    (s.nextEvent.resets ∧ t.status.wbusy = false) ∨
    ∃ v, s.nextEvent.writes .status v ∧ t.status.wbusy = (s.status.wbusy && !v.getLsbD 4) := by
  cases step_effect h with
  | turn _ _ ran => exact .inl (exec_next_endsAs ran).2.2.wbusy
  | reset event => exact .inr (.inr (.inl ⟨event, rfl⟩))
  | acknowledge event => exact .inr (.inr (.inr ⟨_, event, rfl⟩))
  | drop event locked busy => exact .inr (.inl ⟨rfl, busy, _, _, event, locked⟩)
  | enable | failedIssue | accept | param | hostWrite | quiet => exact .inl rfl

/-- Settles O42. -/
theorem wbusyIsSticky : Obligations.WbusyIsSticky := by
  intro s t h
  refine ⟨?setByDrop, ?onlyByDrop, ?clearedBy⟩
  case setByDrop =>
    rintro busy released ⟨r, v, event, locked⟩
    rw [step_write_locked_busy released busy locked (inputs_of_nextEvent_wr event)] at h
    cases h
    rfl
  case onlyByDrop =>
    intro was is
    rcases step_wbusy h with kept | ⟨_, dropped⟩ | ⟨_, e⟩ | ⟨v, _, e⟩
    · simp [kept, was] at is
    · exact dropped
    · simp [e] at is
    · simp [e, was] at is
  case clearedBy =>
    intro was is
    rcases step_wbusy h with kept | ⟨e, _⟩ | ⟨event, _⟩ | ⟨v, event, e⟩
    · simp [kept, was] at is
    · simp [e] at is
    · exact .inl event
    · exact .inr ⟨v, event, by simpa [e, was] using is⟩

/-! ### The interrupt output -/

/-- While a command runs nothing is reported (R122). -/
theorem State.ReportClear.irq {s : State} (h : s.ReportClear) : s.irq = false := by
  rw [State.irq, h.done, h.err, Bool.or_false, Bool.and_false]

/-- An issue clears the report before anything else (R122). -/
theorem State.beginIssue_irq (s : State) (w : Word) : (s.beginIssue w).irq = false := by
  rw [State.irq, State.beginIssue_status, Bool.or_false, Bool.and_false]

/-- A STATUS write raises nothing (R31). -/
theorem State.irq_of_irq_acknowledge {s : State} {v : Word} (h : (s.acknowledge v).irq = true) : s.irq = true := by
  simp only [State.irq, State.acknowledge_irqEn, State.acknowledge_status, Status.clear, Bool.and_eq_true,
    Bool.or_eq_true] at h ⊢
  exact ⟨h.1, h.2.imp And.left And.left⟩

/-- A turn that ends a command raises the output if it is enabled (R51, R135). -/
theorem irq_after_turn {s t : State} (hs : s.Inv) (busy : s.isBusy = true) (event : s.nextEvent = .engine)
    (h : step s = .next t) : t.irq = s.irqEn := by
  obtain ⟨i, ends⟩ := step_turn_endsAs busy event h
  obtain ⟨_, report⟩ := commandsEndWithOneReport s t hs busy event h
  rw [State.irq, report, Bool.or_not_self, Bool.and_true]
  exact ends.irqEn

/-- A failed issue reports ERR at once (R132, R135). -/
theorem irq_after_failedIssue {s : State} {w : Word} {e : ErrCode} (released : s.resetHeld = false)
    (idle : s.isBusy = false) (event : s.nextEvent = wr .cmd w) (failed : validate s.cfg s.params w = .error e) :
    ∃ t, step s = .next t ∧ t.irq = s.irqEn := by
  refine ⟨_, step_issue released (State.isBusy_eq_false.mp idle) (inputs_of_nextEvent_wr event), ?_⟩
  rw [State.issue, show validate _ _ w = .error e from failed]
  exact Bool.and_true _

/-- Only the three causes of R51 raise the output. -/
theorem irq_rises_only_by {s t : State} (h : step s = .next t) (low : s.irq = false) (high : t.irq = true) :
    (s.isBusy = true ∧ s.nextEvent = .engine) ∨
      (s.isBusy = false ∧ ∃ w e, s.nextEvent = wr .cmd w ∧ validate s.cfg s.params w = .error e) ∨
      ∃ v, s.nextEvent = wr .ctrl v ∧ v.getLsbD 0 = true ∧ v.getLsbD 1 = false := by
  have kept {p : Prop} (same : t.irq = s.irq) : p :=
    absurd (low.symm.trans (same.symm.trans high)) Bool.false_ne_true
  cases step_effect h with
  | turn event busy => exact .inl ⟨State.isBusy_iff.mpr ⟨_, _, _, busy⟩, event⟩
  | reset => cases high
  | enable event noReset => exact .inr (.inr ⟨_, event, (Bool.and_eq_true_iff.mp high).1, noReset⟩)
  | acknowledge => exact absurd (low.symm.trans (State.irq_of_irq_acknowledge high)) Bool.false_ne_true
  | failedIssue event idle _ failed => exact .inr (.inl ⟨State.isBusy_eq_false.mpr idle, _, _, event, failed⟩)
  | @accept w => exact absurd ((s.beginIssue_irq w).symm.trans high) Bool.false_ne_true
  | drop | param | hostWrite | quiet => exact kept rfl

/-- The output is low after a CTRL write with bit 0 clear: the write is a reset, or sets IRQ_EN, or meets a block held in
reset. -/
theorem irq_after_disable {s t : State} {v : Word} (hs : s.Inv) (event : s.nextEvent = wr .ctrl v)
    (off : v.getLsbD 0 = false) (h : step s = .next t) : t.irq = false := by
  rw [step_wr_take (inputs_of_nextEvent_wr event)] at h
  cases h
  rcases State.takeWrite_cases { s with inputs := s.inputs.tail } .ctrl v with
    ⟨_, e⟩ | ⟨noReset, _, e⟩ | ⟨_, held, e⟩ <;> rw [e]
  · rfl
  · rw [State.writeReg, State.writeCtrl, if_neg (fun srst => noReset ⟨rfl, srst⟩), off]
    rfl
  · exact (hs.held held).irqLow

/-- The output is low after a STATUS write of 1 to DONE and ERR. -/
theorem irq_after_acknowledge {s t : State} {v : Word} (hs : s.Inv) (event : s.nextEvent = wr .status v)
    (done : v.getLsbD 1 = true) (err : v.getLsbD 2 = true) (h : step s = .next t) : t.irq = false := by
  cases held : s.resetHeld
  · rw [step_wr held (inputs_of_nextEvent_wr event)] at h
    cases h
    exact State.irq_acknowledge (s := s) (fun _ => done) (fun _ => err)
  · rw [step_wr_take (inputs_of_nextEvent_wr event), State.takeWrite, held] at h
    cases h
    exact (hs.held held).irqLow

/-- The output is low after an accepted issue (R122). -/
theorem irq_after_accept {s t : State} (idle : s.isBusy = false) (busy : t.isBusy = true) (h : step s = .next t) :
    t.irq = false := by
  have kept (same : t.isBusy = s.isBusy) : t.irq = false :=
    absurd (idle.symm.trans (same.symm.trans busy)) Bool.false_ne_true
  have wasIdle := State.isBusy_eq_false.mp idle
  cases step_effect h with
  | @accept w => exact s.beginIssue_irq w
  | turn _ running => exact absurd (wasIdle.symm.trans running) nofun
  | reset | failedIssue => cases busy
  | hostWrite _ race =>
    rcases race with rfl | ⟨i, o, r, running, _⟩
    · exact kept rfl
    · exact absurd (wasIdle.symm.trans running) nofun
  | enable | acknowledge | drop | param | quiet => exact kept rfl

/-- The output is low after a reset (R260, R262). -/
theorem irq_after_reset {s t : State} (event : s.nextEvent.resets) (h : step s = .next t) : t.irq = false := by
  rcases event with event | ⟨v, event, srst⟩
  · rw [step_eq, event] at h
    cases h
    rfl
  · rw [step_softReset srst (inputs_of_nextEvent_wr event)] at h
    cases h
    rfl

/-- Settles O18. -/
theorem interruptFollowsCommandEnds : Obligations.InterruptFollowsCommandEnds := by
  intro s hs
  refine ⟨fun busy => (hs.quiet busy).irq, fun t => irq_after_turn hs, fun w e => irq_after_failedIssue, ?enabled,
    fun t => irq_rises_only_by, fun t h => ?falls⟩
  case enabled =>
    intro v released event on noReset
    refine ⟨_, step_writeCtrl released noReset (inputs_of_nextEvent_wr event), ?_⟩
    rw [State.irq, on]
    rfl
  case falls =>
    rintro (⟨v, event, off⟩ | ⟨v, event, done, err⟩ | ⟨idle, busy⟩ | event)
    · exact irq_after_disable hs event off h
    · exact irq_after_acknowledge hs event done err h
    · exact irq_after_accept idle busy h
    · exact irq_after_reset event h

end Sys2Proof.Machine

/-! The host's bus (20_memory.md R60, R68, R70): irregular accesses to the register window, and accesses to the shared
memory. -/

namespace Sys2Proof.Machine

/-! ### Irregular accesses to the window -/

theorem windowAccessLegal_irregular {size : AccessSize} {off : BitVec 8} (h : size ≠ .word ∨ off.toNat % 4 ≠ 0) :
    windowAccessLegal size off = false := by
  rw [windowAccessLegal, Bool.and_eq_false_iff, beq_eq_false_iff_ne, beq_eq_false_iff_ne]
  exact h

/-- Settles O14: neither a read nor a write gets past the check of size and offset. -/
theorem irregularWindowAccessHasNoEffect : Obligations.IrregularWindowAccessHasNoEffect := by
  intro s size off rest irregular
  have illegal := windowAccessLegal_irregular irregular
  constructor
  · intro h
    rw [step_cons h, handle, State.hostRegRead, illegal]
    rfl
  · intro v h
    rw [step_cons h, handle, State.hostRegWrite, illegal]
    rfl

/-! ### Accesses to the shared memory -/

theorem State.hostMemory_of_ordinary {s : State} {a : Nat} (t : State) (inSpace : a < 2 ^ s.cfg.addrW)
    (ordinary : s.cfg.touchesSideEffects ⟨a, 1⟩ = false) : s.hostMemory a t = .next t := by
  simp [State.hostMemory, ordinary, inSpace]

theorem State.inRunningRegion_of_idle {s : State} (h : s.eng = .idle) (a : Nat) : s.inRunningRegion a = false := by
  simp [State.inRunningRegion, h]

/-- A host write stores its byte and touches at most the engine; it leaves the engine as it was outside the running
command's regions, and races the command inside (R70). -/
theorem State.hostWrite_spec (s : State) (a : Nat) (v : Byte) :
    s.hostWrite a v = { s with mem := s.mem.write a v, resp := .ok, eng := (s.hostWrite a v).eng } ∧
      (s.inRunningRegion a = false → (s.hostWrite a v).eng = s.eng) ∧
      (s.inRunningRegion a = true → (s.hostWrite a v).raced = true) := by
  rcases s.hostWrite_cases a v with ⟨outside, e⟩ | ⟨i, o, r, _, inside, e⟩ <;> rw [e]
  · have notInside : s.inRunningRegion a = false := outside.elim (fun idle => inRunningRegion_of_idle idle a) id
    exact ⟨rfl, fun _ => rfl, fun inside => absurd (notInside.symm.trans inside) Bool.false_ne_true⟩
  · exact ⟨rfl, fun outside => absurd (outside.symm.trans inside) Bool.false_ne_true, fun _ => rfl⟩

/-- Settles O49: the byte by `Memory.read_write`, the race by `State.hostWrite_spec`. -/
theorem hostMemoryAccess : Obligations.HostMemoryAccess := by
  intro s a v rest memWf inSpace ordinary
  have taken (t : State) : State.hostMemory { s with inputs := rest } a t = .next t :=
    State.hostMemory_of_ordinary t inSpace ordinary
  refine ⟨fun outside h => ?_, fun inside h => ⟨s.draws, ?_⟩, fun h => ?_⟩
  · rw [step_cons h, handle, taken, State.hostRead, if_neg]
    · rfl
    · exact Bool.eq_false_iff.mp outside
  · rw [step_cons h, handle, taken, State.hostRead, if_pos]
    exact inside
  · rw [step_cons h, handle, taken]
    obtain ⟨frame, outside, inside⟩ := State.hostWrite_spec { s with inputs := rest } a v
    refine ⟨_, rfl, fun b => ?_, ?_, outside, inside⟩
    · rw [frame]
      exact Memory.read_write memWf a b v
    · rw [frame]

end Sys2Proof.Machine

/-! What every command keeps, and where its meaning stops (20_memory.md R60, R61, R66, R69). -/

namespace Sys2Proof.Machine

/-! ### The frame of every command -/

namespace EndsAs

variable {i : Instr} {s t : State}

theorem params (h : EndsAs i s t) : t.params = s.params := by rw [h.frame]
theorem cmd (h : EndsAs i s t) : t.cmd = s.cmd := by rw [h.frame]
theorem inputs (h : EndsAs i s t) : t.inputs = s.inputs := by rw [h.frame]
theorem resp (h : EndsAs i s t) : t.resp = s.resp := by rw [h.frame]

end EndsAs

/-- Settles O36: whatever its end, a command ends as `EndsAs` says. -/
theorem commandsWriteOnlyTheirRegions : Obligations.CommandsWriteOnlyTheirRegions := by
  intro i s t memWf ran
  obtain ⟨_, _, ends⟩ := exec_next_endsAs ran
  exact ⟨ends.outside memWf, ends.params, ends.cmd, ends.irqEn, ends.wbusy, ends.cfg, ends.resetHeld, ends.inputs,
    ends.resp⟩

/-! ### The two stops -/

/-- A command with a region off ordinary memory is refused, whatever its body (U11). -/
theorem runCommand_refused {i : Instr} {s : State} {r : Region} (body : State → State)
    (hr : r ∈ i.regions s.operands) (off : s.cfg.touchesSideEffects r = true) :
    s.runCommand i body = .refused .sideEffectMemory := by
  rw [State.runCommand, if_pos (List.any_eq_true.mpr ⟨r, hr, off⟩)]

/-- A command on ordinary memory with a region out of range faults, whatever its body (log 15). -/
theorem runCommand_fault {i : Instr} {s : State} {r : Region} (body : State → State) (ordinary : s.Ordinary i)
    (hr : r ∈ i.regions s.operands) (outside : r.inRange s.cfg = false) :
    s.runCommand i body = .fault .outsideAddressSpace := by
  have notAny : ¬(i.regions s.operands).any s.cfg.touchesSideEffects = true := by
    simpa [State.Ordinary] using ordinary
  have notAll : ¬(i.regions s.operands).all (Region.inRange s.cfg) = true := fun all =>
    absurd (outside.symm.trans (List.all_eq_true.mp all r hr)) Bool.false_ne_true
  rw [State.runCommand, if_neg notAny, if_neg notAll]

/-- Settles O48: every command runs its body in the frame of `State.runCommand`. -/
theorem commandsStopOffOrdinaryMemory : Obligations.CommandsStopOffOrdinaryMemory := by
  intro i s
  obtain ⟨body, e, _⟩ := exec_eq i s
  rw [e]
  constructor
  · rintro ⟨r, hr, off⟩
    exact runCommand_refused body hr off
  · rintro ordinary ⟨r, hr, nonempty, past⟩
    refine runCommand_fault body ordinary hr (Bool.eq_false_iff.mpr fun inRange => ?_)
    have := Region.inRange_iff.mp inRange
    omega

end Sys2Proof.Machine

/-! A command neither depends on nor changes memory outside its regions (20_memory.md R66, R70, R73): two states that
agree there stay so through every operation of a body (`Agree`). -/

namespace Sys2Proof.Machine

/-- A geometry command has its source among its regions (R63). -/
theorem srcRegion_mem_regions {i : Instr} (o : Operands) (geometry : i.isGeometry = true) :
    o.srcRegion ∈ i.regions o := by
  cases i with
  | csum => cases geometry
  | _ => exact List.mem_cons_self

/-- The two states differ in memory only, and not on the regions. -/
structure Agree (rs : List Region) (u v : State) : Prop where
  frame : v = { u with mem := v.mem }
  read : ∀ a, Region.anyContains rs a = true → v.mem.read a = u.mem.read a
  wf : u.mem.wf = true
  wf' : v.mem.wf = true

namespace Agree

variable {rs : List Region} {u v : State}

theorem cfg (h : Agree rs u v) : v.cfg = u.cfg := by rw [h.frame]
theorem draws (h : Agree rs u v) : v.draws = u.draws := by rw [h.frame]
theorem operands (h : Agree rs u v) : v.operands = u.operands := by rw [h.frame]; rfl
theorem raced (h : Agree rs u v) : v.raced = u.raced := by rw [h.frame]; rfl
theorem mismatch (h : Agree rs u v) : v.mismatch = u.mismatch := by rw [h.frame]; rfl

/-! ### Operations that keep memory, and are blind to it -/

/-- An operation that commutes with every change of memory keeps agreement. -/
theorem map (h : Agree rs u v) {f : State → State} (blind : ∀ (w : State) (m : Memory),
    f { w with mem := m } = { f w with mem := m }) : Agree rs (f u) (f v) := by
  have kept (w : State) : (f w).mem = w.mem := congrArg (·.mem) (blind w w.mem)
  refine ⟨?_, ?_, ?_, ?_⟩
  · rw [kept v, ← blind, ← h.frame]
  · rw [kept, kept]; exact h.read
  · rw [kept]; exact h.wf
  · rw [kept]; exact h.wf'

theorem complete (h : Agree rs u v) : Agree rs u.complete v.complete := h.map fun _ _ => rfl

theorem raiseError (h : Agree rs u v) (e : ErrCode) (w : Word) : Agree rs (u.raiseError e w) (v.raiseError e w) :=
  h.map (f := (·.raiseError e w)) fun _ _ => rfl

theorem compareDigest (h : Agree rs u v) : Agree rs u.compareDigest v.compareDigest := h.map fun _ _ => rfl

theorem drawDigest (h : Agree rs u v) : Agree rs u.drawDigest v.drawDigest := h.map fun _ _ => rfl

theorem abandonDigest (h : Agree rs u v) : Agree rs u.abandonDigest v.abandonDigest := by
  rw [State.abandonDigest, State.abandonDigest, h.raced]
  split
  · exact h.drawDigest
  · exact h.map fun _ _ => rfl

theorem checksumPhase (h : Agree rs u v) (bs : List Byte) : Agree rs (u.checksumPhase bs) (v.checksumPhase bs) := by
  rw [State.checksumPhase, State.checksumPhase, h.raced]
  split
  · exact h.drawDigest
  · exact h.map (f := fun w => { w with
      acc := accumulate w.operands.seeds bs, chkResult := Machine.digest bs w.operands.seeds }) fun _ _ => rfl

/-- A phase's accesses come to the same in both. -/
theorem tried (h : Agree rs u v) (a : Accesses) : ∃ x u' v', u.tryAccesses a = (x, u') ∧ v.tryAccesses a = (x, v') ∧
    Agree rs u' v' := by
  have drew : Agree rs { u with draws := u.draws + 1 } { v with draws := v.draws + 1 } :=
    h.map (f := fun w => { w with draws := w.draws + 1 }) fun _ _ => rfl
  simp only [State.tryAccesses, State.failedAddress, h.cfg, h.draws] at drew ⊢
  split
  · exact ⟨_, _, _, rfl, rfl, h⟩
  · split <;> exact ⟨_, _, _, rfl, rfl, drew⟩

/-! ### Memory -/

/-- A region of the command reads the same in both. -/
theorem load (h : Agree rs u v) {r : Region} (hr : r ∈ rs) : v.load r = u.load r := by
  refine Memory.readRange_congr fun k hk => h.read _ (List.any_eq_true.mpr ⟨r, hr, ?_⟩)
  rw [Region.contains_iff]
  omega

theorem store (h : Agree rs u v) (base : Nat) (bs : List Byte) : Agree rs (u.store base bs) (v.store base bs) where
  frame := by
    conv_lhs => rw [h.frame]
    rfl
  read a ha := by
    rw [State.store_mem, State.store_mem, Memory.read_writeRange _ _ _ h.wf, Memory.read_writeRange _ _ _ h.wf',
      h.read a ha]
  wf := Memory.wf_writeRange _ _ h.wf
  wf' := Memory.wf_writeRange _ _ h.wf'

theorem scrambleRegion (h : Agree rs u v) (r : Region) : Agree rs (u.scrambleRegion r) (v.scrambleRegion r) := by
  have drew := (h.store r.base (freeBytes u.draws r.len)).map (f := fun w => { w with draws := w.draws + r.len })
    fun _ _ => rfl
  rw [State.scrambleRegion, State.scrambleRegion, h.draws]
  rw [State.store, State.store, h.draws] at drew
  exact drew

theorem scramble : ∀ (qs : List Region) {u v : State}, Agree rs u v → Agree rs (u.scramble qs) (v.scramble qs)
  | [], _, _, h => h
  | q :: qs, _, _, h => scramble qs (h.scrambleRegion q)

theorem settle (h : Agree rs u v) (qs : List Region) : Agree rs (u.settle qs) (v.settle qs) := by
  rw [State.settle, State.settle, h.raced]
  split
  · exact scramble qs h
  · exact h

theorem busError (h : Agree rs u v) (addr : Nat) (qs : List Region) :
    Agree rs (u.busError addr qs) (v.busError addr qs) :=
  (scramble qs h).raiseError _ _

/-! ### The bodies -/

theorem transfer {i : Instr} (h : Agree rs u v) (src : u.operands.srcRegion ∈ rs) (base : Operands → Nat)
    (f : Operands → List Byte → List Byte) :
    Agree rs (u.transfer i (base u.operands) (f u.operands)) (v.transfer i (base v.operands) (f v.operands)) := by
  obtain ⟨x, u', v', eu, ev, h'⟩ := h.tried (accessesOf i u.operands)
  rw [State.transfer, State.transfer, h.operands, h.load src, eu, ev]
  cases x with
  | some addr => exact h'.busError _ _
  | none => exact ((h'.store _ _).settle _).complete

theorem csumBody (h : Agree rs u v) (buf : u.operands.bufRegion ∈ rs) : Agree rs u.csumBody v.csumBody := by
  obtain ⟨x, u', v', eu, ev, h'⟩ := h.tried u.operands.digestAccesses
  rw [State.csumBody, State.csumBody, h.operands, h.load buf, eu, ev]
  cases x with
  | some addr => exact h'.abandonDigest.busError _ _
  | none => exact (h'.checksumPhase _).complete

theorem encodeBody (h : Agree rs u v) (src : u.operands.srcRegion ∈ rs) (delta : Bool) :
    Agree rs (u.encodeBody delta) (v.encodeBody delta) := by
  obtain ⟨x, u', v', eu, ev, h'⟩ := h.tried u.operands.encodeAccesses
  rw [State.encodeBody, State.encodeBody, h.operands, h.load src, eu, ev]
  cases x with
  | some addr => exact h'.abandonDigest.busError _ _
  | none => exact (((h'.store _ _).checksumPhase _).settle _).complete

theorem decodeStore (h : Agree rs u v) (delta : Bool) (planes : List Byte) :
    Agree rs (u.decodeStore delta planes) (v.decodeStore delta planes) := by
  obtain ⟨x, u', v', eu, ev, h'⟩ := h.tried (u.operands.decodeWrites delta)
  rw [State.decodeStore, State.decodeStore, h.operands, eu, ev]
  cases x with
  | some addr => exact h'.busError _ _
  | none =>
    cases delta with
    | false => exact ((h'.store _ _).settle _).complete
    | true => exact (((h'.store _ _).store _ _).settle _).complete

theorem decodeBody (h : Agree rs u v) (src : u.operands.srcRegion ∈ rs) (delta fatal : Bool) :
    Agree rs (u.decodeBody delta fatal) (v.decodeBody delta fatal) := by
  obtain ⟨x, u', v', eu, ev, h'⟩ := h.tried u.operands.decodeReads
  have compared := (h'.checksumPhase (u.load u.operands.srcRegion)).compareDigest
  rw [State.decodeBody, State.decodeBody, h.operands, h.load src, eu, ev]
  cases x with
  | some addr =>
    have address : v.failedAddress = u.failedAddress := by
      rw [h.frame]
      rfl
    rw [address]
    exact (h'.abandonDigest.settle _).busError _ _
  | none =>
    dsimp only
    rw [compared.mismatch]
    split
    · exact (compared.settle _).raiseError _ _
    · exact compared.decodeStore _ _

/-- A body that keeps agreement runs on both states or on neither. -/
theorem runCommand {i : Instr} {s t : State} {body : State → State} (h : Agree rs s v)
    (kept : Agree rs (body s) (body v)) (ran : s.runCommand i body = .next t) :
    ∃ t', v.runCommand i body = .next t' ∧ Agree rs t t' := by
  obtain ⟨ordinary, inRange, rfl⟩ := runCommand_next ran
  refine ⟨_, runCommand_of_regions ?_ fun r hr => Region.inRange_iff.mpr ?_, kept⟩
  · rw [State.Ordinary, h.operands, h.cfg]
    exact ordinary
  · rw [h.operands] at hr
    rw [h.cfg]
    exact inRange r hr

/-- A command keeps agreement on its regions. -/
theorem exec_next {i : Instr} {s t : State} (h : Agree (i.regions s.operands) s v) (ran : exec i s = .next t) :
    ∃ t', exec i v = .next t' ∧ Agree (i.regions s.operands) t t' := by
  have src := srcRegion_mem_regions (i := i) s.operands
  cases i with
  | split => exact h.runCommand (h.transfer (src rfl) (·.dst.toNat) fun o => splitBytes o.C o.P) ran
  | merge => exact h.runCommand (h.transfer (src rfl) (·.dst.toNat) fun o => mergeBytes o.C o.P) ran
  | dfwd => exact h.runCommand (h.transfer (src rfl) (·.src.toNat) fun o => fwdBytes o.C o.P) ran
  | dinv => exact h.runCommand (h.transfer (src rfl) (·.src.toNat) fun o => invBytes o.C o.P) ran
  | csum => exact h.runCommand (h.csumBody (List.mem_singleton.mpr rfl)) ran
  | encode delta => exact h.runCommand (h.encodeBody (src rfl) delta) ran
  | decode delta fatal => exact h.runCommand (h.decodeBody (src rfl) delta fatal) ran

end Agree

/-- An address outside a command's regions is outside those it writes. -/
theorem State.mayChange_eq_false {i : Instr} {s : State} {a : Nat}
    (outside : Region.anyContains (i.regions s.operands) a = false) : s.mayChange i a = false := by
  rw [Region.anyContains, List.any_eq_false] at outside
  exact List.any_eq_false.mpr fun r hr => outside r (Instr.writtenRegions_subset hr)

/-- Settles O37: agreement gives the registers and the regions, the frame of the second run the rest of memory. -/
theorem commandsReadOnlyTheirRegions : Obligations.CommandsReadOnlyTheirRegions := by
  intro i s t m memWf memWf' same ran
  have start : Agree (i.regions s.operands) s { s with mem := m } := ⟨rfl, same, memWf, memWf'⟩
  obtain ⟨t', ran', agree⟩ := start.exec_next ran
  obtain ⟨_, _, ends⟩ := exec_next_endsAs ran'
  refine ⟨t'.mem, by rw [ran', ← agree.frame], fun a => ?_⟩
  split
  case isTrue inside => exact agree.read a inside
  case isFalse outside => exact ends.outside memWf' a (State.mayChange_eq_false (Bool.eq_false_iff.mpr outside))

end Sys2Proof.Machine

/-! Raced commands (20_memory.md R70): what one that is validated on ordinary memory ends in. -/

namespace Sys2Proof.Machine

variable {i : Instr} {s t u : State}

/-- A validated command on ordinary memory answers a next state (R127). -/
theorem exec_answers (valid : s.Valid i) (ordinary : s.Ordinary i) : ∃ t, exec i s = .next t := by
  obtain ⟨body, e, _⟩ := exec_eq i s
  exact ⟨body s, e.trans (runCommand_of_regions ordinary (passed_of_check valid).inRange)⟩

/-- No access of DECODE is left open by R66. -/
theorem mayFail_decode (delta fatal : Bool) (o : Operands) (c : Config) :
    (accessesOf (.decode delta fatal) o).mayFail c = [] := rfl

/-- Every address a validated command can fail at fits ERR_ADDR (R127, R229). -/
theorem failing_lt (legal : s.cfg.legal = true) (valid : s.Valid i) {a : Nat}
    (h : a ∈ (accessesOf i s.operands).failing s.cfg ++ (accessesOf i s.operands).mayFail s.cfg) : a < 2 ^ 32 := by
  have addrW : s.cfg.addrW ≤ 32 := by
    simp only [Config.legal, Bool.and_eq_true, decide_eq_true_eq] at legal
    omega
  calc a < 2 ^ s.cfg.addrW := addr_lt_of_anyContains (regions_inRange_of_valid valid) (failing_in_regions h)
    _ ≤ 2 ^ 32 := Nat.pow_le_pow_right (by decide) addrW

namespace RacedEnd

/-- The digest registers of a raced command that computes a digest, as free values (R70). -/
theorem digestDrawn (h : RacedEnd i s u t) (digests : i.digests = true) : ∃ n m, s.draws ≤ n ∧ n < t.draws ∧
    t.chkResult = Config.freeWord n ∧ s.draws ≤ m ∧ m < t.draws ∧ t.status.chkMismatch = Config.freeBool m := by
  obtain ⟨⟨n, hn⟩, m, hm⟩ := h.digestFree digests
  exact ⟨n, m, hn.1, hn.2.1, hn.2.2, hm⟩

/-- The end report of a raced command: a completion, a bus error at a failing address, or a FATAL DECODE's mismatch. When
only accesses left open fail, the first draw of the step decides between the first two (log 8). -/
theorem reports (h : RacedEnd i s u t) :
    let failing := (accessesOf i s.operands).failing s.cfg
    let mayFail := (accessesOf i s.operands).mayFail s.cfg
    (∀ a ∈ failing ++ mayFail, a < 2 ^ 32) →
    (s.ReportsDone t ∧ failing = [] ∧ (mayFail = [] ∨ Config.freeBool s.draws = false ∧ s.draws < t.draws) ∧
      ∀ d, i = .decode d true → t.status.chkMismatch = false) ∨
    ((∃ a ∈ failing ++ mayFail, s.ReportsError t .busError a) ∧
      (failing = [] → Config.freeBool s.draws = true ∧ s.draws < t.draws) ∧
      ∀ d, i = .decode d true → s.operands.decodeReads.failing s.cfg = [] → t.status.chkMismatch = false) ∨
    ∃ d, i = .decode d true ∧ s.operands.decodeReads.failing s.cfg = [] ∧ t.status.chkMismatch = true ∧
      s.ReportsError t .chkMismatch 0 := by
  intro failing mayFail fits
  have draws := h.draws
  obtain ⟨_, _, _, mismatch⟩ := h.kept
  rw [mismatch]
  rcases h.report with ⟨rfl, noneFails, free, quiet⟩ | ⟨a, ha, rfl, free, quiet⟩ | ⟨d, rfl, noneFails, differs, rfl⟩
  · exact .inl ⟨h.within.reportsDone _, noneFails, free.imp_right fun ⟨no, drawn⟩ => ⟨no, drawn.trans_le draws⟩, quiet⟩
  · have report := h.within.reportsError (i.writtenRegions s.operands) .busError (BitVec.ofNat 32 a)
    rw [BitVec.toNat_ofNat, Nat.mod_eq_of_lt (fits a ha)] at report
    exact .inr (.inl ⟨⟨a, ha, report⟩, fun e => (free e).imp_right fun drawn => drawn.trans_le draws, quiet⟩)
  · exact .inr (.inr ⟨d, rfl, noneFails, differs, h.within.reportsError _ .chkMismatch 0⟩)

end RacedEnd

/-- Settles O47: no access fails, so the report is a completion or a FATAL DECODE's mismatch. -/
theorem racedCommandEndsWithFreeValues : Obligations.RacedCommandEndsWithFreeValues := by
  intro i s memWf valid ordinary hr noFail
  obtain ⟨t, ran⟩ := exec_answers valid ordinary
  obtain ⟨_, _, ends⟩ := exec_next_endsAs ran
  obtain ⟨u, raced⟩ := exec_raced hr ran
  have nothing : (accessesOf i s.operands).failing s.cfg ++ (accessesOf i s.operands).mayFail s.cfg = [] := by
    rw [noFail.1, noFail.2, List.append_nil]
  refine ⟨t, ran, ends.frame, ends.outside memWf, raced.fresh memWf, raced.digestDrawn, ends.digest, ?_⟩
  rcases raced.reports (by simp [nothing]) with
    ⟨done, _, _, quiet⟩ | ⟨⟨a, ha, _⟩, _⟩ | ⟨d, rfl, _, differs, error⟩
  · refine ⟨fun _ => done, fun d hd => ?_⟩
    rw [if_neg (by simp [quiet d hd])]
    exact done
  · rw [nothing] at ha
    exact absurd ha List.not_mem_nil
  · refine ⟨fun notFatal => absurd rfl (notFatal d), fun _ _ => ?_⟩
    rw [if_pos differs]
    exact error

/-- Settles O55, report by report; DECODE has no access left open, so one that its rule makes fails. -/
theorem racedCommandWithFailingAccess : Obligations.RacedCommandWithFailingAccess := by
  intro i s memWf legal valid ordinary hr failing mayFail someMayFail
  obtain ⟨t, ran⟩ := exec_answers valid ordinary
  obtain ⟨_, _, ends⟩ := exec_next_endsAs ran
  obtain ⟨u, raced⟩ := exec_raced hr ran
  have decodeFails : ∀ d, i = .decode d true → failing ≠ [] := by
    rintro d rfl noneFails
    exact someMayFail (by rw [noneFails]; exact mayFail_decode d true s.operands s.cfg)
  refine ⟨t, ran, ends.frame, ends.outside memWf, raced.fresh memWf, raced.digestDrawn, ends.digest, ?_⟩
  rcases raced.reports fun a => failing_lt legal valid with
    ⟨done, noneFails, free, _⟩ | ⟨bus, free, quiet⟩ | ⟨d, rfl, noneFails, differs, error⟩
  · refine ⟨fun fails => absurd noneFails fails, fun _ => ?_, fun d hd => absurd noneFails (decodeFails d hd)⟩
    obtain ⟨no, drawn⟩ := free.resolve_left fun e => someMayFail (List.append_eq_nil_iff.mpr ⟨noneFails, e⟩)
    refine ⟨s.draws, Nat.le_refl _, drawn, ?_⟩
    rw [if_neg (Bool.eq_false_iff.mp no)]
    exact done
  · refine ⟨fun _ _ => bus, fun noneFails => ?_, fun d hd => ?_⟩
    · obtain ⟨yes, drawn⟩ := free noneFails
      refine ⟨s.draws, Nat.le_refl _, drawn, ?_⟩
      rw [if_pos yes]
      exact bus
    · rw [if_neg fun ⟨noneFails, differs⟩ => Bool.eq_false_iff.mp (quiet d hd noneFails) differs]
      exact bus
  · refine ⟨fun _ notFatal => absurd rfl (notFatal d), fun e => absurd e (decodeFails d rfl), fun _ _ => ?_⟩
    rw [if_pos ⟨noneFails, differs⟩]
    exact error

end Sys2Proof.Machine

/-! Commands of which only accesses left open by R66 would fail (20_memory.md R66, 43_delta.md R182, R187): the first draw
of the step decides between the end on a platform where nothing fails and BUS_ERROR (`OpenBody`, log 8). -/

namespace Sys2Proof.Machine

variable {i : Instr} {s t u : State}

/-! ### A platform where nothing fails -/

/-- The same state on a platform where no engine access fails (R80, U20). -/
def State.onSoundPlatform (s : State) : State := { s with cfg := { s.cfg with readFailing := [], writeFailing := [] } }

theorem State.onSoundPlatform_noAccessFails (i : Instr) (s : State) : s.onSoundPlatform.NoAccessFails i := by
  have reads (a : Nat) : s.onSoundPlatform.cfg.readFails a = false := rfl
  have writes (a : Nat) : s.onSoundPlatform.cfg.writeFails a = false := rfl
  simp [State.NoAccessFails, Accesses.failing, Accesses.mayFail, reads, writes]

/-- Validation and the memory map do not depend on which accesses fail. -/
theorem State.onSoundPlatform_ready (valid : s.Valid i) (ordinary : s.Ordinary i) (notRaced : s.raced = false) :
    s.onSoundPlatform.Ready i :=
  ⟨valid, ordinary, notRaced, s.onSoundPlatform_noAccessFails i⟩

/-! ### The accesses -/

/-- When only accesses left open would fail, one draw decides whether they are made. -/
theorem State.tryAccesses_open {a : Accesses} (sound : a.failing s.cfg = []) (failing : a.mayFail s.cfg ≠ []) :
    (Config.freeBool s.draws = false → s.tryAccesses a = (none, { s with draws := s.draws + 1 })) ∧
    (Config.freeBool s.draws = true →
      ∃ addr ∈ a.mayFail s.cfg, s.tryAccesses a = (some addr, { s with draws := s.draws + 1 })) := by
  rcases s.tryAccesses_cases a with ⟨_, noneFails, _⟩ | ⟨_, _, no, e⟩ | ⟨addr, ha, yes, e⟩
  · exact absurd noneFails failing
  · exact ⟨fun _ => e, fun yes => absurd (no.symm.trans yes) Bool.false_ne_true⟩
  · rw [sound, List.nil_append] at ha
    exact ⟨fun no => absurd (no.symm.trans (yes sound)) Bool.false_ne_true, fun _ => ⟨addr, ha, e⟩⟩

/-! ### The end in BUS_ERROR -/

/-- A body that has kept STATUS and CHK_RESULT, ended in BUS_ERROR with its written regions unspecified (R228 to R230). -/
theorem Within.busError_outcome (w : Within i s u) (status : u.status = s.status)
    (chkResult : u.chkResult = s.chkResult) (memWf : s.mem.wf = true) {addr : Nat} (fits : addr < 2 ^ 32) :
    let t := u.busError addr (i.writtenRegions s.operands)
    t.eng = .idle ∧ t.status = { s.status with err := true, errCode := .busError } ∧ t.errAddr.toNat = addr ∧
      t.chkResult = s.chkResult ∧ s.FreshBytes t (i.writtenRegions s.operands) ∧
      ∀ a, s.mayChange i a = false → t.mem.read a = s.mem.read a := by
  refine ⟨rfl, ?_, ?_, ?_, ?_, (w.scramble fun _ h => h).outside memWf⟩
  · rw [State.busError, State.raiseError_status, State.scramble_status, status]
  · rw [State.busError, State.raiseError_errAddr, BitVec.toNat_ofNat, Nat.mod_eq_of_lt fits]
  · rw [State.busError, State.raiseError_chkResult, State.scramble_chkResult, chkResult]
  · exact (State.scramble_fresh _ (w.wf memWf)).widen w.draws (Nat.le_refl _) rfl

/-! ### The bodies -/

/-- The first draw of the step decides what the body comes to: its end on a platform where nothing fails with one draw
more, or BUS_ERROR at an access left open, with STATUS and CHK_RESULT kept till then. -/
structure OpenBody (i : Instr) (s : State) (body : State → State) : Prop where
  no : Config.freeBool s.draws = false → body s = { body s.onSoundPlatform with cfg := s.cfg, draws := s.draws + 1 }
  yes : Config.freeBool s.draws = true → ∃ addr ∈ (accessesOf i s.operands).mayFail s.cfg, ∃ u, Within i s u ∧
    u.status = s.status ∧ u.chkResult = s.chkResult ∧ body s = u.busError addr (i.writtenRegions s.operands)

/-- A copying body that is not raced, from the state `t` its accesses leave. -/
theorem transfer_of_tried (notRaced : t.raced = false)
    (tried : s.tryAccesses (accessesOf i s.operands) = (none, t)) (base : Nat) (f : List Byte → List Byte) :
    s.transfer i base f = (t.store base (f (s.load s.operands.srcRegion))).complete := by
  have stored : (t.store base (f (s.load s.operands.srcRegion))).raced = false := notRaced
  rw [State.transfer, tried]
  dsimp only
  rw [State.settle_of_not_raced stored]

/-- ENCODE's body when it is not raced, from the state `t` its accesses leave. -/
theorem encodeBody_of_tried {delta : Bool} (notRaced : t.raced = false)
    (tried : s.tryAccesses s.operands.encodeAccesses = (none, t)) :
    s.encodeBody delta =
      let planes := encodedPlanes delta s.operands.C s.operands.P (s.load s.operands.srcRegion)
      ({ t.store s.operands.dst.toNat planes with
        acc := accumulate t.operands.seeds planes
        chkResult := digest planes t.operands.seeds } : State).complete := by
  have stored : ∀ bs, (t.store s.operands.dst.toNat bs).raced = false := fun _ => notRaced
  rw [State.encodeBody, tried]
  dsimp only
  rw [State.checksumPhase_of_not_raced (stored _)]
  refine congrArg State.complete (State.settle_of_not_raced ?_ _)
  exact notRaced

theorem State.onSoundPlatform_tried (i : Instr) (s : State) :
    s.onSoundPlatform.tryAccesses (accessesOf i s.operands) = (none, s.onSoundPlatform) :=
  State.tryAccesses_ok (s.onSoundPlatform_noAccessFails i).1 (s.onSoundPlatform_noAccessFails i).2

theorem transfer_open (notRaced : s.raced = false) (sound : (accessesOf i s.operands).failing s.cfg = [])
    (failing : (accessesOf i s.operands).mayFail s.cfg ≠ []) (base : Operands → Nat)
    (f : Operands → List Byte → List Byte) :
    OpenBody i s fun s => s.transfer i (base s.operands) (f s.operands) := by
  obtain ⟨made, fails⟩ := State.tryAccesses_open sound failing
  constructor
  · intro no
    dsimp only
    rw [transfer_of_tried (t := { s with draws := s.draws + 1 }) notRaced (made no),
      transfer_of_tried (s := s.onSoundPlatform) (t := s.onSoundPlatform) notRaced (s.onSoundPlatform_tried i)]
    rfl
  · intro yes
    obtain ⟨addr, ha, e⟩ := fails yes
    refine ⟨addr, ha, _, (Within.refl i s).drew (Nat.le_succ _), rfl, rfl, ?_⟩
    rw [State.transfer, e]

theorem encodeBody_open {delta : Bool} (notRaced : s.raced = false)
    (sound : (accessesOf (.encode delta) s.operands).failing s.cfg = [])
    (failing : (accessesOf (.encode delta) s.operands).mayFail s.cfg ≠ []) :
    OpenBody (.encode delta) s (State.encodeBody delta) := by
  obtain ⟨made, fails⟩ := State.tryAccesses_open sound failing
  constructor
  · intro no
    rw [encodeBody_of_tried (t := { s with draws := s.draws + 1 }) notRaced (made no),
      encodeBody_of_tried (s := s.onSoundPlatform) (t := s.onSoundPlatform) notRaced
        (s.onSoundPlatform_tried (.encode delta))]
    rfl
  · intro yes
    obtain ⟨addr, ha, e⟩ := fails yes
    have drew := (Within.refl (.encode delta) s).drew (Nat.le_succ s.draws)
    have abandoned : State.abandonDigest { s with draws := s.draws + 1 } =
        State.drawAcc { s with draws := s.draws + 1 } := if_neg (Bool.eq_false_iff.mp notRaced)
    refine ⟨addr, ha, _, drew.drawAcc rfl, rfl, rfl, ?_⟩
    rw [State.encodeBody, show s.tryAccesses s.operands.encodeAccesses = _ from e, ← abandoned]
    rfl

/-- The body that a command runs, when only accesses left open would fail: DFWD's, DINV's or ENCODE's. -/
theorem exec_open (notRaced : s.raced = false) (sound : (accessesOf i s.operands).failing s.cfg = [])
    (failing : (accessesOf i s.operands).mayFail s.cfg ≠ []) :
    ∃ body, (∀ u, exec i u = u.runCommand i body) ∧ OpenBody i s body := by
  cases i with
  | split | merge | csum | decode => exact absurd rfl failing
  | dfwd => exact ⟨_, fun _ => rfl, transfer_open notRaced sound failing (·.src.toNat) fun o => fwdBytes o.C o.P⟩
  | dinv => exact ⟨_, fun _ => rfl, transfer_open notRaced sound failing (·.src.toNat) fun o => invBytes o.C o.P⟩
  | encode delta => exact ⟨_, fun _ => rfl, encodeBody_open notRaced sound failing⟩

/-- Settles O54: the free yes-or-no is the first draw of the step. -/
theorem openAccessesMayFail : Obligations.OpenAccessesMayFail := by
  intro i s memWf legal valid ordinary notRaced sound failing
  obtain ⟨body, e, no, yes⟩ := exec_open notRaced sound failing
  have ran : exec i s = .next (body s) :=
    (e s).trans (runCommand_of_regions ordinary (passed_of_check valid).inRange)
  refine ⟨s.draws, body s.onSoundPlatform, Nat.le_refl _,
    (e _).trans ((State.onSoundPlatform_ready valid ordinary notRaced).run body), fun h => ?_, fun h => ?_⟩
  · rw [ran, no h]
  · obtain ⟨addr, ha, u, within, status, chkResult, ends⟩ := yes h
    have fits : addr < 2 ^ 32 := failing_lt legal valid (List.mem_append_right _ ha)
    obtain ⟨idle, report, address, kept⟩ := within.busError_outcome status chkResult memWf fits
    rw [← ends] at idle report address kept
    exact ⟨_, ran, idle, report, by rwa [address], kept⟩

end Sys2Proof.Machine

/-! The encoding of commands (30_encoding.md R92 to R98): a word and its fields are the same data, what the decoder answers
on fields is said once (`decodeFields_answer`), and the statements about words follow. -/

namespace Sys2Proof

/-! ### Words and their fields (R92) -/

/-- The bits of a word with the given fields. -/
theorem packFields_getLsbD (f : CmdFields) (k : Nat) :
    (packFields f).getLsbD k =
      if k < 4 then f.op.getLsbD k else if k = 4 then f.delta else if k = 5 then f.fatal
      else f.reserved.getLsbD (k - 6) := by
  rw [packFields, BitVec.getLsbD_append, BitVec.getLsbD_append, BitVec.getLsbD_append, BitVec.getLsbD_ofBool,
    BitVec.getLsbD_ofBool]
  obtain low | rfl | rfl | high : k < 4 ∨ k = 4 ∨ k = 5 ∨ 6 ≤ k := by omega
  · rw [if_pos low, if_pos low]
  · simp
  · simp
  · obtain ⟨j, rfl⟩ := Nat.exists_eq_add_of_le' high
    simp

theorem fieldsOf_packFields (f : CmdFields) : fieldsOf (packFields f) = f := by
  have reserved : bitField (packFields f) 6 26 = f.reserved := by
    refine BitVec.eq_of_getLsbD_eq fun k hk => ?_
    simp [bitField, packFields_getLsbD, hk, Nat.add_comm 6]
  have op : bitField (packFields f) 0 4 = f.op := by
    refine BitVec.eq_of_getLsbD_eq fun k hk => ?_
    simp [bitField, packFields_getLsbD, hk]
  rw [fieldsOf, reserved, op, packFields_getLsbD, packFields_getLsbD]
  rfl

theorem packFields_fieldsOf (w : Word) : packFields (fieldsOf w) = w := by
  refine BitVec.eq_of_getLsbD_eq fun k hk => ?_
  rw [packFields_getLsbD, fieldsOf, bitField, bitField]
  split_ifs with inOp isDelta isFatal
  · simp [inOp]
  · rw [isDelta]
  · rw [isFatal]
  · simp [show k - 6 < 26 by omega, show 6 + (k - 6) = k by omega]

/-- OP is bits 3:0 of the word's number. -/
theorem fieldsOf_op_toNat (w : Word) : (fieldsOf w).op.toNat = w.toNat % 16 := by
  simp [fieldsOf, bitField]

/-- The reserved field is bits 31:6 of the word's number. -/
theorem fieldsOf_reserved_toNat (w : Word) : (fieldsOf w).reserved.toNat = w.toNat / 64 := by
  have := w.isLt
  rw [fieldsOf, bitField, BitVec.extractLsb'_toNat, Nat.shiftRight_eq_div_pow, Nat.mod_eq_of_lt (by omega)]

/-! ### The decoder (R98) -/

/-- Fields are ill-formed when one of R96's four conditions holds. -/
theorem CmdFields.wf_eq_false_iff {f : CmdFields} :
    f.wf = false ↔ (f.op.toNat = 0 ∨ 8 ≤ f.op.toNat) ∨ f.reserved.toNat ≠ 0 ∨
      (f.delta = true ∧ f.op.toNat ≠ 6 ∧ f.op.toNat ≠ 7) ∨ (f.fatal = true ∧ f.op.toNat ≠ 7) := by
  have reserved : f.reservedClear = false ↔ f.reserved.toNat ≠ 0 := by
    rw [CmdFields.reservedClear, beq_eq_false_iff_ne, BitVec.toNat_ne]
    rfl
  have op : f.opDefined = false ↔ f.op.toNat = 0 ∨ 8 ≤ f.op.toNat := by
    rw [CmdFields.opDefined, Bool.and_eq_false_iff, decide_eq_false_iff_not, decide_eq_false_iff_not]
    omega
  have delta : f.deltaAllowed = false ↔ f.delta = true ∧ f.op.toNat ≠ 6 ∧ f.op.toNat ≠ 7 := by
    simp [CmdFields.deltaAllowed, BitVec.toNat_eq, and_assoc]
  have fatal : f.fatalAllowed = false ↔ f.fatal = true ∧ f.op.toNat ≠ 7 := by
    simp [CmdFields.fatalAllowed, BitVec.toNat_eq]
  have conditions : f.wf = false ↔
      f.opDefined = false ∨ f.reservedClear = false ∨ f.deltaAllowed = false ∨ f.fatalAllowed = false := by
    simp only [CmdFields.wf, Bool.and_eq_false_iff, or_assoc, or_left_comm]
  rw [conditions, op, reserved, delta, fatal]

/-- A right answer of a decoder on the fields: the command they are the fields of, or a rejection if they are ill-formed. -/
def CmdFields.Answer (f : CmdFields) : Except DecodeReject Instr → Prop
  | .ok i => i.fields = f
  | .error _ => f.wf = false

theorem CmdFields.eq_mk {f : CmdFields} {op : BitVec 4} (clear : f.reserved = 0#26) (hop : f.op.toNat = op.toNat) :
    f = ⟨0#26, f.fatal, f.delta, op⟩ := by
  rw [← BitVec.eq_of_toNat_eq hop, ← clear]

/-- The arm of a command that has neither DELTA nor FATAL. -/
theorem answer_of_plain {f : CmdFields} {i : Instr} {op : BitVec 4} (fields : i.fields = ⟨0#26, false, false, op⟩)
    (noFlags : op.toNat < 6) (clear : f.reserved = 0#26) (hop : f.op.toNat = op.toNat) :
    f.Answer (if f.delta then .error .deltaNotAllowed else if f.fatal then .error .fatalNotAllowed else .ok i) := by
  split_ifs with delta fatal
  · exact CmdFields.wf_eq_false_iff.mpr (.inr (.inr (.inl ⟨delta, by omega, by omega⟩)))
  · exact CmdFields.wf_eq_false_iff.mpr (.inr (.inr (.inr ⟨fatal, by omega⟩)))
  · rw [CmdFields.Answer, fields, CmdFields.eq_mk clear hop, Bool.eq_false_iff.mpr delta, Bool.eq_false_iff.mpr fatal]

/-- The decoder answers right on all fields (R96, R98). -/
theorem decodeFields_answer (f : CmdFields) : f.Answer (decodeFields f) := by
  unfold decodeFields
  split
  case isTrue set =>
    exact CmdFields.wf_eq_false_iff.mpr (.inr (.inl (BitVec.toNat_ne.mp set)))
  case isFalse clear =>
    rw [not_not] at clear
    split <;> rename_i hop
    case h_1 | h_2 | h_3 | h_4 | h_5 => exact answer_of_plain rfl (by decide) clear hop
    case h_6 =>
      split_ifs with fatal
      · exact CmdFields.wf_eq_false_iff.mpr (.inr (.inr (.inr ⟨fatal, by omega⟩)))
      · rw [CmdFields.eq_mk (op := 6#4) clear hop, Bool.eq_false_iff.mpr fatal]
        rfl
    case h_7 =>
      rw [CmdFields.eq_mk (op := 7#4) clear hop]
      rfl
    case h_8 =>
      refine CmdFields.wf_eq_false_iff.mpr (.inl ?_)
      simp only [imp_false] at *
      omega

theorem decodeFields_fields (i : Instr) : decodeFields i.fields = .ok i := by
  cases i with
  | split | merge | dfwd | dinv | csum | encode | decode => rfl

/-- A word decodes to a command exactly when its fields are the command's. -/
theorem decode_eq_some_iff {w : Word} {i : Instr} : decode w = some i ↔ i.fields = fieldsOf w := by
  have answer := decodeFields_answer (fieldsOf w)
  rw [decode, decodeOrReject]
  constructor
  · intro h
    split at h <;> rename_i e
    · rw [e, Option.some.inj h] at answer
      exact answer
    · cases h
  · intro fields
    rw [← fields, decodeFields_fields]

/-- A word decodes to no command exactly when its fields are ill-formed. -/
theorem decode_eq_none_iff {w : Word} : decode w = none ↔ (fieldsOf w).wf = false := by
  have answer := decodeFields_answer (fieldsOf w)
  rw [decode, decodeOrReject]
  split <;> rename_i e <;> rw [e] at answer
  case h_1 i =>
    have wf : i.fields.wf = true := Laws.instr_wf i
    rw [show i.fields = _ from answer] at wf
    simp [wf]
  case h_2 => exact iff_of_true rfl answer

/-! ### The statements about words -/

/-- Settles O3: a word has the fields of a command exactly when it is the word packed from them. -/
theorem decodeInvertsEncode : Obligations.DecodeInvertsEncode := by
  intro w i
  rw [decode_eq_some_iff, encode]
  constructor
  · intro fields
    rw [fields, packFields_fieldsOf]
  · rintro rfl
    exact (fieldsOf_packFields _).symm

theorem decode_encode (i : Instr) : decode (encode i) = some i := (decodeInvertsEncode _ _).mpr rfl

/-- Every command, with every value of DELTA and FATAL it has. -/
def commands : List Instr :=
  [.split, .merge, .dfwd, .dinv, .csum, .encode false, .encode true, .decode false false, .decode true false,
    .decode false true, .decode true true]

theorem mem_commands (i : Instr) : i ∈ commands := by
  cases i with
  | split | merge | dfwd | dinv | csum => decide
  | encode delta => cases delta <;> decide
  | decode delta fatal => cases delta <;> cases fatal <;> decide

/-- Settles O1: R98's table lists every command with the word it is encoded as. -/
theorem legalWordsAreExactlyEleven : Obligations.LegalWordsAreExactlyEleven := by
  intro w i
  rw [decodeInvertsEncode w i]
  change encode i = w ↔ (w, i) ∈ commands.map fun j => (encode j, j)
  rw [List.mem_map]
  constructor
  · intro h
    exact ⟨i, mem_commands i, by rw [h]⟩
  · rintro ⟨j, _, h⟩
    cases h
    rfl

/-- Settles O4: each word is what its command is encoded as. -/
theorem writtenOutWordsDecode : Obligations.WrittenOutWordsDecode :=
  ⟨decode_encode .split, decode_encode .merge, decode_encode .dfwd, decode_encode .dinv, decode_encode .csum,
    decode_encode (.encode true), decode_encode (.decode false true)⟩

end Sys2Proof

/-! Issues of command words as steps and runs of the machine (30_encoding.md R90, R100, R101). -/

namespace Sys2Proof.Machine

/-- The issue of a word that decodes to no command fails with ILLEGAL_CMD (R222). -/
theorem State.issue_of_illegal {s : State} {w : Word} (illegal : decode w = none) :
    s.issue w = (s.beginIssue w).raiseError .illegalCmd 0 := by
  rw [State.issue, validate, illegal]

/-- The issue of a word that decodes to a command and passes validation is accepted (R124). -/
theorem State.issue_of_valid {s : State} {w : Word} {i : Instr} (decoded : decode w = some i)
    (valid : checkCommand s.cfg s.params i = none) : s.issue w = (s.beginIssue w).accept i := by
  rw [State.issue, validate, decoded]
  dsimp only
  rw [valid]

/-- Settles O2: the four conditions by `CmdFields.wf_eq_false_iff`, the step by `State.issue_of_illegal`. -/
theorem illegalWordsEndInIllegalCmd : Obligations.IllegalWordsEndInIllegalCmd := by
  constructor
  · intro w
    rw [decode_eq_none_iff, CmdFields.wf_eq_false_iff, fieldsOf_op_toNat, fieldsOf_reserved_toNat]
    rfl
  · intro s w rest released idle event illegal
    refine ⟨.ok, ?_⟩
    rw [step_issue released idle event, State.issue_of_illegal illegal, idle]
    rfl

/-- The step of an issue that is accepted. -/
theorem step_accept {s : State} {w : Word} {i : Instr} {rest : List Input} (released : s.resetHeld = false)
    (idle : s.eng = .idle) (event : s.inputs = wr .cmd w :: rest) (decoded : decode w = some i)
    (valid : checkCommand s.cfg s.params i = none) :
    step s = .next { (s.beginIssue w).accept i with inputs := rest, resp := .ok } := by
  rw [step_issue released idle event, State.issue_of_valid (s := { s with inputs := rest }) decoded valid]
  rfl

/-- The engine's turn on a running command, as a step. -/
theorem step_engine_busy {s : State} {i : Instr} {o : Operands} {r : Bool} {rest : List Input}
    (busy : s.eng = .busy i o r) (event : s.inputs = .engine :: rest) : step s = exec i { s with inputs := rest } := by
  rw [step_cons event, handle, engineTurn_busy (s := { s with inputs := rest }) busy]

/-- Settles O6: the accepting step, then the engine's. -/
theorem issuedCommandRunsOnEngineTurn : Obligations.IssuedCommandRunsOnEngineTurn := by
  intro s w i rest released idle event decoded valid
  refine ⟨.ok, ?_⟩
  rw [core_run_succ (step_accept released idle event decoded valid), core_run_one, step_engine_busy rfl rfl]

/-- A `WAIT` on a running command takes three steps: the engine's turn comes between the poll that finds BUSY = 1 and the
one that finds BUSY = 0 (log 19). -/
theorem run_wait_busy {s t : State} {i : Instr} {o : Operands} {r : Bool} {rest : List Input}
    (busy : s.eng = .busy i o r) (event : s.inputs = wait :: rest)
    (ran : exec i { s with inputs := wait :: rest, resp := .word s.statusWord } = .next t) :
    Host.Core.run core 3 s = .next { t with resp := .word t.statusWord, inputs := rest } := by
  have ends := (exec_next_endsAs ran).2.2
  have polled := step_wait_busy (State.isBusy_iff.mpr ⟨i, o, r, busy⟩) event
  have turn := (step_engine_busy (s := { s with inputs := .engine :: wait :: rest, resp := .word s.statusWord })
    busy rfl).trans ran
  have found := step_wait_idle (State.isBusy_eq_false.mpr ends.eng) ends.inputs
  exact (core_run_succ polled).trans ((core_run_succ turn).trans ((core_run_one t).trans found))

/-- Settles O7: the issue is accepted with the report cleared, and the wait runs the command to its one end. -/
theorem runPseudoOperationEnds : Obligations.RunPseudoOperationEnds := by
  intro s i rest _ released idle event valid ordinary
  have latched : s.operands = s.params := State.operands_of_idle idle
  have passed : checkCommand s.cfg s.params i = none := by rwa [State.Valid, latched] at valid
  rw [State.Ordinary, latched] at ordinary
  obtain ⟨t, ran⟩ := exec_answers
    (s := { (s.beginIssue (encode i)).accept i with inputs := wait :: rest, resp := _ }) passed ordinary
  have ends := (exec_next_endsAs ran).2.2
  refine ⟨_, (core_run_succ (step_accept released idle event (decode_encode i) passed)).trans
    (run_wait_busy rfl rfl ran), rfl, ends.eng, ends.err_eq_not_done rfl rfl, rfl⟩

end Sys2Proof.Machine

/-! A command from its issue to the engine's turn (40_command_common.md R121 to R129): the report or the acceptance that an
issue ends in, which check of R123 fails first, and that a validated command does not leave the address space (R127). -/

namespace Sys2Proof.Machine

/-! ### The engine's turn (R129) -/

/-- With nothing pending the running command has its turn (R273). -/
theorem step_nil_busy {s : State} {i : Instr} {o : Operands} {r : Bool} (busy : s.eng = .busy i o r)
    (event : s.inputs = []) : step s = exec i s := by
  rw [step_nil event, engineTurn_busy busy]

theorem decodeTableWord_of_decode {nbits w : Nat} {i : Instr} (bound : w < 2 ^ 32)
    (decoded : decode (BitVec.ofNat 32 w) = some i) : decodeTableWord nbits w = some i := by
  rw [decodeTableWord, if_pos bound, decoded]

/-- Settles O5: a placed command is BUSY, with the engine's turn next whether or not inputs are pending. -/
theorem stepRunsTheDecodedCommand : Obligations.StepRunsTheDecodedCommand := by
  constructor
  · intro s nbits w i bound decoded
    rw [State.withFetchWord, decodeTableWord_of_decode bound decoded]
    cases s.inputs with
    | nil => exact step_nil_busy rfl rfl
    | cons e rest => exact step_engine_busy rfl rfl
  · intro s i o raced busy
    exact ⟨step_nil_busy busy, fun rest => step_engine_busy busy⟩

/-! ### No fault after validation (R127) -/

/-- The running command passed validation with the operands it latched (R124, R48). -/
theorem State.Inv.valid {s : State} (hs : s.Inv) {i : Instr} {o : Operands} {r : Bool} (busy : s.eng = .busy i o r) :
    s.Valid i := by
  rw [State.Valid, State.operands_of_busy busy]
  exact (hs.running i o r busy).valid

/-- A validated command answers a next state, or is refused for a region off ordinary memory (R127, U11). -/
theorem exec_ne_fault {i : Instr} {s : State} (valid : s.Valid i) (f : Fault) : exec i s ≠ .fault f := by
  intro faults
  by_cases ordinary : s.Ordinary i
  · obtain ⟨t, ran⟩ := exec_answers valid ordinary
    exact nomatch ran.symm.trans faults
  · obtain ⟨r, hr, off⟩ : ∃ r ∈ i.regions s.operands, s.cfg.touchesSideEffects r = true := by
      simpa [State.Ordinary] using ordinary
    exact nomatch ((commandsStopOffOrdinaryMemory i s).1 ⟨r, hr, off⟩).symm.trans faults

theorem engineTurn_ne_fault {s : State} (valid : ∀ i o r, s.eng = .busy i o r → s.Valid i) (f : Fault) :
    engineTurn s ≠ .fault f := by
  cases running : s.eng with
  | idle =>
    rw [engineTurn_idle running]
    exact nofun
  | busy i o r =>
    rw [engineTurn_busy running]
    exact exec_ne_fault (valid i o r running) f

/-- Settles O38: of the other events only the engine's turn can stop, and the command it runs is validated. -/
theorem noFaultWithInvariant : Obligations.NoFaultWithInvariant := by
  intro s hs notMemory f
  rw [step_eq]
  cases event : s.nextEvent with
  | engine => exact engineTurn_ne_fault (s := { s with inputs := s.inputs.tail }) (fun i o r => hs.valid) f
  | memRead a | memWrite a v =>
    rw [event] at notMemory
    cases notMemory
  | resetPin | regRead | regWrite | poll | waitIrq => exact nofun

/-! ### The two ends of an issue (R121 to R124, R132) -/

/-- The step of an issue that fails a check: the report, and no other change. -/
theorem step_failedIssue {s : State} {w : Word} {e : ErrCode} {rest : List Input} (released : s.resetHeld = false)
    (idle : s.eng = .idle) (event : s.inputs = wr .cmd w :: rest) (failed : validate s.cfg s.params w = .error e) :
    step s = .next { s with
      inputs := rest, resp := .ok, cmd := w, errAddr := 0, status := ⟨false, true, false, s.status.wbusy, e⟩ } := by
  rw [step_issue released idle event, State.issue, show validate _ _ w = .error e from failed, idle]
  rfl

/-- Settles O19: an issue either reports a failed check or is accepted. -/
theorem issueSetsReadbackAndClearsReport : Obligations.IssueSetsReadbackAndClearsReport := by
  intro s w rest released idle event
  rcases s.issue_cases w with ⟨e, failed, _⟩ | ⟨i, decoded, valid, _⟩
  · refine ⟨_, step_failedIssue released idle event failed, rfl, rfl, rfl, rfl, rfl, rfl, fun busy => ?_⟩
    exact absurd ((State.isBusy_eq_false.mpr idle).symm.trans busy) Bool.false_ne_true
  · exact ⟨_, step_accept released idle event decoded valid, rfl, rfl, rfl, rfl, rfl, rfl,
      fun _ => ⟨rfl, rfl⟩⟩

/-! ### The checks of R123 in the spec's arithmetic -/

theorem Operands.N_eq (o : Operands) : o.N = o.channels.toNat * o.width.toNat * o.height.toNat :=
  (Nat.mul_assoc _ _ _).symm

theorem isGeometry_iff {i : Instr} : i.isGeometry = true ↔ i ≠ .csum := by
  cases i <;> simp [Instr.isGeometry]

theorem hasDestination_iff {i : Instr} :
    i.hasDestination = true ↔ i = .split ∨ i = .merge ∨ (∃ d, i = .encode d) ∨ ∃ d f, i = .decode d f := by
  cases i <;> simp [Instr.hasDestination]

/-- The regions of a command by what kind it is (R63). -/
theorem mem_regions_iff {i : Instr} {o : Operands} {r : Region} :
    r ∈ i.regions o ↔ (i = .csum ∧ r = o.bufRegion) ∨ (i ≠ .csum ∧ r = o.srcRegion) ∨
      (i.hasDestination = true ∧ r = o.dstRegion) := by
  cases i <;> simp [Instr.regions, Instr.hasDestination]

/-- Check 2 fails (R125). -/
theorem fails_geometry_iff {c : Config} {o : Operands} {i : Instr} :
    (i.isGeometry && !geometryLegal c o) = true ↔
      i ≠ .csum ∧ (o.width.toNat = 0 ∨ o.height.toNat = 0 ∨ o.channels.toNat = 0 ∨
        c.maxChannels < o.channels.toNat) := by
  rw [Bool.and_eq_true, isGeometry_iff, Bool.not_eq_true', geometryLegal, Operands.C]
  simp only [Bool.and_eq_false_iff, decide_eq_false_iff_not, Nat.not_le, Nat.lt_one_iff, or_assoc]

/-- Check 3 fails (R126). -/
theorem fails_size_iff {c : Config} {o : Operands} {i : Instr} :
    (i.isGeometry && !sizeLegal c o) = true ↔ i ≠ .csum ∧ c.maxTotalBytes < o.N := by
  rw [Bool.and_eq_true, isGeometry_iff, sizeLegal, Bool.not_eq_true', decide_eq_false_iff_not, Nat.not_le]

theorem inRange_eq_false {c : Config} {r : Region} :
    r.inRange c = false ↔ 0 < r.len ∧ 2 ^ c.addrW < r.base + r.len := by
  rw [← Bool.not_eq_true, Region.inRange_iff]
  omega

/-- Once check 2 has passed, a geometry command works on at least one byte. -/
theorem N_pos_of_geometry {c : Config} {o : Operands} {i : Instr}
    (good : ¬(i.isGeometry && !geometryLegal c o) = true) (geometry : i ≠ .csum) : 0 < o.N := by
  have legal := not_and.mp (mt fails_geometry_iff.mpr good) geometry
  obtain ⟨hC, hW, hH⟩ : 0 < o.channels.toNat ∧ 0 < o.width.toNat ∧ 0 < o.height.toNat := by omega
  exact Nat.mul_pos hC (Nat.mul_pos hW hH)

/-- Check 4 fails (R127), check 2 having passed. -/
theorem fails_range_iff {c : Config} {o : Operands} {i : Instr}
    (good : ¬(i.isGeometry && !geometryLegal c o) = true) :
    (!(i.regions o).all (Region.inRange c)) = true ↔
      (i = .csum ∧ 0 < o.length.toNat ∧ 2 ^ c.addrW < o.src.toNat + o.length.toNat) ∨
      (i ≠ .csum ∧ 2 ^ c.addrW < o.src.toNat + o.N) ∨
      (i.hasDestination = true ∧ 2 ^ c.addrW < o.dst.toNat + o.N) := by
  have destination : i.hasDestination = true → i ≠ .csum := by
    rintro h rfl
    cases h
  rw [Bool.not_eq_true', List.all_eq_false]
  simp only [Bool.not_eq_true, inRange_eq_false, mem_regions_iff]
  constructor
  · rintro ⟨r, ⟨csum, rfl⟩ | ⟨geometry, rfl⟩ | ⟨two, rfl⟩, nonempty, past⟩
    · exact .inl ⟨csum, nonempty, past⟩
    · exact .inr (.inl ⟨geometry, past⟩)
    · exact .inr (.inr ⟨two, past⟩)
  · rintro (⟨csum, nonempty, past⟩ | ⟨geometry, past⟩ | ⟨two, past⟩)
    · exact ⟨_, .inl ⟨csum, rfl⟩, nonempty, past⟩
    · exact ⟨_, .inr (.inl ⟨geometry, rfl⟩), N_pos_of_geometry good geometry, past⟩
    · exact ⟨_, .inr (.inr ⟨two, rfl⟩), N_pos_of_geometry good (destination two), past⟩

/-- Check 5 fails (R128). -/
theorem fails_overlap_iff {o : Operands} {i : Instr} :
    (i.hasDestination && !regionsDisjoint o) = true ↔
      i.hasDestination = true ∧ ¬(o.src.toNat + o.N ≤ o.dst.toNat ∨ o.dst.toNat + o.N ≤ o.src.toNat) := by
  simp [regionsDisjoint]

/-! ### Validation (R123) -/

theorem validate_of_illegal {c : Config} {o : Operands} {w : Word} (illegal : decode w = none) :
    validate c o w = .error .illegalCmd := by
  rw [validate, illegal]

theorem validate_of_failed {c : Config} {o : Operands} {w : Word} {i : Instr} {e : ErrCode}
    (decoded : decode w = some i) (failed : checkCommand c o i = some e) : validate c o w = .error e := by
  rw [validate, decoded]
  dsimp only
  rw [failed]

/-- Settles O20: the branches of `checkCommand`, each by its check in the spec's arithmetic. -/
theorem firstFailedCheckIsReported : Obligations.FirstFailedCheckIsReported := by
  intro s w rest released idle event
  refine ⟨fun illegal => ⟨_, step_failedIssue released idle event (validate_of_illegal illegal)⟩, fun i decoded => ?_⟩
  have failed {e : ErrCode} (check : checkCommand s.cfg s.params i = some e) :=
    step_failedIssue released idle event (validate_of_failed decoded check)
  simp only [← Operands.N_eq, ← hasDestination_iff, ← fails_geometry_iff, ← fails_size_iff, ← fails_overlap_iff]
  refine ⟨fun bad => ⟨_, failed ?geometry⟩, fun good bad => ⟨_, failed ?size⟩,
    fun good small bad => ⟨_, failed ?range⟩, fun good small inside bad => ⟨_, failed ?overlap⟩,
    fun good small inside apart => ⟨_, step_accept released idle event decoded ?valid⟩⟩
  case geometry => rw [checkCommand, if_pos bad]
  case size => rw [checkCommand, if_neg good, if_pos bad]
  case range => rw [checkCommand, if_neg good, if_neg small, if_pos ((fails_range_iff good).mpr bad)]
  case overlap =>
    rw [checkCommand, if_neg good, if_neg small, if_neg (mt (fails_range_iff good).mp inside), if_pos bad]
  case valid =>
    rw [checkCommand, if_neg good, if_neg small, if_neg (mt (fails_range_iff good).mp inside), if_neg apart]

end Sys2Proof.Machine

/-! The digest (41_checksum.md R140 to R148): the grouped form equals the streaming form, every update of an accumulator
can be undone, and CSUM reports the digest of its buffer. -/

namespace Sys2Proof.Machine

/-! ### The streaming form (R146) -/

/-- Only the byte index modulo 4 chooses the accumulator. -/
theorem absorbAt_add_four (A : Quad) (i : Nat) (b : Byte) : absorbAt A (i + 4) b = absorbAt A i b := by
  rw [absorbAt, Nat.add_mod_right, absorbAt]

theorem streamFrom_add_four (bs : List Byte) (A : Quad) (i : Nat) : streamFrom A (i + 4) bs = streamFrom A i bs := by
  induction bs generalizing A i with
  | nil => rfl
  | cons b bs ih => rw [streamFrom, streamFrom, absorbAt_add_four, Nat.add_right_comm, ih]

/-- A whole group is four bytes of the stream, after which the byte index is again a multiple of 4. -/
theorem streamFrom_group (A : Quad) (b0 b1 b2 b3 : Byte) (bs : List Byte) :
    streamFrom A 0 (b0 :: b1 :: b2 :: b3 :: bs) = streamFrom (absorbGroup A b0 b1 b2 b3) 0 bs :=
  streamFrom_add_four bs (absorbGroup A b0 b1 b2 b3) 0

theorem accumulate_eq_streamFrom (A : Quad) (bs : List Byte) : accumulate A bs = streamFrom A 0 bs := by
  induction A, bs using accumulate.induct with
  | case1 A => rfl
  | case2 A b0 => rfl
  | case3 A b0 b1 => rfl
  | case4 A b0 b1 b2 => rfl
  | case5 A b0 b1 b2 b3 rest ih => rw [accumulate, ih, streamFrom_group]

theorem streamFrom_append (xs ys : List Byte) (A : Quad) (i : Nat) :
    streamFrom A i (xs ++ ys) = streamFrom (streamFrom A i xs) (i + xs.length) ys := by
  induction xs generalizing A i with
  | nil => rfl
  | cons x xs ih =>
    rw [List.cons_append, streamFrom, ih, streamFrom, List.length_cons, Nat.add_right_comm, Nat.add_assoc]

/-- Settles O31, by the recursion of the grouped form: `accumulate_eq_streamFrom`. -/
theorem digestEqualsStreamingForm : Obligations.DigestEqualsStreamingForm :=
  ⟨fun bytes seeds => congrArg finalMix (accumulate_eq_streamFrom seeds bytes), fun _ => rfl⟩

/-! ### Updates can be undone (R141, R148) -/

theorem multipliers_odd : multipliers.q0.toNat % 2 = 1 ∧ multipliers.q1.toNat % 2 = 1 ∧
    multipliers.q2.toNat % 2 = 1 ∧ multipliers.q3.toNat % 2 = 1 := by decide

/-- An odd word is coprime to `2 ^ 32`, so it cancels in a product. -/
theorem mul_left_injective_of_odd {m : Word} (odd : m.toNat % 2 = 1) : Function.Injective (· * m) := by
  intro a a' h
  have coprime : Nat.gcd (2 ^ 32) m.toNat = 1 := (Nat.coprime_two_left.mpr (Nat.odd_iff.mpr odd)).pow_left 32
  have products : a.toNat * m.toNat ≡ a'.toNat * m.toNat [MOD 2 ^ 32] := by
    simpa only [Nat.ModEq, BitVec.toNat_mul] using congrArg BitVec.toNat h
  exact BitVec.eq_of_toNat_eq ((products.cancel_right_of_coprime coprime).eq_of_lt_of_lt a.isLt a'.isLt)

theorem zext32_injective : Function.Injective zext32 := by
  intro x y h
  simpa [zext32] using congrArg (BitVec.setWidth 8) h

/-- For a fixed byte, an update is injective in the accumulator. -/
theorem absorb_acc_inj {a a' m : Word} {b : Byte} (odd : m.toNat % 2 = 1) : absorb a m b = absorb a' m b ↔ a = a' :=
  (mul_left_injective_of_odd odd).eq_iff.trans (BitVec.xor_left_inj _)

/-- For a fixed accumulator, an update is injective in the byte. -/
theorem absorb_byte_inj {a m : Word} {b b' : Byte} (odd : m.toNat % 2 = 1) : absorb a m b = absorb a m b' ↔ b = b' :=
  (mul_left_injective_of_odd odd).eq_iff.trans ((BitVec.xor_right_inj _).trans zext32_injective.eq_iff)

theorem absorbAt_acc_injective (i : Nat) (b : Byte) : Function.Injective (absorbAt · i b) := by
  rintro ⟨a0, a1, a2, a3⟩ ⟨c0, c1, c2, c3⟩ h
  dsimp only [absorbAt] at h
  split at h <;> simpa only [Quad.mk.injEq, absorb_acc_inj, multipliers_odd] using h

theorem absorbAt_byte_injective (A : Quad) (i : Nat) : Function.Injective (absorbAt A i) := by
  intro x y h
  rw [absorbAt, absorbAt] at h
  split at h <;> simpa only [Quad.mk.injEq, absorb_byte_inj, multipliers_odd, true_and, and_true] using h

theorem streamFrom_acc_injective (bs : List Byte) (i : Nat) : Function.Injective (streamFrom · i bs) := by
  induction bs generalizing i with
  | nil => exact Function.injective_id
  | cons b bs ih => exact (ih (i + 1)).comp (absorbAt_acc_injective i b)

/-- Settles O32: the two streams agree up to the byte, it sends one accumulator to two values, and the bytes after it
keep the accumulators apart. -/
theorem singleByteChangeReachesAccumulators : Obligations.SingleByteChangeReachesAccumulators := by
  intro before after x y seeds differ same
  rw [accumulate_eq_streamFrom, accumulate_eq_streamFrom, streamFrom_append, streamFrom_append] at same
  exact differ (absorbAt_byte_injective _ _ (streamFrom_acc_injective after _ same))

/-! ### CSUM (R147) -/

/-- Settles O25: the accumulators left behind are those of the whole buffer. -/
theorem csumWritesDigest : Obligations.CsumWritesDigest :=
  fun s ready => ⟨accumulate s.operands.seeds (s.load s.operands.bufRegion), exec_csum_ready ready⟩

end Sys2Proof.Machine

/-! The planarizer (42_planarizer.md R160 to R167): SPLIT and MERGE move every byte to its place and change nothing
else, undo each other, and read only C and P of the geometry. -/

namespace Sys2Proof.Machine

/-! ### Split and merge as functions (R164) -/

/-- A split is a merge with the P pixels in the place of the planes, each of C samples. -/
theorem splitBytes_eq_mergeBytes (C P : Nat) (I : List Byte) : splitBytes C P I = mergeBytes P C I := by
  rw [splitBytes, mergeBytes, Nat.mul_comm]

theorem mergeBytes_splitBytes {C P : Nat} {I : List Byte} (length : I.length = C * P) :
    mergeBytes C P (splitBytes C P I) = I := by
  rw [Nat.mul_comm] at length
  refine planes_ext ((length_mergeBytes _ _ _).trans (Nat.mul_comm C P)) length fun i hi c hc => ?_
  rw [getD_mergeBytes _ hc hi, getD_splitBytes _ hc hi]

theorem splitBytes_mergeBytes {C P : Nat} {S : List Byte} (length : S.length = C * P) :
    splitBytes C P (mergeBytes C P S) = S := by
  rw [splitBytes_eq_mergeBytes, ← splitBytes_eq_mergeBytes P C]
  exact mergeBytes_splitBytes (length.trans (Nat.mul_comm C P))

/-! ### A completed transfer (R160, R161) -/

@[simp] theorem length_load (s : State) (r : Region) : (s.load r).length = r.len :=
  Memory.length_readRange _ _ _

theorem getD_load (s : State) {r : Region} {k : Nat} (inside : k < r.len) :
    (s.load r).getD k 0 = s.mem.read (r.base + k) :=
  Memory.getD_readRange _ inside

theorem load_eq_of_store {s u : State} (wf : s.mem.wf = true) {r : Region} {bs : List Byte} (length : bs.length = r.len)
    (same : u.mem = (s.store r.base bs).mem) : u.load r = bs := by
  rw [State.load, same, State.store_mem, ← length, Memory.readRange_writeRange _ _ wf]

/-- A command that stores `n` bytes at `base` and completes: each byte is in its place, and nothing else changes. -/
theorem exec_store_complete {i : Instr} {s : State} {base n : Nat} {bs : List Byte} (wf : s.mem.wf = true)
    (ran : exec i s = .next (s.store base bs).complete) (length : bs.length = n) :
    ∃ t, exec i s = .next t ∧
      (∀ k < n, t.mem.read (base + k) = bs.getD k 0) ∧
      (∀ a, ¬(base ≤ a ∧ a < base + n) → t.mem.read a = s.mem.read a) ∧
      t = { s with mem := t.mem, eng := .idle, status := { s.status with done := true } } := by
  subst length
  refine ⟨_, ran, fun k inside => ?inside, fun a outside => ?outside, rfl⟩
  all_goals rw [State.complete_mem, State.store_mem, Memory.read_writeRange _ _ _ wf]
  case inside => rw [if_pos (by omega), Nat.add_sub_cancel_left]
  case outside => rw [if_neg outside]

/-- Settles O21: byte `c·P + i` of what is stored is byte `i·C + c` of what was loaded. -/
theorem splitDeinterleavesImage : Obligations.SplitDeinterleavesImage := by
  intro s wf ready o
  obtain ⟨t, ran, stored, frame⟩ := exec_store_complete wf (exec_split_ready ready) (length_splitBytes _ _ _)
  refine ⟨t, ran, fun c hc i hi => ?_, frame⟩
  rw [stored _ (plane_index_lt hc hi), getD_splitBytes _ hc hi]
  exact getD_load s (pixel_index_lt hc hi)

/-- Settles O22: byte `i·C + c` of what is stored is byte `c·P + i` of what was loaded. -/
theorem mergeInterleavesPlanes : Obligations.MergeInterleavesPlanes := by
  intro s wf ready o
  obtain ⟨t, ran, stored, frame⟩ := exec_store_complete wf (exec_merge_ready ready) (length_mergeBytes _ _ _)
  refine ⟨t, ran, fun c hc i hi => ?_, frame⟩
  rw [stored _ (pixel_index_lt hc hi), getD_mergeBytes _ hc hi]
  exact getD_load s (plane_index_lt hc hi)

/-! ### MERGE after SPLIT (R164) -/

theorem exec_split_mem {s t : State} (ready : s.Ready .split) (ran : exec .split s = .next t) :
    t.mem = (s.store s.operands.dst.toNat
      (splitBytes s.operands.C s.operands.P (s.load s.operands.srcRegion))).mem := by
  obtain rfl := Host.Outcome.next.inj ((exec_split_ready ready).symm.trans ran)
  exact State.complete_mem _

/-- Settles O29: MERGE loads the plane set that SPLIT stored, and merging it gives the image that SPLIT loaded. -/
theorem splitAndMergeAreInverse : Obligations.SplitAndMergeAreInverse := by
  refine ⟨fun C P I _ _ length => ⟨mergeBytes_splitBytes length, splitBytes_mergeBytes length⟩, ?_⟩
  intro s t u z wf ready ran same operands readyMerge
  have mem := same.trans (exec_split_mem ready ran)
  have wfU : u.mem.wf = true := mem ▸ Memory.wf_writeRange _ _ wf
  have planes : u.load s.operands.dstRegion = splitBytes s.operands.C s.operands.P (s.load s.operands.srcRegion) :=
    load_eq_of_store wf (length_splitBytes _ _ _) mem
  have image : mergeBytes u.operands.C u.operands.P (u.load u.operands.srcRegion) = s.load s.operands.srcRegion := by
    rw [operands]
    exact (congrArg _ planes).trans (mergeBytes_splitBytes (length_load _ _))
  have dst : u.operands.dst = z := by rw [operands]
  have merged := exec_merge_ready readyMerge
  rw [image, dst] at merged
  obtain ⟨v, ranMerge, stored, -⟩ := exec_store_complete wfU merged (length_load _ _)
  exact ⟨v, ranMerge, fun k hk => (stored k hk).trans (getD_load s hk)⟩

/-! ### The geometry enters only by C and P (R167) -/

/-- SPLIT and MERGE store a function of C, P and the source bytes. -/
theorem exists_planarizer {i : Instr} (planar : i = .split ∨ i = .merge) :
    ∃ f : Nat → Nat → List Byte → List Byte, ∀ s : State, s.Ready i →
      ∃ t, exec i s = .next t ∧ t.mem = s.mem.writeRange s.operands.dst.toNat
        (f s.operands.C s.operands.P (s.load s.operands.srcRegion)) := by
  obtain rfl | rfl := planar
  · exact ⟨splitBytes, fun s ready => ⟨_, exec_split_ready ready, rfl⟩⟩
  · exact ⟨mergeBytes, fun s ready => ⟨_, exec_merge_ready ready, rfl⟩⟩

/-- Settles O33: the two geometries have the same P, so the same function of the same bytes is stored. -/
theorem noRowStructure : Obligations.NoRowStructure := by
  intro i s u w h planar _ ready readyU sameMem operands sameProduct
  obtain ⟨f, run⟩ := exists_planarizer planar
  obtain ⟨t, ranS, memT⟩ := run s ready
  obtain ⟨v, ranU, memV⟩ := run u readyU
  have sameC : u.operands.C = s.operands.C := by rw [operands]; rfl
  have sameP : u.operands.P = s.operands.P := by rw [operands]; exact sameProduct
  have sameSrc : u.operands.src = s.operands.src := by rw [operands]
  have sameDst : u.operands.dst = s.operands.dst := by rw [operands]
  refine ⟨t, v, ranS, ranU, ?_⟩
  rw [memT, memV, State.load, State.load, Operands.srcRegion, Operands.srcRegion, Operands.N, Operands.N, sameC, sameP,
    sameSrc, sameDst, sameMem]

end Sys2Proof.Machine

/-! The delta filter (43_delta.md R180 to R186): DFWD stores differences, DINV running sums, nothing else changes, and the
two undo each other. -/

namespace Sys2Proof.Machine

/-! ### The filters undo each other (R186) -/

theorem runningSums_differences (prev : Byte) (xs : List Byte) : runningSums prev (differences prev xs) = xs := by
  induction xs generalizing prev with
  | nil => rfl
  | cons x xs ih => rw [differences, runningSums, BitVec.sub_add_cancel, ih]

theorem differences_runningSums (prev : Byte) (ys : List Byte) : differences prev (runningSums prev ys) = ys := by
  induction ys generalizing prev with
  | nil => rfl
  | cons y ys ih => rw [runningSums, differences, BitVec.add_sub_cancel, ih]

theorem invPlane_fwdPlane (x : List Byte) : invPlane (fwdPlane x) = x := by
  cases x with
  | nil => rfl
  | cons x xs => rw [fwdPlane, invPlane, runningSums_differences]

theorem fwdPlane_invPlane (y : List Byte) : fwdPlane (invPlane y) = y := by
  cases y with
  | nil => rfl
  | cons y ys => rw [invPlane, fwdPlane, differences_runningSums]

/-- A function undone on each plane is undone on the plane set. -/
theorem mapPlanes_mapPlanes_cancel {f g : List Byte → List Byte} (length_f : ∀ x, (f x).length = x.length)
    (cancel : ∀ x, g (f x) = x) {P C : Nat} {S : List Byte} (length : S.length = C * P) :
    mapPlanes g P C (mapPlanes f P C S) = S := by
  induction C generalizing S with
  | zero => exact (List.length_eq_zero_iff.mp (length.trans (Nat.zero_mul P))).symm
  | succ c ih =>
    rw [Nat.succ_mul] at length
    have head : (f (S.take P)).length = P := by rw [length_f, List.length_take]; omega
    have tail : (S.drop P).length = c * P := by rw [List.length_drop]; omega
    rw [mapPlanes, mapPlanes, List.take_left' head, List.drop_left' head, cancel, ih tail, List.take_append_drop]

theorem invBytes_fwdBytes {C P : Nat} {S : List Byte} (length : S.length = C * P) :
    invBytes C P (fwdBytes C P S) = S :=
  mapPlanes_mapPlanes_cancel length_fwdPlane invPlane_fwdPlane length

/-! ### DFWD (R180) -/

/-- Settles O23: sample `i` of plane `c` of what is stored is a difference of two loaded samples. -/
theorem dfwdStoresDifferences : Obligations.DfwdStoresDifferences := by
  intro s wf ready o x
  have length : (s.load o.srcRegion).length = o.C * o.P := length_load _ _
  have loaded {c i : Nat} (hc : c < o.C) (hi : i < o.P) : (s.load o.srcRegion).getD (c * o.P + i) 0 = x c i :=
    getD_load s (plane_index_lt hc hi)
  obtain ⟨t, ran, stored, frame⟩ := exec_store_complete wf (exec_dfwd_ready ready) (length_fwdBytes length)
  refine ⟨t, ran, fun c hc i hi => ?_, frame⟩
  have seed : (s.load o.srcRegion).getD (c * o.P) 0 = x c 0 := loaded (i := 0) hc (by omega)
  rw [stored _ (plane_index_lt hc hi), getD_fwdBytes length hc hi, seed, loaded hc hi, loaded hc (by omega)]

/-! ### DINV (R181) -/

/-- A sequence whose samples each add the one before is the sum of the samples so far, modulo 256. -/
theorem toNat_eq_sum_of_recurrence {x y : Nat → Byte} {n : Nat}
    (recurrence : ∀ i < n, x i = if i = 0 then y 0 else y i + x (i - 1)) (i : Nat) (hi : i < n) :
    (x i).toNat = ((List.range (i + 1)).map fun j => (y j).toNat).sum % 256 := by
  induction i with
  | zero => simpa [recurrence 0 hi] using (Nat.mod_eq_of_lt (y 0).isLt).symm
  | succ i ih =>
    rw [recurrence _ hi, if_neg (Nat.succ_ne_zero i), Nat.add_sub_cancel, BitVec.toNat_add, ih (by omega),
      Nat.add_mod_mod, List.range_succ (n := i + 1), List.map_append, List.sum_append, List.map_singleton,
      List.sum_singleton, Nat.add_comm]

/-- Settles O24: what is stored satisfies the recurrence of the running sums. -/
theorem dinvRestoresSamples : Obligations.DinvRestoresSamples := by
  intro s wf ready o y
  have length : (s.load o.srcRegion).length = o.C * o.P := length_load _ _
  have loaded {c i : Nat} (hc : c < o.C) (hi : i < o.P) : (s.load o.srcRegion).getD (c * o.P + i) 0 = y c i :=
    getD_load s (plane_index_lt hc hi)
  obtain ⟨t, ran, stored, frame⟩ := exec_store_complete wf (exec_dinv_ready ready) (length_invBytes length)
  have recurrence : ∀ c < o.C, ∀ i < o.P, t.mem.read (o.src.toNat + (c * o.P + i)) =
      if i = 0 then y c 0 else y c i + t.mem.read (o.src.toNat + (c * o.P + (i - 1))) := by
    intro c hc i hi
    have seed : (s.load o.srcRegion).getD (c * o.P) 0 = y c 0 := loaded (i := 0) hc (by omega)
    rw [stored _ (plane_index_lt hc hi), stored _ (plane_index_lt hc (show i - 1 < o.P by omega)),
      getD_invBytes length hc hi, seed, loaded hc hi]
  exact ⟨t, ran, fun c hc i hi => ⟨recurrence c hc i hi, toNat_eq_sum_of_recurrence (recurrence c hc) i hi⟩, frame⟩

/-! ### DINV after DFWD (R186) -/

/-- Writing the old bytes back over a range restores all of memory. -/
theorem Memory.writeRange_readRange_restores {m : Memory} (wf : m.wf = true) (base : Nat) {n : Nat} {bs : List Byte}
    (length : bs.length = n) : (m.writeRange base bs).writeRange base (m.readRange base n) = m := by
  subst length
  have wf' := Memory.wf_writeRange bs base wf
  refine Memory.ext (Memory.wf_writeRange _ _ wf') wf fun a => ?_
  rw [Memory.read_writeRange _ _ _ wf', Memory.read_writeRange _ _ _ wf, Memory.length_readRange]
  by_cases inside : base ≤ a ∧ a < base + bs.length
  · rw [if_pos inside, Memory.getD_readRange _ (by omega), Nat.add_sub_cancel' inside.1]
  · rw [if_neg inside, if_neg inside]

theorem exec_dfwd_mem {s t : State} (ready : s.Ready .dfwd) (ran : exec .dfwd s = .next t) :
    t.mem = (s.store s.operands.src.toNat
      (fwdBytes s.operands.C s.operands.P (s.load s.operands.srcRegion))).mem := by
  obtain rfl := Host.Outcome.next.inj ((exec_dfwd_ready ready).symm.trans ran)
  exact State.complete_mem _

/-- Settles O30: DINV loads the differences that DFWD stored, and writes back the bytes that DFWD loaded. -/
theorem deltaFiltersAreInverse : Obligations.DeltaFiltersAreInverse := by
  refine ⟨fun x => ⟨invPlane_fwdPlane x, fwdPlane_invPlane x⟩, ?_⟩
  intro s t u wf ready ran same operands readyInv
  have mem := same.trans (exec_dfwd_mem ready ran)
  have length : (s.load s.operands.srcRegion).length = s.operands.C * s.operands.P := length_load _ _
  have differencesLoaded : u.load s.operands.srcRegion =
      fwdBytes s.operands.C s.operands.P (s.load s.operands.srcRegion) :=
    load_eq_of_store wf (length_fwdBytes length) mem
  refine ⟨_, exec_dinv_ready readyInv, ?_⟩
  rw [State.complete_mem, State.store_mem, operands, differencesLoaded, invBytes_fwdBytes length, mem, State.store_mem]
  exact Memory.writeRange_readRange_restores wf _ (length_fwdBytes length)

end Sys2Proof.Machine

/-! The fused commands (44_fused.md R200 to R209): what ENCODE and DECODE leave, that each equals the sequence of commands
it stands for, and that DECODE undoes ENCODE. -/

namespace Sys2Proof.Machine

variable {s : State} {delta fatal : Bool}

/-! ### A range of memory just written -/

theorem Memory.read_writeRange_inside {m : Memory} (wf : m.wf = true) (base : Nat) {bs : List Byte} {k : Nat}
    (inside : k < bs.length) : (m.writeRange base bs).read (base + k) = bs.getD k 0 := by
  rw [Memory.read_writeRange _ _ _ wf, if_pos (by omega), Nat.add_sub_cancel_left]

theorem Memory.read_writeRange_outside {m : Memory} (wf : m.wf = true) {base n a : Nat} {bs : List Byte}
    (length : bs.length = n) (outside : ¬(base ≤ a ∧ a < base + n)) : (m.writeRange base bs).read a = m.read a := by
  subst length
  rw [Memory.read_writeRange _ _ _ wf, if_neg outside]

/-- The second of two writes to one range is the one that counts. -/
theorem Memory.writeRange_writeRange {m : Memory} (wf : m.wf = true) (base : Nat) {bs cs : List Byte}
    (length : bs.length = cs.length) : (m.writeRange base bs).writeRange base cs = m.writeRange base cs := by
  have wf' := Memory.wf_writeRange bs base wf
  refine Memory.ext (Memory.wf_writeRange _ _ wf') (Memory.wf_writeRange _ _ wf) fun a => ?_
  rw [Memory.read_writeRange _ _ _ wf', Memory.read_writeRange _ _ _ wf, Memory.read_writeRange _ _ _ wf, length]
  split_ifs <;> rfl

/-! ### The planes that ENCODE stores -/

/-- The plane set that ENCODE stores, from the image at SRC (R200). -/
def State.encoded (delta : Bool) (s : State) : List Byte :=
  encodedPlanes delta s.operands.C s.operands.P (s.load s.operands.srcRegion)

@[simp] theorem length_encoded (delta : Bool) (s : State) : (s.encoded delta).length = s.operands.N :=
  length_encodedPlanes _ _ _ _

/-- An encoded plane set, sample by sample (R160, R180). -/
theorem getD_encodedPlanes (delta : Bool) {C P c i : Nat} (I : List Byte) (hc : c < C) (hi : i < P) :
    (encodedPlanes delta C P I).getD (c * P + i) 0 =
      if delta = true ∧ 0 < i then I.getD (i * C + c) 0 - I.getD ((i - 1) * C + c) 0 else I.getD (i * C + c) 0 := by
  have split {j : Nat} (hj : j < P) : (splitBytes C P I).getD (c * P + j) 0 = I.getD (j * C + c) 0 :=
    getD_splitBytes I hc hj
  cases delta with
  | false => simpa [encodedPlanes] using split hi
  | true =>
    rw [encodedPlanes, if_pos rfl, getD_fwdBytes (length_splitBytes _ _ _) hc hi, split hi, split (by omega)]
    rcases Nat.eq_zero_or_pos i with rfl | later
    · simpa using split hi
    · rw [if_neg (by omega), if_pos ⟨rfl, later⟩]

/-- A ready ENCODE stores the encoded planes at DST, reports their digest and completes (R200). -/
theorem exec_encode_completes (ready : s.Ready (.encode delta)) : ∃ t, exec (.encode delta) s = .next t ∧
    t.mem = s.mem.writeRange s.operands.dst.toNat (s.encoded delta) ∧
    t.chkResult = digest (s.encoded delta) s.operands.seeds ∧
    t = { s with
      mem := t.mem, chkResult := t.chkResult, acc := t.acc, eng := .idle
      status := { s.status with done := true } } :=
  ⟨_, exec_encode_ready ready, rfl, rfl, rfl⟩

/-- Settles O26: what is stored sample by sample is `getD_encodedPlanes`, and it is read back as it was digested. -/
theorem encodeLeavesDigestedPlanes : Obligations.EncodeLeavesDigestedPlanes := by
  intro delta s wf ready o x
  obtain ⟨t, ran, mem, chkResult, frame⟩ := exec_encode_completes ready
  have length : (s.encoded delta).length = o.N := length_encoded delta s
  have loaded {c i : Nat} (hc : c < o.C) (hi : i < o.P) : (s.load o.srcRegion).getD (i * o.C + c) 0 = x c i :=
    getD_load s (pixel_index_lt hc hi)
  refine ⟨t, ran, fun c hc i hi => ?planes, ?digest, fun a outside => ?outside, frame⟩
  case planes =>
    rw [mem, Memory.read_writeRange_inside wf _ (length ▸ plane_index_lt hc hi), State.encoded,
      getD_encodedPlanes delta _ hc hi, loaded hc hi, loaded hc (by omega)]
  case digest => rw [chkResult, mem, ← length, Memory.readRange_writeRange _ _ wf]
  case outside => rw [mem, Memory.read_writeRange_outside wf length outside]

/-! ### The planes that DECODE merges -/

/-- The plane set that DECODE merges, from the one at SRC (R203). -/
def State.restored (delta : Bool) (s : State) : List Byte :=
  restoredPlanes delta s.operands.C s.operands.P (s.load s.operands.srcRegion)

@[simp] theorem length_restored (delta : Bool) (s : State) : (s.restored delta).length = s.operands.N :=
  length_restoredPlanes delta (length_load _ _)

/-- Memory once the planes at SRC are restored in place if DELTA = 1 (R203). -/
def State.restoredMem (delta : Bool) (s : State) : Memory :=
  if delta then s.mem.writeRange s.operands.src.toNat (s.restored delta) else s.mem

theorem wf_restoredMem (delta : Bool) (wf : s.mem.wf = true) : (s.restoredMem delta).wf = true := by
  cases delta with
  | false => exact wf
  | true => exact Memory.wf_writeRange _ _ wf

/-- Restored in place or not, SRC then holds the restored planes. -/
theorem readRange_restoredMem (delta : Bool) (wf : s.mem.wf = true) :
    (s.restoredMem delta).readRange s.operands.src.toNat s.operands.N = s.restored delta := by
  cases delta with
  | false => rfl
  | true =>
    rw [← length_restored true s]
    exact Memory.readRange_writeRange _ _ wf

theorem read_restoredMem_outside {a : Nat} (wf : s.mem.wf = true)
    (outside : ¬(delta = true ∧ s.operands.src.toNat ≤ a ∧ a < s.operands.src.toNat + s.operands.N)) :
    (s.restoredMem delta).read a = s.mem.read a := by
  cases delta with
  | false => rfl
  | true => exact Memory.read_writeRange_outside wf (length_restored true s) fun inside => outside ⟨rfl, inside⟩

/-- A restored plane set, sample by sample: as given, or the sum of the plane's samples so far (R181). -/
theorem toNat_getD_restoredPlanes (delta : Bool) {C P c i : Nat} {S : List Byte} (length : S.length = C * P)
    (hc : c < C) (hi : i < P) :
    ((restoredPlanes delta C P S).getD (c * P + i) 0).toNat =
      if delta then ((List.range (i + 1)).map fun j => (S.getD (c * P + j) 0).toNat).sum % 256
      else (S.getD (c * P + i) 0).toNat := by
  cases delta with
  | false => rfl
  | true =>
    exact toNat_eq_sum_of_recurrence (x := fun i => (invBytes C P S).getD (c * P + i) 0)
      (y := fun j => S.getD (c * P + j) 0) (fun i hi => getD_invBytes length hc hi) i hi

/-- A ready DECODE whose digest matches, or with FATAL = 0, restores the planes, stores the image and completes (R203,
R206). -/
theorem exec_decode_completes (ready : s.Ready (.decode delta fatal)) {d : Word}
    (digested : Machine.digest (s.load s.operands.srcRegion) s.operands.seeds = d)
    (goesOn : fatal = true → d = s.operands.chkExpect) :
    ∃ t, exec (.decode delta fatal) s = .next t ∧
      t.mem = (s.restoredMem delta).writeRange s.operands.dst.toNat
        (mergeBytes s.operands.C s.operands.P (s.restored delta)) ∧
      t = { s with
        mem := t.mem, chkResult := d, acc := accumulate s.operands.seeds (s.load s.operands.srcRegion), eng := .idle
        status := { s.status with done := true, chkMismatch := s.status.chkMismatch || d != s.operands.chkExpect } } := by
  subst digested
  exact ⟨_, exec_decode_ready ready goesOn, rfl, rfl⟩

/-- Settles O27: SRC is read back as `State.restored` since DST lies apart from it, DST as its merge. -/
theorem decodeRestoresImage : Obligations.DecodeRestoresImage := by
  intro delta fatal s wf ready o d y goesOn
  obtain ⟨t, ran, mem, frame⟩ := exec_decode_completes ready (d := d) rfl goesOn
  have wf' := wf_restoredMem delta wf
  have apart : o.src.toNat + o.N ≤ o.dst.toNat ∨ o.dst.toNat + o.N ≤ o.src.toNat := ready.passed.apart rfl
  have stored {a : Nat} (outside : ¬(o.dst.toNat ≤ a ∧ a < o.dst.toNat + o.N)) :
      t.mem.read a = (s.restoredMem delta).read a := by
    rw [mem, Memory.read_writeRange_outside wf' (length_mergeBytes _ _ _) outside]
  have atSrc {k : Nat} (hk : k < o.N) : t.mem.read (o.src.toNat + k) = (s.restored delta).getD k 0 := by
    rw [stored (by omega), ← readRange_restoredMem delta wf, Memory.getD_readRange _ hk]
  have loaded {c i : Nat} (hc : c < o.C) (hi : i < o.P) : (s.load o.srcRegion).getD (c * o.P + i) 0 = y c i :=
    getD_load s (plane_index_lt hc hi)
  refine ⟨t, ran, fun c hc i hi => ⟨?planes, ?image⟩, fun a outsideDst outsideSrc => ?outside, by rw [frame]⟩
  case planes =>
    have samples : (List.range (i + 1)).map (fun j => ((s.load o.srcRegion).getD (c * o.P + j) 0).toNat) =
        (List.range (i + 1)).map fun j => (y c j).toNat :=
      List.map_congr_left fun j hj => by rw [loaded hc (by have := List.mem_range.mp hj; omega)]
    rw [atSrc (plane_index_lt hc hi), State.restored, toNat_getD_restoredPlanes delta (length_load _ _) hc hi, samples,
      loaded hc hi]
  case image =>
    rw [atSrc (plane_index_lt hc hi), mem,
      Memory.read_writeRange_inside wf' _ (by rw [length_mergeBytes]; exact pixel_index_lt hc hi),
      getD_mergeBytes _ hc hi]
  case outside => rw [stored outsideDst, read_restoredMem_outside wf outsideSrc]

/-! ### DECODE that ends in an error -/

/-- Settles O28. -/
theorem decodeFatalMismatchWritesNothing : Obligations.DecodeFatalMismatchWritesNothing :=
  fun _ _ valid ordinary notRaced reads differs => ⟨_, exec_decode_fatal valid ordinary notRaced reads differs⟩

theorem State.abandonDigest_of_not_raced (notRaced : s.raced = false) : s.abandonDigest = s.drawAcc :=
  if_neg (Bool.eq_false_iff.mp notRaced)

/-- A read that fails ends DECODE before its comparison, with no region left unspecified (R203, R227). -/
theorem decodeBody_of_read_failure {t : State} {addr : Nat} (notRaced : t.raced = false)
    (tried : s.tryAccesses s.operands.decodeReads = (some addr, t)) :
    s.decodeBody delta fatal =
      t.drawAcc.busError (s.failedAddress (accessesOf (.decode delta fatal) s.operands)) [] := by
  rw [State.decodeBody, tried]
  dsimp only
  rw [State.abandonDigest_of_not_raced notRaced, State.settle_of_not_raced (s := t.drawAcc) notRaced]

/-- Settles O45: the address reported is one of the failing ones, and fits ERR_ADDR. -/
theorem decodeReadFailurePreemptsComparison : Obligations.DecodeReadFailurePreemptsComparison := by
  intro delta fatal s valid ordinary notRaced legal readFails
  obtain ⟨addr, _, tried⟩ := State.tryAccesses_fails readFails
  have someFail : (accessesOf (.decode delta fatal) s.operands).failing s.cfg ++
      (accessesOf (.decode delta fatal) s.operands).mayFail s.cfg ≠ [] := by
    simp [failing_decode, readFails]
  have reported := State.failedAddress_mem someFail
  refine ⟨_, (runCommand_of_regions ordinary (passed_of_check valid).inRange).trans
    (congrArg _ (decodeBody_of_read_failure (t := { s with draws := s.draws + 1 }) notRaced tried)),
    rfl, rfl, rfl, rfl, ?_⟩
  rw [State.busError, State.raiseError_errAddr, BitVec.toNat_ofNat, Nat.mod_eq_of_lt (failing_lt legal valid reported)]
  rwa [mayFail_decode, List.append_nil] at reported

/-! ### The round trip (R209) -/

theorem restoredPlanes_encodedPlanes (delta : Bool) (C P : Nat) (I : List Byte) :
    restoredPlanes delta C P (encodedPlanes delta C P I) = splitBytes C P I := by
  cases delta with
  | false => rfl
  | true => exact invBytes_fwdBytes (length_splitBytes _ _ _)

/-- Settles O52: DECODE loads the planes that ENCODE stored, whose digest it expects, and merging what it restores gives
the image that ENCODE loaded. -/
theorem encodeDecodeRoundTrip : Obligations.EncodeDecodeRoundTrip := by
  intro delta fatal s u d wf wfU readyEncode readyDecode
  obtain ⟨t, ran, mem, chkResult, _⟩ := exec_encode_completes readyEncode
  refine ⟨t, ran, fun same operands => ?_⟩
  have planes : u.load u.operands.srcRegion = s.encoded delta := by
    rw [operands, ← Memory.readRange_writeRange (s.encoded delta) s.operands.dst.toNat wf, ← mem, length_encoded]
    exact Memory.readRange_congr same
  have matched : Machine.digest (u.load u.operands.srcRegion) u.operands.seeds = u.operands.chkExpect := by
    rw [planes, operands, chkResult]
  have image : mergeBytes u.operands.C u.operands.P (u.restored delta) = s.load s.operands.srcRegion := by
    rw [State.restored, planes, operands]
    exact (congrArg _ (restoredPlanes_encodedPlanes delta _ _ _)).trans (mergeBytes_splitBytes (length_load _ _))
  obtain ⟨v, ranDecode, memV, frame⟩ := exec_decode_completes readyDecode matched fun _ => rfl
  have dst : u.operands.dst = d := by rw [operands]
  refine ⟨v, ranDecode, by rw [frame], by rw [frame, bne_self_eq_false, Bool.or_false], fun k hk => ?_⟩
  rw [memV, image, dst, Memory.read_writeRange_inside (wf_restoredMem delta wfU) _ (by rwa [length_load])]
  exact getD_load s hk

/-! ### The conditions of `State.Ready` on a configuration and operands -/

/-- What `State.Ready` asks of the platform and the operands: the command passes R123's checks, on ordinary memory (R69),
with no access failing (R80). -/
structure Fit (c : Config) (o : Operands) (i : Instr) : Prop where
  valid : checkCommand c o i = none
  ordinary : ∀ r ∈ i.regions o, c.touchesSideEffects r = false
  noFail : (accessesOf i o).failing c = [] ∧ (accessesOf i o).mayFail c = []

theorem State.Ready.fit {i : Instr} (ready : s.Ready i) : Fit s.cfg s.operands i :=
  ⟨ready.valid, ready.ordinary, ready.noFail⟩

/-- A command is ready in an IDLE state whose registers fit it. -/
theorem Fit.ready {i : Instr} (idle : s.eng = .idle) (fit : Fit s.cfg s.params i) : s.Ready i := by
  rw [← State.operands_of_idle idle] at fit
  exact ⟨fit.valid, fit.ordinary, State.raced_of_idle idle, fit.noFail⟩

/-- A region of LENGTH = N bytes is one of N bytes: the size limit keeps N within the register (R126, R44). -/
theorem region_ofNat_N {c : Config} {o : Operands} (legal : c.legal = true) (size : sizeLegal c o = true) (base : Nat) :
    Region.mk base (BitVec.ofNat 32 o.N).toNat = ⟨base, o.N⟩ := by
  rw [sizeLegal, decide_eq_true_eq] at size
  rw [BitVec.toNat_ofNat, Nat.mod_eq_of_lt (size.trans_lt (legal_bounds legal).2)]

theorem fails_of_mem {a : Accesses} {c : Config} {x : Nat} (h : x ∈ a.failing c ++ a.mayFail c) :
    c.readFails x = true ∨ c.writeFails x = true := by
  simp only [Accesses.failing, Accesses.mayFail, List.mem_append, List.mem_filter] at h
  tauto

/-- A command can read the region: ordinary memory of the address space (R69, R127) at which no read fails (R80). -/
structure Readable (c : Config) (r : Region) : Prop where
  inRange : r.inRange c = true
  ordinary : c.touchesSideEffects r = false
  reads : r.addresses.filter c.readFails = []

namespace Fit

variable {c : Config} {o : Operands} {r : Region} {l : Word} {i : Instr}

theorem passed (fit : Fit c o i) : Passed c o i := passed_of_check fit.valid

theorem csum (buffer : o.bufRegion = r) (readable : Readable c r) : Fit c o .csum := by
  subst buffer
  refine ⟨Passed.check ⟨nofun, nofun, ?_, nofun⟩, ?_, List.append_eq_nil_iff.mpr ⟨readable.reads, rfl⟩, rfl⟩
  · simpa [Instr.regions] using readable.inRange
  · simpa [Instr.regions] using readable.ordinary

/-- A filter fits a plane set, of legal geometry, that can be read and written. -/
theorem filter (which : i = .dfwd ∨ i = .dinv) (geometry : geometryLegal c o = true) (size : sizeLegal c o = true)
    (readable : Readable c o.srcRegion) (writes : o.srcRegion.addresses.filter c.writeFails = []) : Fit c o i := by
  have regions : i.regions o = [o.srcRegion] := by rcases which with rfl | rfl <;> rfl
  have inPlace : i.hasDestination = false := by rcases which with rfl | rfl <;> rfl
  have nothing : (accessesOf i o).failing c ++ (accessesOf i o).mayFail c = [] := by
    refine List.eq_nil_iff_forall_not_mem.mpr fun x hx => ?_
    have inside : x ∈ o.srcRegion.addresses := by
      have := failing_in_regions hx
      rwa [regions, Region.anyContains_cons, Region.anyContains_nil, Bool.or_false, Region.contains_iff,
        ← Region.mem_addresses] at this
    exact (fails_of_mem hx).elim (List.filter_eq_nil_iff.mp readable.reads x inside)
      (List.filter_eq_nil_iff.mp writes x inside)
  refine ⟨Passed.check ⟨fun _ => geometry, fun _ => size, ?_, ?_⟩, ?_, List.append_eq_nil_iff.mp nothing⟩
  · simpa [regions] using readable.inRange
  · simp [inPlace]
  · simpa [regions] using readable.ordinary

/-- ENCODE writes DST and may read it back (R66, log 8). -/
theorem encode_dst (fit : Fit c o (.encode delta)) :
    Readable c o.dstRegion ∧ o.dstRegion.addresses.filter c.writeFails = [] := by
  have region : o.dstRegion ∈ (Instr.encode delta).regions o := List.mem_cons_of_mem _ List.mem_cons_self
  obtain ⟨fails, mayFail⟩ := fit.noFail
  exact ⟨⟨fit.passed.inRange _ region, fit.ordinary _ region, (List.append_eq_nil_iff.mp mayFail).1⟩,
    (List.append_eq_nil_iff.mp fails).2⟩

theorem dfwd_of_encode (fit : Fit c o (.encode delta)) : Fit c { o with src := o.dst, length := l } .dfwd :=
  Fit.filter (.inl rfl) (fit.passed.geometry rfl) (fit.passed.size rfl) fit.encode_dst.1 fit.encode_dst.2

theorem csum_of_encode (legal : c.legal = true) (fit : Fit c o (.encode delta)) :
    Fit c { o with src := o.dst, length := BitVec.ofNat 32 o.N } .csum :=
  Fit.csum (region_ofNat_N legal (fit.passed.size rfl) _) fit.encode_dst.1

/-- DECODE reads SRC, writes SRC if DELTA = 1, and writes DST (R203). -/
theorem decode_accesses (fit : Fit c o (.decode delta fatal)) :
    Readable c o.srcRegion ∧ (delta = true → o.srcRegion.addresses.filter c.writeFails = []) ∧
      o.dstRegion.addresses.filter c.writeFails = [] := by
  have region : o.srcRegion ∈ (Instr.decode delta fatal).regions o := List.mem_cons_self
  obtain ⟨reads, writes⟩ := List.append_eq_nil_iff.mp fit.noFail.1
  obtain ⟨src, dst⟩ := List.append_eq_nil_iff.mp ((List.filter_append _ _).symm.trans writes)
  exact ⟨⟨fit.passed.inRange _ region, fit.ordinary _ region, reads⟩, fun h => by simpa [h] using src, dst⟩

theorem csum_of_decode (legal : c.legal = true) (fit : Fit c o (.decode delta fatal)) :
    Fit c { o with length := BitVec.ofNat 32 o.N } .csum :=
  Fit.csum (region_ofNat_N legal (fit.passed.size rfl) _) fit.decode_accesses.1

theorem dinv_of_decode (fit : Fit c o (.decode true fatal)) : Fit c { o with length := l } .dinv := by
  obtain ⟨src, writes, _⟩ := fit.decode_accesses
  exact Fit.filter (.inr rfl) (fit.passed.geometry rfl) (fit.passed.size rfl) src (writes rfl)

theorem merge_of_decode (fit : Fit c o (.decode delta fatal)) : Fit c { o with length := l } .merge := by
  obtain ⟨src, _, writes⟩ := fit.decode_accesses
  exact ⟨fit.valid, fit.ordinary, List.append_eq_nil_iff.mpr ⟨src.reads, writes⟩, rfl⟩

end Fit

/-! ### ENCODE as a sequence (R202) -/

/-- `u` with the registers set to the plane set that ENCODE with operands `o` stores: SRC = DST, LENGTH = N (R202). -/
def State.onPlanes (o : Operands) (u : State) : State :=
  { u with params := { u.params with src := o.dst, length := BitVec.ofNat 32 o.N } }

/-- `s` with the encoded planes stored at DST and the command completed; the registers are the operands (R48). -/
def State.stored (delta : Bool) (s : State) : State :=
  { (s.store s.operands.dst.toNat (s.encoded delta)).complete with params := s.operands }

theorem exec_split_stored (latched : s.operands = s.params) (ready : s.Ready (.encode delta)) :
    exec .split s = .next (s.stored false) := by
  have split : s.Ready .split := ⟨ready.valid, ready.ordinary, ready.notRaced, ready.noFail.1, rfl⟩
  have registers : s.stored false = (s.store s.operands.dst.toNat (s.encoded false)).complete :=
    congrArg (fun o => ({ (s.store s.operands.dst.toNat (s.encoded false)).complete with params := o } : State)) latched
  rw [registers]
  exact exec_split_ready split

theorem load_stored (delta : Bool) (wf : s.mem.wf = true) :
    (s.stored delta).load s.operands.dstRegion = s.encoded delta :=
  load_eq_of_store wf (length_encoded delta s) rfl

/-- The split planes at DST, filtered in place, are what ENCODE with DELTA = 1 stores. -/
theorem filtered_mem (wf : s.mem.wf = true) :
    (s.stored false).mem.writeRange s.operands.dst.toNat
      (fwdBytes s.operands.C s.operands.P ((s.stored false).load s.operands.dstRegion)) = (s.stored true).mem := by
  rw [load_stored false wf]
  exact Memory.writeRange_writeRange wf _ ((length_encoded false s).trans (length_encoded true s).symm)

/-- DFWD on the split planes leaves the filtered planes in their place. -/
theorem exec_dfwd_stored (wf : s.mem.wf = true) (ready : s.Ready (.encode delta)) :
    exec .dfwd ((s.stored false).onPlanes s.operands) = .next ((s.stored true).onPlanes s.operands) := by
  have ran := exec_dfwd_ready (s := (s.stored false).onPlanes s.operands) (Fit.ready rfl ready.fit.dfwd_of_encode)
  refine ran.trans (congrArg Host.Outcome.next ?_)
  exact congrArg (fun m => ({ (s.stored true).onPlanes s.operands with mem := m } : State)) (filtered_mem wf)

/-- CSUM on the encoded planes reports their digest and changes no memory. -/
theorem exec_csum_stored (wf : s.mem.wf = true) (legal : s.cfg.legal = true) (ready : s.Ready (.encode delta)) :
    ∃ v, exec .csum ((s.stored delta).onPlanes s.operands) = .next v ∧ v.mem = (s.stored delta).mem ∧
      v.chkResult = Machine.digest (s.encoded delta) s.operands.seeds := by
  refine ⟨_, exec_csum_ready (Fit.ready rfl (ready.fit.csum_of_encode legal)), rfl, ?_⟩
  have buffer : ((s.stored delta).onPlanes s.operands).operands.bufRegion = s.operands.dstRegion :=
    region_ofNat_N legal (ready.passed.size rfl) _
  rw [State.complete_chkResult, buffer]
  exact congrArg (Machine.digest · _) (load_stored delta wf)

/-- Settles O50: DFWD rewrites the split planes in place, and CSUM digests the bytes that ENCODE stores. -/
theorem encodeEqualsSequence : Obligations.EncodeEqualsSequence := by
  intro delta s wf legal latched ready
  rw [← latched]
  intro onPlanes
  obtain ⟨e, ranE, memE, chkE, _⟩ := exec_encode_completes ready
  obtain ⟨v, ranV, memV, chkV⟩ := exec_csum_stored wf legal ready
  obtain ⟨u, ranU, same⟩ : ∃ u, (if delta then exec .dfwd (onPlanes (s.stored false)) = .next u
      else u = s.stored false) ∧ onPlanes u = (s.stored delta).onPlanes s.operands := by
    cases delta with
    | false => exact ⟨_, rfl, rfl⟩
    | true => exact ⟨_, exec_dfwd_stored wf ready, rfl⟩
  exact ⟨e, _, u, v, ranE, exec_split_stored latched ready, ranU, same ▸ ranV, memV.trans memE.symm,
    chkV.trans chkE.symm⟩

/-! ### DECODE as a sequence (R208) -/

/-- What CSUM over the N bytes at SRC leaves, from the registers that DECODE latched (R147, R208). -/
def State.digested (s : State) : State :=
  { s with
    params := { s.operands with length := BitVec.ofNat 32 s.operands.N }
    acc := accumulate s.operands.seeds (s.load s.operands.srcRegion)
    chkResult := Machine.digest (s.load s.operands.srcRegion) s.operands.seeds
    eng := .idle
    status := { s.status with done := true } }

theorem exec_csum_digested (legal : s.cfg.legal = true) (ready : s.Ready (.decode delta fatal)) :
    exec .csum { s with
      eng := .idle, params := { s.operands with length := BitVec.ofNat 32 s.operands.N } } = .next s.digested := by
  have ran := exec_csum_ready (s := { s with
    eng := .idle, params := { s.operands with length := BitVec.ofNat 32 s.operands.N } })
    (Fit.ready rfl (ready.fit.csum_of_decode legal))
  have buffer : Operands.bufRegion { s.operands with length := BitVec.ofNat 32 s.operands.N } = s.operands.srcRegion :=
    region_ofNat_N legal (ready.passed.size rfl) _
  rw [State.operands_of_idle (s := { s with eng := .idle, params := _ }) rfl, buffer] at ran
  exact ran

/-- DINV on what CSUM left restores the planes at SRC. -/
theorem exec_dinv_digested (ready : s.Ready (.decode true fatal)) :
    exec .dinv s.digested = .next { s.digested with mem := s.restoredMem true } :=
  exec_dinv_ready (Fit.ready rfl ready.fit.dinv_of_decode)

/-- MERGE on the restored planes stores the image that DECODE stores. -/
theorem exec_merge_restored (wf : s.mem.wf = true) (ready : s.Ready (.decode delta fatal)) :
    exec .merge { s.digested with mem := s.restoredMem delta } = .next { s.digested with
      mem := (s.restoredMem delta).writeRange s.operands.dst.toNat
        (mergeBytes s.operands.C s.operands.P (s.restored delta)) } := by
  rw [← readRange_restoredMem delta wf]
  exact exec_merge_ready (s := { s.digested with mem := s.restoredMem delta }) (Fit.ready rfl ready.fit.merge_of_decode)

/-- Settles O51: DECODE without an error stores, from CSUM's digest on, what DINV and MERGE store; a fatal mismatch is an
error. -/
theorem decodeEqualsSequence : Obligations.DecodeEqualsSequence := by
  intro delta fatal s wf legal latched ready
  rw [← latched]
  by_cases goesOn : fatal = true → Machine.digest (s.load s.operands.srcRegion) s.operands.seeds = s.operands.chkExpect
  · obtain ⟨e, ranE, memE, frameE⟩ := exec_decode_completes ready rfl goesOn
    refine ⟨e, s.digested, ranE, exec_csum_digested legal ready, fun _ =>
      ⟨{ s.digested with mem := s.restoredMem delta }, _, ?dinv, exec_merge_restored wf ready, ?same⟩⟩
    case dinv =>
      cases delta with
      | false => rfl
      | true => exact exec_dinv_digested ready
    case same =>
      rw [memE, ← latched] at frameE
      exact frameE
  · obtain ⟨rfl, differs⟩ := Classical.not_imp.mp goesOn
    exact ⟨_, _, exec_decode_fatal ready.valid ready.ordinary ready.notRaced ready.decodePhases.1 differs,
      exec_csum_digested legal ready, nofun⟩

end Sys2Proof.Machine

/-! Commands that are not raced, ended in BUS_ERROR by an access their rule makes (60_exceptions.md R228 to R230): each
body's end at the failed access, then what every such command leaves, by `Within.busError_outcome`. -/

namespace Sys2Proof.Machine

variable {i : Instr} {s t : State} {delta fatal : Bool} {addr : Nat}

/-! ### A command other than DECODE -/

theorem transfer_of_failure (tried : s.tryAccesses (accessesOf i s.operands) = (some addr, t)) (base : Nat)
    (f : List Byte → List Byte) : s.transfer i base f = t.busError addr (i.writtenRegions s.operands) := by
  rw [State.transfer, tried]

/-- CSUM's checksum phase does not finish, so it leaves CHK_RESULT alone (R230). -/
theorem csumBody_of_failure (notRaced : t.raced = false)
    (tried : s.tryAccesses s.operands.digestAccesses = (some addr, t)) :
    s.csumBody = t.drawAcc.busError addr [] := by
  rw [State.csumBody, tried]
  dsimp only
  rw [State.abandonDigest_of_not_raced notRaced]

/-- ENCODE ends before anything is stored or digested (R230). -/
theorem encodeBody_of_failure (notRaced : t.raced = false)
    (tried : s.tryAccesses s.operands.encodeAccesses = (some addr, t)) :
    s.encodeBody delta = t.drawAcc.busError addr [s.operands.dstRegion] := by
  rw [State.encodeBody, tried]
  dsimp only
  rw [State.abandonDigest_of_not_raced notRaced]

/-- Every command but DECODE ends at its failed access with STATUS and CHK_RESULT kept till then. -/
theorem exec_of_failure (notDecode : ∀ d f, i ≠ .decode d f) (valid : s.Valid i) (ordinary : s.Ordinary i)
    (notRaced : s.raced = false)
    (tried : s.tryAccesses (accessesOf i s.operands) = (some addr, { s with draws := s.draws + 1 })) :
    ∃ u, Within i s u ∧ u.status = s.status ∧ u.chkResult = s.chkResult ∧
      exec i s = .next (u.busError addr (i.writtenRegions s.operands)) := by
  have drew := (Within.refl i s).drew (Nat.le_succ s.draws)
  have ends {body : State → State} {v : State} (e : body s = v) : s.runCommand i body = .next v :=
    e ▸ runCommand_of_regions ordinary (passed_of_check valid).inRange
  cases i with
  | split | merge | dfwd | dinv => exact ⟨_, drew, rfl, rfl, ends (transfer_of_failure tried _ _)⟩
  | csum => exact ⟨_, drew.drawAcc rfl, rfl, rfl, ends (csumBody_of_failure notRaced tried)⟩
  | encode => exact ⟨_, drew.drawAcc rfl, rfl, rfl, ends (encodeBody_of_failure notRaced tried)⟩
  | decode d f => exact absurd rfl (notDecode d f)

/-- Settles O44: the address reported is one at which an access fails, and it fits ERR_ADDR. -/
theorem failedAccessEndsInBusError : Obligations.FailedAccessEndsInBusError := by
  intro i s notDecode memWf valid ordinary notRaced legal fails
  obtain ⟨addr, failing, tried⟩ := State.tryAccesses_fails fails
  obtain ⟨u, within, status, chkResult, ran⟩ := exec_of_failure notDecode valid ordinary notRaced tried
  obtain ⟨idle, report, address, kept⟩ :=
    within.busError_outcome status chkResult memWf (failing_lt legal valid failing)
  exact ⟨_, ran, idle, report, by rwa [address], kept⟩

/-! ### DECODE, after its checksum phase -/

/-- DECODE's checksum phase over the plane set at SRC, and its comparison, when it is not raced (R203, R205). -/
def State.compared (s : State) : State :=
  let d := digest (s.load s.operands.srcRegion) s.operands.seeds
  { s with
    acc := accumulate s.operands.seeds (s.load s.operands.srcRegion)
    chkResult := d
    status := { s.status with chkMismatch := s.status.chkMismatch || d != s.operands.chkExpect } }

theorem State.compared_mismatch (notRaced : s.raced = false) :
    s.compared.mismatch = (digest (s.load s.operands.srcRegion) s.operands.seeds != s.operands.chkExpect) :=
  if_neg (Bool.eq_false_iff.mp notRaced)

/-- DECODE whose reads succeed goes on to its writes, unless a fatal mismatch ends it (R203, R207). -/
theorem decodeBody_goes_on (notRaced : s.raced = false) (reads : s.operands.decodeReads.failing s.cfg = [])
    (goesOn : fatal = true → digest (s.load s.operands.srcRegion) s.operands.seeds = s.operands.chkExpect) :
    s.decodeBody delta fatal = s.compared.decodeStore delta (s.load s.operands.srcRegion) := by
  have compared : (s.checksumPhase (s.load s.operands.srcRegion)).compareDigest = s.compared :=
    compared_of_not_raced notRaced _
  have notEnded : ¬(fatal && s.compared.mismatch) = true := by
    rw [s.compared_mismatch notRaced, Bool.and_eq_true, bne_iff_ne]
    exact fun ⟨isFatal, differs⟩ => differs (goesOn isFatal)
  rw [State.decodeBody, State.tryAccesses_ok reads rfl]
  dsimp only
  rw [compared, if_neg notEnded]

theorem decodeStore_of_failure (tried : s.tryAccesses (s.operands.decodeWrites delta) = (some addr, t))
    (planes : List Byte) :
    s.decodeStore delta planes = t.busError addr ((Instr.decode delta fatal).writtenRegions s.operands) := by
  rw [State.decodeStore, tried]
  rfl

/-- Settles O46: the failed write ends DECODE from `State.compared`, which holds the digest and the mismatch and has left
memory alone. -/
theorem decodeWriteFailureKeepsDigest : Obligations.DecodeWriteFailureKeepsDigest := by
  intro delta fatal s memWf valid ordinary notRaced legal reads fails d goesOn
  obtain ⟨addr, failing, tried⟩ := s.compared.tryAccesses_fails (a := s.operands.decodeWrites delta) fails
  replace failing : addr ∈ (s.operands.decodeWrites delta).failing s.cfg := by
    rwa [show (s.operands.decodeWrites delta).mayFail s.compared.cfg = [] from rfl, List.append_nil] at failing
  have fits : addr < 2 ^ 32 := failing_lt legal valid (by simp [failing_decode, failing])
  have ran : exec (.decode delta fatal) s = .next (State.busError { s.compared with draws := s.draws + 1 } addr
      ((Instr.decode delta fatal).writtenRegions s.operands)) := by
    refine (runCommand_of_regions ordinary (passed_of_check valid).inRange).trans (congrArg _ ?_)
    exact (decodeBody_goes_on notRaced reads goesOn).trans (decodeStore_of_failure tried _)
  have drew : Within (.decode delta fatal) s.compared { s.compared with draws := s.draws + 1 } :=
    (Within.refl _ _).drew (Nat.le_succ _)
  obtain ⟨idle, report, address, chkResult, kept⟩ := drew.busError_outcome rfl rfl memWf fits
  exact ⟨_, ran, idle, report, chkResult, address.symm ▸ failing, kept⟩

end Sys2Proof.Machine

/-! Resets and the parameter registers (70_reset_and_hazards.md R260 to R265): the step that resets the block, what a reset
leaves of an abandoned command's regions, and the reset input while it is held. -/

namespace Sys2Proof.Machine

/-! ### The step that resets the block -/

/-- Both kinds of reset put the block through `State.resetBlock`; only the reset input's level and the bus answer differ
(R260, R262). -/
theorem step_reset {s : State} {e : Input} {rest : List Input} (resets : e.resets) (h : s.inputs = e :: rest) :
    ∃ held a, step s = .next { State.resetBlock { s with inputs := rest } with resetHeld := held, resp := a } := by
  rcases resets with rfl | ⟨v, rfl, srst⟩
  · exact ⟨_, _, step_cons h⟩
  · exact ⟨_, _, step_softReset srst h⟩

/-- Settles O9: either reset goes through `State.resetBlock`, which leaves the reset state. -/
theorem softAndHardwareResetAgree : Obligations.SoftAndHardwareResetAgree := by
  intro s e rest resets h
  obtain ⟨held, a, stepped⟩ := step_reset resets h
  have atReset : State.AtReset { State.resetBlock { s with inputs := rest } with resetHeld := held, resp := a } :=
    (State.resetBlock_atReset _).congr _ _ held _ a _
  have cfg : (State.resetBlock { s with inputs := rest }).cfg = s.cfg := State.resetBlock_cfg _
  exact ⟨_, stepped, fun r => (atReset.registers r).trans (congrArg (Reg.resetValue · r) cfg), atReset.idle,
    atReset.irqLow, cfg, State.resetBlock_inputs _⟩

/-! ### The abandoned command's memory -/

/-- A reset of a BUSY block draws the written regions' bytes, then the four hidden accumulators. -/
theorem State.resetBlock_draws_of_busy {s : State} {i : Instr} {o : Operands} {r : Bool} (busy : s.eng = .busy i o r) :
    s.resetBlock.draws = (s.scramble (i.writtenRegions o)).draws + 4 := by
  simp [State.resetBlock, busy]

/-- A reset of a BUSY block makes each byte of the running command's written regions a free value of its own, and keeps
every other byte (R263). -/
theorem State.resetBlock_abandons {s : State} {i : Instr} {o : Operands} {r : Bool} (memWf : s.mem.wf = true)
    (busy : s.eng = .busy i o r) :
    s.FreshBytes s.resetBlock (i.writtenRegions o) ∧
      ∀ a, Region.anyContains (i.writtenRegions o) a = false → s.resetBlock.mem.read a = s.mem.read a := by
  have mem := State.resetBlock_mem_of_busy busy
  refine ⟨(State.scramble_fresh _ memWf).widen (Nat.le_refl _) ?_ mem, fun a outside => ?_⟩
  · rw [State.resetBlock_draws_of_busy busy]
    exact Nat.le_add_right _ 4
  · rw [mem]
    exact State.scramble_read_outside _ memWf outside

/-- Settles O10: memory by `State.resetBlock_mem_of_idle` and `State.resetBlock_abandons`. -/
theorem resetAbandonsTheCommand : Obligations.ResetAbandonsTheCommand := by
  intro s e rest memWf resets h
  obtain ⟨held, a, stepped⟩ := step_reset resets h
  exact ⟨_, stepped, rfl, rfl, rfl, State.resetBlock_mem_of_idle (s := { s with inputs := rest }),
    fun _ _ _ busy => State.resetBlock_abandons (s := { s with inputs := rest }) memWf busy⟩

/-! ### The parameter registers -/

/-- Settles O41: of a step's effects only a reset and a write taken by a parameter register touch the parameters. -/
theorem onlyTheHostWritesParameters : Obligations.OnlyTheHostWritesParameters := by
  intro s t h changed
  cases step_effect h with
  | turn _ _ ran => exact absurd (exec_next_endsAs ran).2.2.params changed
  | reset event => exact .inl event
  | param event locked notCmd idle => exact .inr ⟨State.isBusy_eq_false.mpr idle, _, _, event, locked, notCmd⟩
  | enable | acknowledge | failedIssue | accept | drop | hostWrite | quiet => exact absurd rfl changed

/-! ### The reset input while it is held -/

/-- While the reset input is held a window write comes to a reset or to nothing, but for the bus answer (R260, R262). -/
theorem State.hostRegWrite_of_held {s : State} (held : s.resetHeld = true) (size : AccessSize) (off : BitVec 8)
    (v : Word) : ∃ a, s.hostRegWrite size off v = s.resetBlock.respond a ∨ s.hostRegWrite size off v = s.respond a := by
  rcases s.hostRegWrite_cases size off v with ⟨r, _, _, e⟩ | ⟨a, e⟩
  · refine ⟨.ok, ?_⟩
    rw [e]
    rcases s.takeWrite_cases r v with ⟨_, e⟩ | ⟨_, released, _⟩ | ⟨_, _, e⟩
    · exact .inl (by rw [e])
    · exact absurd (released.symm.trans held) Bool.false_ne_true
    · exact .inr (by rw [e])
  · exact ⟨a, .inr e⟩

/-- In the reset state every event but a register write leaves the reset state, and the reset input's level follows the
event (R260). -/
theorem step_of_atReset {s t : State} (atReset : s.AtReset) (noWrite : ∀ size off v, s.nextEvent ≠ .regWrite size off v)
    (h : step s = .next t) :
    t.AtReset ∧ t.resetHeld = ((s.resetHeld || s.nextEvent == .resetPin true) && s.nextEvent != .resetPin false) := by
  rcases step_cases h with
    ⟨_, i, o, r, busy, _⟩ | ⟨event, held, a, rfl, level⟩ | ⟨r, v, event, _⟩ | ⟨a, v, event, _, _, rfl⟩ |
      ⟨noReset, _, level, ht⟩
  · exact absurd (atReset.idle.symm.trans busy) nofun
  · refine ⟨(State.resetBlock_atReset _).congr _ _ held _ a _, ?_⟩
    rcases event with event | ⟨v, event, _⟩
    · rw [event] at level ⊢
      exact level.trans (Bool.and_true _).symm
    · exact absurd event (noWrite _ _ _)
  · exact absurd event (noWrite _ _ _)
  · rcases State.hostWrite_cases { s with inputs := s.inputs.tail } a v with ⟨_, e⟩ | ⟨i, o, r, busy, _⟩
    · rw [e, event]
      exact ⟨atReset.congr _ _ _ _ .ok _, by cases s.resetHeld <;> rfl⟩
    · exact absurd (atReset.idle.symm.trans busy) nofun
  · have notAsserted : (s.nextEvent == .resetPin true) = false := beq_eq_false_iff_ne.mpr fun e => noReset (.inl e)
    rw [notAsserted, Bool.or_false]
    refine ⟨?_, level⟩
    rw [ht]
    exact atReset.congr _ _ _ _ _ _

/-- Settles O53, event by event. -/
theorem resetInputHoldsTheResetState : Obligations.ResetInputHoldsTheResetState := by
  refine ⟨fun s rest h => ?asserted, fun s size off v rest held atReset h => ?written, fun s rest h => step_cons h,
    fun s t => step_of_atReset⟩
  case asserted =>
    exact ⟨_, step_cons h, (State.resetBlock_atReset { s with inputs := rest }).congr _ _ true _ _ _, rfl,
      State.resetBlock_cfg _, State.resetBlock_inputs _⟩
  case written =>
    rw [step_cons h, handle]
    refine ⟨_, rfl, ?_⟩
    obtain ⟨a, e | e⟩ := State.hostRegWrite_of_held (s := { s with inputs := rest }) held size off v <;> rw [e]
    · exact ⟨(State.resetBlock_atReset _).congr _ _ _ _ a _, (State.resetBlock_resetHeld _).trans held,
        State.resetBlock_mem_of_idle (s := { s with inputs := rest }) atReset.idle, State.resetBlock_cfg _,
        State.resetBlock_inputs _⟩
    · exact ⟨atReset.congr _ _ _ _ a _, held, rfl, rfl, rfl⟩

end Sys2Proof.Machine
